-- ==== Sys2Proof/Word.lean ====
section
/-! DEFINITION. The word types of the RLE24 codec: bytes, the two register widths, and the pixel.

spec/00_scope.md R7 (bit numbering, unsigned quantities), spec/10_state.md R12 and R24 (register widths),
spec/20_memory.md R41 (a pixel is the triple of three unsigned bytes). -/

namespace Sys2Proof

/-- An 8-bit byte; bit 7 is the most significant (R7). -/
abbrev Byte := BitVec 8

/-- A 32-bit register (R12, R24: the control and status registers, `DEC_W`, `DEC_H`). -/
abbrev Word32 := BitVec 32

/-- A 64-bit register (R12, R24: `DEC_LEN`, `DEC_POS`, `DEC_CNT`, `ENC_N`, `ENC_I`, `ENC_OLEN`). -/
abbrev Word64 := BitVec 64

/-- A pixel, the triple `(R, G, B)` of R41. -/
structure Pixel where
  r : Byte
  g : Byte
  b : Byte
deriving DecidableEq, Repr, Inhabited

/-- `BLACK = (0, 0, 0)` (R7). -/
def Pixel.black : Pixel := ⟨0, 0, 0⟩

end Sys2Proof
end

