-- ==== Sys2Proof/Config.lean ====
section
/-! DEFINITION. What is fixed for the machine, and the free values of the model.

The format constants are fixed by spec/00_scope.md R5. The capacities and the sharing of storage are the
parameters the spec leaves to the platform (R6, spec/92_eei_decisions.md D14, D23): they are values of the
structure `Caps`, held by State and changed by no step. The `opaque` constants are the free values: they have
no body, so no proof can rest on what they are. -/

namespace Sys2Proof

/-- The two units of the block (R1). One of each (R6, `INSTANCES`). -/
inductive UnitId where
  | dec
  | enc
deriving DecidableEq, Repr

/-- The four memory spaces (R40). -/
inductive Space where
  | src
  | dst
  | pix
  | out
deriving DecidableEq, Repr

namespace Config

/-- The longest group, in pixels (R5: "length ∈ [1,128]"). -/
def maxGroup : Nat := 128

/-- The longest group, in bytes: LIT 128 (R64, R72). -/
def maxGroupBytes : Nat := 1 + 3 * maxGroup

/-- The value a byte space (DEC.SRC, ENC.OUT) holds at an index nothing has written since the reset number
`epoch`: unspecified (R37, R160, U4). A free value; assumption log 1. -/
opaque unspecifiedByte : Space → (epoch addr : Nat) → Byte

/-- The same for a pixel space (DEC.DST, ENC.PIX). A free value; assumption log 1. -/
opaque unspecifiedPixel : Space → (epoch addr : Nat) → Pixel

/-- What the host reads from ENC.OUT before it has observed DONE: any value (R50, U6).
A free value, drawn by number; assumption log 8. -/
opaque earlyByte : (draw : Nat) → Byte

/-- What the host reads from DEC.DST before it has observed DONE: any value (R50, U6).
A free value, drawn by number; assumption log 8. -/
opaque earlyPixel : (draw : Nat) → Pixel

/-- Which of the values a progress register held between START and the read it shows (R132, U8).
A free value, drawn by number; assumption log 7. -/
opaque progress : (draw : Nat) → Nat

end Config

/-- The parameters the spec leaves open as model arguments (R6, D14; R52 and R164 item 3 for the sharing of
storage). No step changes them. -/
structure Caps where
  /-- `SRC_CAP`, in bytes. -/
  srcCap : Nat
  /-- `DST_CAP`, in pixels. -/
  dstCap : Nat
  /-- `PIX_CAP`, in pixels. -/
  pixCap : Nat
  /-- `OUT_CAP`, in bytes. -/
  outCap : Nat
  /-- The lowest index of DEC.SRC whose storage the platform shares with DEC.DST; `none` where it shares none.
  Assumption log 4. -/
  srcShared : Option Nat
  /-- The lowest index of ENC.PIX whose storage the platform shares with ENC.OUT; `none` where it shares none.
  Assumption log 4. -/
  pixShared : Option Nat
deriving DecidableEq, Repr

/-- The largest number a 64-bit register holds: `2^64 − 1` (R16, R27). -/
def Config.maxCount : Nat := 2 ^ 64 - 1

/-- The capacities of the reset state: as large as the registers can use, nothing shared.
DESIGN CHOICE, assumption logs 3 and 4. -/
def Caps.widest : Caps :=
  { srcCap := Config.maxCount, dstCap := Config.maxCount, pixCap := Config.maxCount, outCap := Config.maxCount,
    srcShared := none, pixShared := none }

end Sys2Proof
end

