-- ==== Sys2Proof/Syntax.lean ====
section
/-! DEFINITION. The instructions: one constructor per row of spec/opcode_table.json.

RUN and LIT are the groups of an encoded block (spec/30_encoding.md R60); DEC.START and ENC.START are the host's
commands (spec/42_host_commands.md R130, R131). -/

namespace Sys2Proof

/-- An instruction of the block, with its operands as the spec names them (R73, R130, R131). -/
inductive Instr where
  /-- RUN: `len` copies of one sample (R63, R82). -/
  | run (len : Nat) (px : Pixel)
  /-- LIT: one pixel per sample (R64, R83). The length is the number of samples. -/
  | lit (samples : List Pixel)
  /-- DEC.START: a host write of a value with bit 0 set to `DEC_CTRL` (R130). It has no operand of its own. -/
  | decStart
  /-- ENC.START: a host write of a value with bit 0 set to `ENC_CTRL` (R131). It has no operand of its own. -/
  | encStart
deriving DecidableEq, Repr

/-- The length of a group in pixels (R61); the commands are no groups. -/
def Instr.pixels : Instr → Nat
  | .run len _ => len
  | .lit samples => samples.length
  | .decStart => 0
  | .encStart => 0

/-- Is it a group of the encoded block (R60)? -/
def Instr.isGroup : Instr → Bool
  | .run _ _ => true
  | .lit _ => true
  | .decStart => false
  | .encStart => false

end Sys2Proof
end

