-- ==== Sys2Proof/WellFormed.lean ====
section
/-! DEFINITION. Which instructions have an encoding: the length of a group is 1 to 128
(spec/30_encoding.md R62, R73). -/

namespace Sys2Proof

/-- A group length the 7-bit field can hold (R62: "lies in 1 to 128 inclusive, and is never 0"). -/
def lengthOk (len : Nat) : Bool := decide (1 ≤ len) && decide (len ≤ Config.maxGroup)

/-- The well-formed instructions: every group length in 1 to 128; the commands have no operand to check. -/
def Instr.wf : Instr → Bool
  | .run len _ => lengthOk len
  | .lit samples => lengthOk samples.length
  | .decStart => true
  | .encStart => true

end Sys2Proof
end

