-- ==== Sys2Proof/Decode.lean ====
section
/-! DEFINITION. From bits to instructions and back: the control byte, the sample, the groups of a byte stream, the
host's writes to a control register; then the encoder, written from the same tables.

spec/30_encoding.md R60 to R68, R73; spec/10_state.md R13, R25; spec/40_decode.md R85 to R87 for the names under which
an incomplete group is rejected. -/

namespace Sys2Proof

/-! ## The control byte (R61, R62, R66) -/

/-- Field `F`, bit 7 of the control byte: 1 for a RUN, 0 for a LIT (R61). -/
def runFlag (c : Byte) : Bool := c.getLsbD 7

/-- Field `LM1`, bits 6 to 0: the length minus one (R61). -/
def lm1 (c : Byte) : BitVec 7 := c.extractLsb' 0 7

/-- `len = zext_8(c[6:0]) + 1` (R62). -/
def groupLen (c : Byte) : Nat := (lm1 c).toNat + 1

/-- `glen(c)`, the length of the whole group in bytes, told by its control byte alone (R66). -/
def groupBytes (c : Byte) : Nat := if runFlag c then 4 else 1 + 3 * groupLen c

/-! ## Samples (R42, R65) -/

/-- The pixel that three bytes at ascending addresses denote: blue, green, red (R65). -/
def sampleOf (b g r : Byte) : Pixel := ⟨r, g, b⟩

/-- The three bytes of a sample in stream order (R42). -/
def sampleBytes (p : Pixel) : List Byte := [p.b, p.g, p.r]

/-- The first `n` samples of a byte list and what follows them; `none` where fewer bytes are there. -/
def takeSamples : Nat → List Byte → Option (List Pixel × List Byte)
  | 0, bs => some ([], bs)
  | n + 1, b :: g :: r :: bs =>
    match takeSamples n bs with
    | some (ps, rest) => some (sampleOf b g r :: ps, rest)
    | none => none
  | _ + 1, _ => none

/-! ## Decoding -/

/-- What reaches a unit as an instruction: the bytes of the block from the cursor on (for DEC, R60), or a host
write to a unit's control register (R13, R25). -/
inductive Fetched where
  | stream (bytes : List Byte)
  | ctrlWrite (u : UnitId) (v : Word32)
deriving DecidableEq, Repr

/-- Why bits are no instruction. No control byte is illegal (R68): what can be missing is payload, and each case
is a stop cause of the decoder (R141). -/
inductive Reject where
  /-- No byte is left to serve as a control byte: stop cause EOB (R85). -/
  | endOfBlock
  /-- A run control byte with fewer than 3 bytes after it: stop cause SHORT_RUN (R86). -/
  | shortRun
  /-- A literal control byte with fewer than `3 × len` bytes after it: stop cause SHORT_LIT (R87). -/
  | shortLit
  /-- A control-register write with bit 0 clear: it "does nothing" (R13, R25). -/
  | noCommand
deriving DecidableEq, Repr

/-- The decoder's answer: an instruction and the bytes after it, or a rejection by name. -/
inductive Decoded where
  | instr (i : Instr) (rest : List Byte)
  | reject (r : Reject)
deriving DecidableEq, Repr

/-- One group of a byte stream (R63, R64, R66). -/
def decodeGroup : List Byte → Decoded
  | [] => .reject .endOfBlock
  | c :: bs =>
    if runFlag c then
      match bs with
      | b :: g :: r :: rest => .instr (.run (groupLen c) (sampleOf b g r)) rest
      | _ => .reject .shortRun
    else
      match takeSamples (groupLen c) bs with
      | some (ps, rest) => .instr (.lit ps) rest
      | none => .reject .shortLit

/-- The START command of a unit (R130, R131). -/
def startOf : UnitId → Instr
  | .dec => .decStart
  | .enc => .encStart

/-- A host write to a control register: only bit 0 counts (R13, R25). -/
def decodeCtrl (u : UnitId) (v : Word32) : Decoded :=
  if v.getLsbD 0 then .instr (startOf u) [] else .reject .noCommand

/-- The decoder, total on everything that can be fetched. -/
def decode : Fetched → Decoded
  | .stream bytes => decodeGroup bytes
  | .ctrlWrite u v => decodeCtrl u v

/-! ## Encoding -/

/-- The bytes of a group: the control byte, then the samples in B, G, R order (R63, R64, R73). The commands are
not part of the stream. -/
def encodeGroup : Instr → List Byte
  | .run len px => (0x80#8 ||| BitVec.ofNat 8 (len - 1)) :: sampleBytes px
  | .lit samples => BitVec.ofNat 8 (samples.length - 1) :: samples.flatMap sampleBytes
  | .decStart => []
  | .encStart => []

/-- The words of an instruction. A START is written as `0x00000001`, the value software must write (U9);
assumption log 18. -/
def encode : Instr → Fetched
  | .run len px => .stream (encodeGroup (.run len px))
  | .lit samples => .stream (encodeGroup (.lit samples))
  | .decStart => .ctrlWrite .dec 1#32
  | .encStart => .ctrlWrite .enc 1#32

/-! ## Table words

The opcode table mixes two streams: the groups, whose bits are numbered from the control byte on, and the 32-bit
writes to a control register. One number stands for both; assumption log 10 says how it is told apart. -/

/-- Byte `k` of a table word of `nbits` bits; bits at or above `nbits` are 0. -/
def tableByte (nbits w k : Nat) : Byte := BitVec.ofNat 8 ((w % 2 ^ nbits) >>> (8 * k))

/-- The bytes of the group a table word opens, as many as its control byte says (R66). -/
def tableBytes (nbits w : Nat) : List Byte :=
  (List.range' 0 (groupBytes (tableByte nbits w 0))).map (tableByte nbits w)

/-- Is the table word the START write `0x00000001`? -/
def tableIsStart (nbits w : Nat) : Bool := w % 2 ^ nbits == 1

/-- The fetched form of a table word (assumption log 10): the value 1 is the write `0x00000001` of the table's
START rows (their words are the same, so DEC.START stands for both), every other word opens a group. -/
def tableFetched (nbits w : Nat) : Fetched :=
  if tableIsStart nbits w then .ctrlWrite .dec 1#32 else .stream (tableBytes nbits w)

/-- The instruction the decoder reads from a table word. -/
def decodeTableWord (nbits w : Nat) : Option Instr :=
  match decode (tableFetched nbits w) with
  | .instr i _ => some i
  | .reject _ => none

end Sys2Proof
end

