-- ==== Sys2Proof/Machine/State.lean ====
section
/-! DEFINITION. The state of the block, plain data: unit DEC (spec/10_state.md R11), unit ENC (R23), the four memory
spaces (spec/20_memory.md R40), the capacities (R6), and the model's own fields; the reasons a step can stop; the
state after reset (R37, R160). -/

namespace Sys2Proof.Machine

/-! ## Control states and registers -/

/-- The phases of unit DEC (R20). -/
inductive DecPhase where
  | idle
  | fetch
  | run
  | lit
  | pad
  | done
deriving DecidableEq, Repr

/-- The stop causes of the decoder (R14, R141; U9: exactly five). -/
inductive Stop where
  | none
  | count
  | eob
  | shortRun
  | shortLit
deriving DecidableEq, Repr

/-- The phases of unit ENC (R29). -/
inductive EncPhase where
  | idle
  | group
  | done
deriving DecidableEq, Repr

/-- The host-visible registers of unit DEC (R12). -/
inductive DecReg where
  | ctrl
  | status
  | w
  | h
  | len
  | pos
  | cnt
deriving DecidableEq, Repr

/-- The host-visible registers of unit ENC (R24). -/
inductive EncReg where
  | ctrl
  | status
  | n
  | i
  | olen
deriving DecidableEq, Repr

/-! ## The host's accesses and the agenda -/

/-- What the host can do to the block (R132, R167, R160; nothing else, R133). A register write carries 64 bits, of
which a 32-bit register takes the low 32 (assumption log 13). -/
inductive HostOp where
  | writeDec (r : DecReg) (v : Word64)
  | writeEnc (r : EncReg) (v : Word64)
  | readDec (r : DecReg)
  | readEnc (r : EncReg)
  | writeSrc (a : Nat) (v : Byte)
  | writeDst (k : Nat) (v : Pixel)
  | writePix (k : Nat) (v : Pixel)
  | writeOut (a : Nat) (v : Byte)
  | readSrc (a : Nat)
  | readDst (k : Nat)
  | readPix (k : Nat)
  | readOut (a : Nat)
  | reset
deriving DecidableEq, Repr

/-- One turn of one agent (R10): a step of DEC, a step of ENC, or one access of the host. -/
inductive Event where
  | decTurn
  | encTurn
  | host (op : HostOp)
deriving DecidableEq, Repr

/-- What the last host read returned (R132, R40). -/
inductive Reply where
  | nothing
  | word (v : Word64)
  | byte (v : Byte)
  | pixel (v : Pixel)
deriving DecidableEq, Repr

/-! ## Memory -/

/-- A memory space: what has been written since reset, by index, in rising order. An index that is not listed holds
the unspecified value of U4 (assumption logs 1 and 2). A byte space is a list of `Host.Cell`. -/
abbrev Memory (α : Type) := List (Nat × α)

/-! ## The units -/

/-- Unit DEC (R11 to R20). -/
structure Dec where
  /-- `phase` (R20). -/
  phase : DecPhase
  /-- The stop-cause latch behind `DEC_STATUS.STOP` (R14). -/
  stop : Stop
  /-- `DEC_W` (R15). -/
  w : Word32
  /-- `DEC_H` (R15). -/
  h : Word32
  /-- `DEC_LEN` (R16). -/
  len : Word64
  /-- `DEC_POS`, the decoder's program counter (R17, R31). -/
  pos : Word64
  /-- `DEC_CNT` (R18). -/
  cnt : Word64
  /-- `rem`, internal (R19). -/
  rem : BitVec 8
  /-- `smp`, internal (R19). -/
  smp : Pixel
  /-- DEC.SRC (R40). -/
  src : Memory Byte
  /-- DEC.DST (R40). -/
  dst : Memory Pixel
  /-- The model's own: started, and DONE not yet observed by the host (R164; assumption log 6). -/
  inFlight : Bool
  /-- The model's own: `DEC_LEN` as the last START found it, so that `SRC[0..lenAtStart)` is that operation's input (R130,
  R164 item 1; assumption log 22). -/
  lenAtStart : Word64
  /-- The model's own: the value of `DEC_POS` last returned since START (U8; assumption log 7). -/
  posSeen : Word64
  /-- The model's own: the value of `DEC_CNT` last returned since START (U8; assumption log 7). -/
  cntSeen : Word64
  /-- The model's own: the values `DEC_POS` has held since START before its present one, latest first (R132, U8;
  assumption log 7). -/
  posHeld : List Word64
  /-- The model's own: the same for `DEC_CNT`. -/
  cntHeld : List Word64
deriving DecidableEq, Repr

/-- Unit ENC (R23 to R29). -/
structure Enc where
  /-- `phase` (R29). -/
  phase : EncPhase
  /-- `ENC_N` (R27). -/
  n : Word64
  /-- `ENC_I`, the encoder's program counter (R28, R31). -/
  i : Word64
  /-- `ENC_OLEN` (R28). -/
  olen : Word64
  /-- ENC.PIX (R40). -/
  pix : Memory Pixel
  /-- ENC.OUT (R40). -/
  out : Memory Byte
  /-- The model's own: started, and DONE not yet observed by the host (R164; assumption log 6). -/
  inFlight : Bool
  /-- The model's own: `ENC_N` as the last START found it, so that `PIX[0..nAtStart)` is that operation's input (R131,
  R164 item 1; assumption log 22). -/
  nAtStart : Word64
  /-- The model's own: the value of `ENC_I` last returned since START (U8; assumption log 7). -/
  iSeen : Word64
  /-- The model's own: the value of `ENC_OLEN` last returned since START (U8; assumption log 7). -/
  olenSeen : Word64
  /-- The model's own: the values `ENC_I` has held since START before its present one, latest first (R132, U8;
  assumption log 7). -/
  iHeld : List Word64
  /-- The model's own: the same for `ENC_OLEN`. -/
  olenHeld : List Word64
deriving DecidableEq, Repr

/-- The whole block. -/
structure State where
  /-- Unit DEC. -/
  dec : Dec
  /-- Unit ENC. -/
  enc : Enc
  /-- The capacities and the sharing of storage (R6): configuration, changed by no step. -/
  caps : Caps
  /-- The model's own: the turns still to come (R10, R165; assumption log 5). -/
  agenda : List Event
  /-- The model's own: what the last host read returned (assumption log 15). -/
  reply : Reply
  /-- The model's own: how many free values have been drawn (assumption logs 7 and 8). -/
  draws : Nat
  /-- The model's own: how many resets have been applied (assumption logs 1 and 14). -/
  epoch : Nat
deriving DecidableEq, Repr

/-! ## Why a step can stop -/

/-- The block raises no exception of any kind (R140): there is no fault. -/
inductive Fault where
deriving DecidableEq, Repr

/-- The situations the spec gives no meaning (R164, R167, U7: "`refuse`: the run has no meaning"). Each is safe: the
model says nothing where an implementation does something (D18). -/
inductive Refusal where
  /-- An instruction with no meaning yet. Raised by no arm of `exec`. -/
  | notModelled (mnemonic : String)
  /-- The host wrote DEC.SRC or ENC.PIX while the unit was BUSY (R167, U7), or the operation's input between START and the
  observation of DONE (R164 item 1). Raised by a host write of an input space. -/
  | inputNotStable
  /-- The host wrote DEC.DST or ENC.OUT between START and the observation of DONE (R164 item 2). Raised by a host
  write of an output space. -/
  | outputNotPrivate
  /-- An operation was started whose output space shares storage with its input (R164 item 3, R52). Raised by the
  two START commands. -/
  | spacesOverlap
  /-- An operation was started that exceeds a capacity (R164 item 4). Raised by the two START commands. -/
  | capacityExceeded
  /-- The host named an index at or past a space's capacity (R40: "valid indices"). Raised by the host's element
  reads and writes; assumption log 13. -/
  | noSuchElement
deriving DecidableEq, Repr

/-! ## Reset -/

/-- Unit DEC after reset (R37, R160). -/
def Dec.reset : Dec :=
  { phase := .idle, stop := .none, w := 0, h := 0, len := 0, pos := 0, cnt := 0, rem := 0, smp := Pixel.black,
    src := [], dst := [], inFlight := false, lenAtStart := 0, posSeen := 0, cntSeen := 0, posHeld := [], cntHeld := [] }

/-- Unit ENC after reset (R37, R160). -/
def Enc.reset : Enc :=
  { phase := .idle, n := 0, i := 0, olen := 0, pix := [], out := [], inFlight := false, nAtStart := 0, iSeen := 0,
    olenSeen := 0, iHeld := [], olenHeld := [] }

/-- The block right after reset (R37, R160): both units IDLE, every register 0, every space unspecified. The model's
own fields and the capacities are DESIGN CHOICES (assumption logs 3 to 8, 14, 15). -/
def State.reset : State :=
  { dec := Dec.reset, enc := Enc.reset, caps := Caps.widest, agenda := [], reply := .nothing, draws := 0, epoch := 0 }

end Sys2Proof.Machine
end

