-- ==== Sys2Proof/Machine/Ops.lean ====
section
/-! DEFINITION. The named operations over memory and registers: reading and writing a space, the pixel count `N`,
writing one pixel of DST, the decoder's stop (the counterpart of taking an exception, spec/60_exceptions.md R145),
the block's reset (spec/70_reset_and_hazards.md R160, R161). -/

namespace Sys2Proof.Machine

/-! ## Memory spaces in canonical form -/

/-- What an index holds: the element last written, or nothing where nothing has been written since reset. -/
def Memory.read {α : Type} : Memory α → Nat → Option α
  | [], _ => none
  | (a, x) :: m, k => if k = a then some x else if k < a then none else Memory.read m k

/-- Write one element, keeping the indices strictly rising. -/
def Memory.write {α : Type} : Memory α → Nat → α → Memory α
  | [], k, v => [(k, v)]
  | (a, x) :: m, k, v =>
    if k < a then (k, v) :: (a, x) :: m
    else if k = a then (k, v) :: m
    else (a, x) :: Memory.write m k v

/-- `MemWrite(SPACE, a, n, v)`: consecutive elements at ascending indices (R8). -/
def Memory.writeList {α : Type} : Memory α → Nat → List α → Memory α
  | m, _, [] => m
  | m, a, v :: vs => Memory.writeList (Memory.write m a v) (a + 1) vs

/-- Is every index of the list above `lo`? -/
def Memory.above {α : Type} (lo : Nat) : Memory α → Bool
  | [] => true
  | (a, _) :: m => decide (lo < a) && Memory.above lo m

/-- Is every listed index below the capacity (R40: "valid indices")? -/
def Memory.below {α : Type} (cap : Nat) : Memory α → Bool
  | [] => true
  | (a, _) :: m => decide (a < cap) && Memory.below cap m

/-- The canonical form: indices strictly rising. An entry always holds an element, and an unlisted index reads as
nothing, so no entry equals what an unlisted index reads as (assumption log 2). -/
def Memory.wf {α : Type} : Memory α → Bool
  | [] => true
  | (a, _) :: m => Memory.above a m && Memory.wf m

/-! ## Elements as the agents see them (R45: plain storage; U4 where nothing was written) -/

/-- `SRC[a]`. -/
def State.srcByte (s : State) (a : Nat) : Byte :=
  (s.dec.src.read a).getD (Config.unspecifiedByte .src s.epoch a)

/-- `DST[k]`. -/
def State.dstPixel (s : State) (k : Nat) : Pixel :=
  (s.dec.dst.read k).getD (Config.unspecifiedPixel .dst s.epoch k)

/-- `PIX[k]`. -/
def State.pixPixel (s : State) (k : Nat) : Pixel :=
  (s.enc.pix.read k).getD (Config.unspecifiedPixel .pix s.epoch k)

/-- `OUT[a]`. -/
def State.outByte (s : State) (a : Nat) : Byte :=
  (s.enc.out.read a).getD (Config.unspecifiedByte .out s.epoch a)

/-- `SRC[a..a + n)` (R8 `MemRead`). -/
def State.srcBytes (s : State) (a n : Nat) : List Byte := (List.range' a n).map s.srcByte

/-- `DST[0..n)` (R8 `MemRead`). -/
def State.dstPixels (s : State) (n : Nat) : List Pixel := (List.range' 0 n).map s.dstPixel

/-- `PIX[0..n)` (R8 `MemRead`). -/
def State.pixPixels (s : State) (n : Nat) : List Pixel := (List.range' 0 n).map s.pixPixel

/-- `OUT[0..n)` (R8 `MemRead`). -/
def State.outBytes (s : State) (n : Nat) : List Byte := (List.range' 0 n).map s.outByte

/-! ## Unit DEC -/

/-- `N = DEC_W × DEC_H`, a natural number, so that it never wraps (R15). -/
def Dec.total (d : Dec) : Nat := d.w.toNat * d.h.toNat

/-- Advance `DEC_POS` by `n` bytes (R17); the value left is one the register has held (assumption log 7). -/
def Dec.advance (n : Word64) (d : Dec) : Dec := { d with pos := d.pos + n, posHeld := d.pos :: d.posHeld }

/-- Write `DST[DEC_CNT]` and count it (R18, R92 to R94); the count left is one the register has held. -/
def Dec.emit (px : Pixel) (d : Dec) : Dec :=
  { d with dst := d.dst.write d.cnt.toNat px, cnt := d.cnt + 1, cntHeld := d.cnt :: d.cntHeld }

/-- A pixel of a group has been emitted: `rem` counts down; the group goes on, is finished, or has reached the
pixel count, which stops the loop with COUNT. `d` holds the registers from before the step, `d'` those after the
pixel (the common tail of R92 and R93). -/
def Dec.afterGroupPixel (d d' : Dec) : Dec :=
  if d.cnt.toNat + 1 = d.total then { d' with rem := d.rem - 1, stop := .count, phase := .done }
  else if d.rem - 1 = 0 then { d' with rem := d.rem - 1, phase := .fetch }
  else { d' with rem := d.rem - 1 }

/-- The decoder's stop short of `N` (R145): the one operation that plays the part of taking an exception. It writes
STOP and enters PAD; for the two SHORT causes the cursor has passed the control byte (`Dec.advance 1`). It saves nothing
else, and there is no return (R146). -/
def Dec.stopShort (cause : Stop) (d : Dec) : Dec := { d with stop := cause, phase := .pad }

/-! ## The block -/

/-- Replace unit DEC. -/
def State.setDec (s : State) (d : Dec) : State := { s with dec := d }

/-- Replace unit ENC. -/
def State.setEnc (s : State) (e : Enc) : State := { s with enc := e }

/-- Answer a host read. -/
def State.answer (s : State) (r : Reply) : State := { s with reply := r }

/-- Apply reset (R160, R161): both units IDLE with every register at its reset value, and the spaces unspecified
anew. The capacities belong to the machine and the agenda to its surroundings: both stay (assumption log 14). -/
def State.applyReset (s : State) : State :=
  { s with dec := Dec.reset, enc := Enc.reset, epoch := s.epoch + 1 }

end Sys2Proof.Machine
end

