-- ==== Sys2Proof/Machine/Flags.lean ====
section
/-! DEFINITION. The status values: BUSY, DONE and the STOP field (spec/10_state.md R14, R20, R26, R29, R33;
spec/60_exceptions.md R141). The block has no other flag. -/

namespace Sys2Proof.Machine

/-- `DEC_STATUS.BUSY`: 1 exactly in FETCH, RUN, LIT and PAD (R14, R20). -/
def Dec.busy (d : Dec) : Bool :=
  match d.phase with
  | .idle => false
  | .fetch => true
  | .run => true
  | .lit => true
  | .pad => true
  | .done => false

/-- `DEC_STATUS.DONE`: 1 exactly in DONE (R14, R20). -/
def Dec.isDone (d : Dec) : Bool :=
  match d.phase with
  | .idle => false
  | .fetch => false
  | .run => false
  | .lit => false
  | .pad => false
  | .done => true

/-- The code of a stop cause (R14, R141). -/
def Stop.code : Stop → BitVec 3
  | .none => 0
  | .count => 1
  | .eob => 2
  | .shortRun => 3
  | .shortLit => 4

/-- `DEC_STATUS`: bits 31:5 zero, 4:2 STOP, 1 DONE, 0 BUSY (R14). -/
def Dec.status (d : Dec) : Word32 :=
  0#27 ++ d.stop.code ++ BitVec.ofBool d.isDone ++ BitVec.ofBool d.busy

/-- `ENC_STATUS.BUSY`: 1 exactly in GROUP (R26, R29). -/
def Enc.busy (e : Enc) : Bool :=
  match e.phase with
  | .idle => false
  | .group => true
  | .done => false

/-- `ENC_STATUS.DONE`: 1 exactly in DONE (R26, R29). -/
def Enc.isDone (e : Enc) : Bool :=
  match e.phase with
  | .idle => false
  | .group => false
  | .done => true

/-- `ENC_STATUS`: bits 31:2 zero, 1 DONE, 0 BUSY (R26). -/
def Enc.status (e : Enc) : Word32 :=
  0#30 ++ BitVec.ofBool e.isDone ++ BitVec.ofBool e.busy

end Sys2Proof.Machine
end

