-- ==== Sys2Proof/Machine/Operands.lean ====
section
/-! DEFINITION. The operand forms. For DEC: the bytes from the cursor on, and the sample under the cursor
(spec/20_memory.md R42, R45). For ENC: the run count and the literal length at a pixel, and the group they give
(spec/41_encode.md R112 to R115). The packed view of a pixel (R41). -/

namespace Sys2Proof.Machine

/-! ## DEC -/

/-- The bytes of the block from the cursor on, as many as the longest group can have and never one at or past
`DEC_LEN` (R46; assumption log 21). -/
def State.groupWindow (s : State) : List Byte :=
  s.srcBytes s.dec.pos.toNat (min Config.maxGroupBytes (s.dec.len.toNat - s.dec.pos.toNat))

/-- The sample at three bytes of SRC from `a` on (R42). -/
def State.sampleAt (s : State) (a : Nat) : Pixel :=
  sampleOf (s.srcByte a) (s.srcByte (a + 1)) (s.srcByte (a + 2))

/-- The samples a literal under way has still to write: `rem` of them from the cursor on (R20, R31). -/
def State.samplesLeft (s : State) : List Pixel :=
  (List.range' 0 s.dec.rem.toNat).map (fun j => s.sampleAt (s.dec.pos.toNat + 3 * j))

/-! ## ENC: detection and formation over a pixel sequence given by its elements -/

/-- The inner loop of run detection, `fuel` rounds of it from the count `c` on (R111, R112). -/
def runCountFrom (pix : Nat → Pixel) (n i : Nat) : (fuel c : Nat) → Nat
  | 0, c => c
  | fuel + 1, c =>
    if c < Config.maxGroup ∧ i + c < n ∧ pix (i + c) = pix i then runCountFrom pix n i fuel (c + 1) else c

/-- The run count at pixel `i` of `n` (R112). -/
def runCount (pix : Nat → Pixel) (n i : Nat) : Nat := runCountFrom pix n i Config.maxGroup 1

/-- The inner loop of literal formation, `fuel` rounds of it from the length `l` on (R111, R114). -/
def litLengthFrom (pix : Nat → Pixel) (n i : Nat) : (fuel l : Nat) → Nat
  | 0, l => l
  | fuel + 1, l =>
    if l < Config.maxGroup ∧ i + l < n ∧ (pix (i + l) ≠ pix (i + l - 1) ∨ l = 1) then
      litLengthFrom pix n i fuel (l + 1)
    else l

/-- The literal length at pixel `i` of `n` (R114). -/
def litLength (pix : Nat → Pixel) (n i : Nat) : Nat := litLengthFrom pix n i Config.maxGroup 1

/-- The group the greedy pass forms at pixel `i` of `n`: a RUN where the count is at least 2, else a LIT (R113,
R115). -/
def groupAt (pix : Nat → Pixel) (n i : Nat) : Instr :=
  if 2 ≤ runCount pix n i then .run (runCount pix n i) (pix i)
  else .lit ((List.range' i (litLength pix n i)).map pix)

/-! ## The packed view (R41) -/

/-- `pix24 = (R << 16) | (G << 8) | B`. -/
def pix24 (p : Pixel) : BitVec 24 := p.r ++ p.g ++ p.b

/-- The pixel a packed view stands for. -/
def ofPix24 (v : BitVec 24) : Pixel := ⟨v.extractLsb' 16 8, v.extractLsb' 8 8, v.extractLsb' 0 8⟩

end Sys2Proof.Machine
end

