-- ==== Sys2Proof/Machine/Lit.lean ====
section
/-! DEFINITION. The group LIT as DEC executes it (spec/40_decode.md R83): the FETCH step that takes it up (R91 case 6) and
the LIT steps that read and write its samples (R93). -/

namespace Sys2Proof.Machine

/-- R91 case 6: the cursor passes the control byte, `len` samples are to be read. -/
def takeLit (len : Nat) (d : Dec) : Dec :=
  { d.advance 1 with rem := BitVec.ofNat 8 len, phase := .lit }

/-- R93: one sample, `px`, read under the cursor and written. -/
def litStep (px : Pixel) (d : Dec) : Dec :=
  d.afterGroupPixel ((d.emit px).advance 3)

/-- LIT (R83). At a group boundary it is taken up, its length going into `rem`; under way, it reads its next sample
under the cursor and writes it. In the other phases the decoder executes no LIT and nothing changes (R92, R94, R95;
assumption log 11). -/
def execLit (samples : List Pixel) (s : State) : Host.Outcome State Fault Refusal :=
  match s.dec.phase with
  | .idle => .next s
  | .fetch => .next (s.setDec (takeLit samples.length s.dec))
  | .run => .next s
  | .lit => .next (s.setDec (litStep (s.sampleAt s.dec.pos.toNat) s.dec))
  | .pad => .next s
  | .done => .next s

end Sys2Proof.Machine
end

