-- ==== Sys2Proof/Machine/Run.lean ====
section
/-! DEFINITION. The group RUN as DEC executes it (spec/40_decode.md R82): the FETCH step that takes it up (R91 case 4) and
the RUN steps that write its pixels (R92). -/

namespace Sys2Proof.Machine

/-- R91 case 4: the sample is held, the cursor passes the whole group, `len` pixels are to be written. -/
def takeRun (len : Nat) (px : Pixel) (d : Dec) : Dec :=
  { d.advance 4 with smp := px, rem := BitVec.ofNat 8 len, phase := .run }

/-- R92: one copy of the held sample. -/
def runStep (d : Dec) : Dec := d.afterGroupPixel (d.emit d.smp)

/-- RUN (R82). At a group boundary it is taken up, its operands going into `rem` and `smp`; under way, it writes its
next pixel out of them. In the other phases the decoder executes no RUN and nothing changes (R93 to R95; assumption
log 11). -/
def execRun (len : Nat) (px : Pixel) (s : State) : Host.Outcome State Fault Refusal :=
  match s.dec.phase with
  | .idle => .next s
  | .fetch => .next (s.setDec (takeRun len px s.dec))
  | .run => .next (s.setDec (runStep s.dec))
  | .lit => .next s
  | .pad => .next s
  | .done => .next s

end Sys2Proof.Machine
end

