-- ==== Sys2Proof/Machine/Start.lean ====
section
/-! DEFINITION. The commands DEC.START and ENC.START (spec/42_host_commands.md R130, R131) and the host duties an operation
rests on from its start (spec/70_reset_and_hazards.md R164 items 3 and 4, R52). -/

namespace Sys2Proof.Machine

/-- Does the storage from index `shared` on reach into the first `len` elements (R52)? -/
def reaches (shared : Option Nat) (len : Nat) : Bool :=
  match shared with
  | none => false
  | some a => decide (a < len)

/-- The duties of a decode: `DEC_LEN ≤ SRC_CAP` and `DEC_W × DEC_H ≤ DST_CAP` (R164 item 4). -/
def Dec.fits (caps : Caps) (d : Dec) : Bool :=
  decide (d.len.toNat ≤ caps.srcCap) && decide (d.total ≤ caps.dstCap)

/-- The duties of an encode: `ENC_N ≤ PIX_CAP` and `4 × ENC_N ≤ OUT_CAP ≤ 2^64 − 1` (R27, R164 item 4). -/
def Enc.fits (caps : Caps) (e : Enc) : Bool :=
  decide (e.n.toNat ≤ caps.pixCap) && decide (4 * e.n.toNat ≤ min caps.outCap Config.maxCount)

/-- R130, not BUSY: the working registers start anew, nothing else changes. -/
def Dec.start (d : Dec) : Dec :=
  { d with
    pos := 0, cnt := 0, rem := 0, stop := .none, phase := .fetch
    inFlight := true, lenAtStart := d.len, posSeen := 0, cntSeen := 0, posHeld := [], cntHeld := [] }

/-- R131, not BUSY. -/
def Enc.start (e : Enc) : Enc :=
  { e with
    i := 0, olen := 0, phase := .group
    inFlight := true, nAtStart := e.n, iSeen := 0, olenSeen := 0, iHeld := [], olenHeld := [] }

/-- DEC.START (R130): ignored while BUSY; otherwise it starts a decode, which has a meaning only where the host's
duties of overlap and capacity are kept (R164 items 3 and 4, R52). -/
def execDecStart (s : State) : Host.Outcome State Fault Refusal :=
  if s.dec.busy then .next s
  else if reaches s.caps.srcShared s.dec.len.toNat then .refused .spacesOverlap
  else if s.dec.fits s.caps then .next (s.setDec s.dec.start)
  else .refused .capacityExceeded

/-- ENC.START (R131), in the same way. -/
def execEncStart (s : State) : Host.Outcome State Fault Refusal :=
  if s.enc.busy then .next s
  else if reaches s.caps.pixShared s.enc.n.toNat then .refused .spacesOverlap
  else if s.enc.fits s.caps then .next (s.setEnc s.enc.start)
  else .refused .capacityExceeded

end Sys2Proof.Machine
end

