-- ==== Sys2Proof/Machine/Dispatch.lean ====
section
/-! DEFINITION. One arm per instruction. -/

namespace Sys2Proof.Machine

def exec (i : Instr) (s : State) : Host.Outcome State Fault Refusal :=
  match i with
  | .run len px => Sys2Proof.Machine.execRun len px s
  | .lit samples => Sys2Proof.Machine.execLit samples s
  | .decStart => Sys2Proof.Machine.execDecStart s
  | .encStart => Sys2Proof.Machine.execEncStart s

end Sys2Proof.Machine
end

