-- ==== Sys2Proof/Machine/HostAccess.lean ====
section
/-! DEFINITION. The host's accesses (spec/42_host_commands.md R130 to R133, spec/70_reset_and_hazards.md R160, R161, R164,
R167; register numbers of spec/10_state.md R12, R24). -/

namespace Sys2Proof.Machine

/-! ## Register numbers: `x[i]` (R8, R12, R24) -/

/-- The number of a register of unit DEC (R12). -/
def DecReg.number : DecReg → Nat
  | .ctrl => 0
  | .status => 1
  | .w => 2
  | .h => 3
  | .len => 4
  | .pos => 5
  | .cnt => 6

/-- The number of a register of unit ENC (R24). -/
def EncReg.number : EncReg → Nat
  | .ctrl => 0
  | .status => 1
  | .n => 2
  | .i => 3
  | .olen => 4

/-! ## Register writes (R132) -/

/-- A write to a control register is decoded; what it decodes to is executed, and a value with bit 0 clear "does
nothing" (R13, R25). -/
def writeCtrl (u : UnitId) (v : Word32) (s : State) : Host.Outcome State Fault Refusal :=
  match decode (.ctrlWrite u v) with
  | .instr i _ => exec i s
  | .reject _ => .next s

/-- A configuration write of DEC is stored unless the unit is BUSY (R12, R132). -/
def Dec.configure (d d' : Dec) : Dec := if d.busy then d else d'

/-- A configuration write of ENC is stored unless the unit is BUSY (R24, R132). -/
def Enc.configure (e e' : Enc) : Enc := if e.busy then e else e'

/-- A host write to a register of unit DEC (R132). -/
def writeDecReg (r : DecReg) (v : Word64) (s : State) : Host.Outcome State Fault Refusal :=
  match r with
  | .ctrl => writeCtrl .dec (v.setWidth 32) s
  | .status => .next s
  | .w => .next (s.setDec (s.dec.configure { s.dec with w := v.setWidth 32 }))
  | .h => .next (s.setDec (s.dec.configure { s.dec with h := v.setWidth 32 }))
  | .len => .next (s.setDec (s.dec.configure { s.dec with len := v }))
  | .pos => .next s
  | .cnt => .next s

/-- A host write to a register of unit ENC (R132). -/
def writeEncReg (r : EncReg) (v : Word64) (s : State) : Host.Outcome State Fault Refusal :=
  match r with
  | .ctrl => writeCtrl .enc (v.setWidth 32) s
  | .status => .next s
  | .n => .next (s.setEnc (s.enc.configure { s.enc with n := v }))
  | .i => .next s
  | .olen => .next s

/-! ## Register reads (R132, U8) -/

/-- The values a progress register may show while the unit is BUSY: those it has held since START, but for the ones below
the value last shown, so that successive reads never decrease; its present value among them (R132, U8). -/
def progressChoices (held : List Word64) (seen now : Word64) : List Word64 := now :: held.filter (seen ≤ ·)

/-- The value it shows: a free choice among these (assumption log 7). -/
def progressValue (draw : Nat) (held : List Word64) (seen now : Word64) : Word64 :=
  (progressChoices held seen now).getD (Config.progress draw % (progressChoices held seen now).length) now

/-- A register's present value, as it is read when the unit is not BUSY (R132; `DEC_CTRL` reads as 0, R13). -/
def Dec.regValue (d : Dec) : DecReg → Word64
  | .ctrl => 0
  | .status => d.status.setWidth 64
  | .w => d.w.setWidth 64
  | .h => d.h.setWidth 64
  | .len => d.len
  | .pos => d.pos
  | .cnt => d.cnt

/-- The same for unit ENC (`ENC_CTRL` reads as 0, R25). -/
def Enc.regValue (e : Enc) : EncReg → Word64
  | .ctrl => 0
  | .status => e.status.setWidth 64
  | .n => e.n
  | .i => e.i
  | .olen => e.olen

/-- The host has read `DEC_STATUS`: if it read DONE = 1, the operation's result is its own from now on (R50, R164). -/
def Dec.statusRead (d : Dec) : Dec := if d.isDone then { d with inFlight := false } else d

/-- The same for `ENC_STATUS`. -/
def Enc.statusRead (e : Enc) : Enc := if e.isDone then { e with inFlight := false } else e

/-- A host read of `DEC_POS`. -/
def readDecPos (s : State) : State :=
  if s.dec.busy then
    let v := progressValue s.draws s.dec.posHeld s.dec.posSeen s.dec.pos
    { s with dec := { s.dec with posSeen := v }, draws := s.draws + 1, reply := .word v }
  else s.answer (.word s.dec.pos)

/-- A host read of `DEC_CNT`. -/
def readDecCnt (s : State) : State :=
  if s.dec.busy then
    let v := progressValue s.draws s.dec.cntHeld s.dec.cntSeen s.dec.cnt
    { s with dec := { s.dec with cntSeen := v }, draws := s.draws + 1, reply := .word v }
  else s.answer (.word s.dec.cnt)

/-- A host read of `ENC_I`. -/
def readEncI (s : State) : State :=
  if s.enc.busy then
    let v := progressValue s.draws s.enc.iHeld s.enc.iSeen s.enc.i
    { s with enc := { s.enc with iSeen := v }, draws := s.draws + 1, reply := .word v }
  else s.answer (.word s.enc.i)

/-- A host read of `ENC_OLEN`. -/
def readEncOlen (s : State) : State :=
  if s.enc.busy then
    let v := progressValue s.draws s.enc.olenHeld s.enc.olenSeen s.enc.olen
    { s with enc := { s.enc with olenSeen := v }, draws := s.draws + 1, reply := .word v }
  else s.answer (.word s.enc.olen)

/-- A host read of a register of unit DEC (R132). -/
def readDecReg (r : DecReg) (s : State) : State :=
  match r with
  | .ctrl => s.answer (.word (s.dec.regValue .ctrl))
  | .status => (s.setDec s.dec.statusRead).answer (.word (s.dec.regValue .status))
  | .w => s.answer (.word (s.dec.regValue .w))
  | .h => s.answer (.word (s.dec.regValue .h))
  | .len => s.answer (.word (s.dec.regValue .len))
  | .pos => readDecPos s
  | .cnt => readDecCnt s

/-- A host read of a register of unit ENC (R132). -/
def readEncReg (r : EncReg) (s : State) : State :=
  match r with
  | .ctrl => s.answer (.word (s.enc.regValue .ctrl))
  | .status => (s.setEnc s.enc.statusRead).answer (.word (s.enc.regValue .status))
  | .n => s.answer (.word (s.enc.regValue .n))
  | .i => readEncI s
  | .olen => readEncOlen s

/-! ## The spaces (R40, R45, R164 items 1 and 2, R167) -/

/-- Must the host leave `SRC[a]` alone? All of SRC while DEC is BUSY (R50, R167, U7), and the operation's input from START
until DONE is observed (R164 item 1; assumption log 22). -/
def Dec.inputHeld (a : Nat) (d : Dec) : Bool := d.busy || d.inFlight && decide (a < d.lenAtStart.toNat)

/-- Must the host leave `PIX[k]` alone? -/
def Enc.inputHeld (k : Nat) (e : Enc) : Bool := e.busy || e.inFlight && decide (k < e.nAtStart.toNat)

/-- A host write of DEC.SRC, where the host's duty allows it (R164 item 1, R167). -/
def hostWriteSrc (a : Nat) (v : Byte) (s : State) : Host.Outcome State Fault Refusal :=
  if s.caps.srcCap ≤ a then .refused .noSuchElement
  else if s.dec.inputHeld a then .refused .inputNotStable
  else .next (s.setDec { s.dec with src := s.dec.src.write a v })

/-- A host write of DEC.DST: not between START and the observation of DONE (R164 item 2; assumption log 20). -/
def hostWriteDst (k : Nat) (v : Pixel) (s : State) : Host.Outcome State Fault Refusal :=
  if s.caps.dstCap ≤ k then .refused .noSuchElement
  else if s.dec.inFlight then .refused .outputNotPrivate
  else .next (s.setDec { s.dec with dst := s.dec.dst.write k v })

/-- A host write of ENC.PIX, where the host's duty allows it (R164 item 1, R167). -/
def hostWritePix (k : Nat) (v : Pixel) (s : State) : Host.Outcome State Fault Refusal :=
  if s.caps.pixCap ≤ k then .refused .noSuchElement
  else if s.enc.inputHeld k then .refused .inputNotStable
  else .next (s.setEnc { s.enc with pix := s.enc.pix.write k v })

/-- A host write of ENC.OUT: not between START and the observation of DONE (R164 item 2; assumption log 20). -/
def hostWriteOut (a : Nat) (v : Byte) (s : State) : Host.Outcome State Fault Refusal :=
  if s.caps.outCap ≤ a then .refused .noSuchElement
  else if s.enc.inFlight then .refused .outputNotPrivate
  else .next (s.setEnc { s.enc with out := s.enc.out.write a v })

/-- A host read of DEC.SRC, any time (R40). -/
def hostReadSrc (a : Nat) (s : State) : Host.Outcome State Fault Refusal :=
  if s.caps.srcCap ≤ a then .refused .noSuchElement else .next (s.answer (.byte (s.srcByte a)))

/-- A host read of DEC.DST: before DONE is observed, any value (R50, U6; assumption log 8). -/
def hostReadDst (k : Nat) (s : State) : Host.Outcome State Fault Refusal :=
  if s.caps.dstCap ≤ k then .refused .noSuchElement
  else if s.dec.inFlight then
    .next { s with draws := s.draws + 1, reply := .pixel (Config.earlyPixel s.draws) }
  else .next (s.answer (.pixel (s.dstPixel k)))

/-- A host read of ENC.PIX, any time (R40). -/
def hostReadPix (k : Nat) (s : State) : Host.Outcome State Fault Refusal :=
  if s.caps.pixCap ≤ k then .refused .noSuchElement else .next (s.answer (.pixel (s.pixPixel k)))

/-- A host read of ENC.OUT: before DONE is observed, any value (R50, U6; assumption log 8). -/
def hostReadOut (a : Nat) (s : State) : Host.Outcome State Fault Refusal :=
  if s.caps.outCap ≤ a then .refused .noSuchElement
  else if s.enc.inFlight then
    .next { s with draws := s.draws + 1, reply := .byte (Config.earlyByte s.draws) }
  else .next (s.answer (.byte (s.outByte a)))

/-- One access of the host. -/
def hostTurn (op : HostOp) (s : State) : Host.Outcome State Fault Refusal :=
  match op with
  | .writeDec r v => writeDecReg r v s
  | .writeEnc r v => writeEncReg r v s
  | .readDec r => .next (readDecReg r s)
  | .readEnc r => .next (readEncReg r s)
  | .writeSrc a v => hostWriteSrc a v s
  | .writeDst k v => hostWriteDst k v s
  | .writePix k v => hostWritePix k v s
  | .writeOut a v => hostWriteOut a v s
  | .readSrc a => hostReadSrc a s
  | .readDst k => hostReadDst k s
  | .readPix k => hostReadPix k s
  | .readOut a => hostReadOut a s
  | .reset => .next s.applyReset

end Sys2Proof.Machine
end

