-- ==== Sys2Proof/Machine/Emit.lean ====
section
/-! DEFINITION. The GROUP step of ENC (spec/41_encode.md R121): detection, formation and emission of one whole group, RUN
(R113) or LIT (R115), or the end of the encode. -/

namespace Sys2Proof.Machine

/-- The group the next GROUP step emits (R121). -/
def State.nextGroup (s : State) : Instr := groupAt s.pixPixel s.enc.n.toNat s.enc.i.toNat

/-- Emit a group: its bytes at `OUT[ENC_OLEN..)`, control byte first, and both cursors advanced (R113, R115); the values they
leave are ones the registers have held (assumption log 7). -/
def Enc.emitGroup (g : Instr) (e : Enc) : Enc :=
  { e with
    out := e.out.writeList e.olen.toNat (encodeGroup g)
    olen := e.olen + BitVec.ofNat 64 (encodeGroup g).length
    i := e.i + BitVec.ofNat 64 g.pixels
    olenHeld := e.olen :: e.olenHeld
    iHeld := e.i :: e.iHeld }

/-- R121. -/
def groupStep (s : State) : State :=
  if s.enc.i = s.enc.n then s.setEnc { s.enc with phase := .done }
  else s.setEnc (s.enc.emitGroup s.nextGroup)

end Sys2Proof.Machine
end

