-- ==== Sys2Proof/Machine/Turn.lean ====
section
/-! DEFINITION. The turns of the two units: one step each (spec/40_decode.md R90 to R95, spec/41_encode.md R120, R121). -/

namespace Sys2Proof.Machine

/-- The FETCH step (R91). The pixel count is tested first (case 1); then the bytes from the cursor on are decoded: an
instruction is executed (cases 4 and 6), a rejection is a stop (cases 2, 3 and 5). -/
def fetchTurn (s : State) : Host.Outcome State Fault Refusal :=
  if s.dec.cnt.toNat = s.dec.total then .next (s.setDec { s.dec with stop := .count, phase := .done })
  else
    match decode (.stream s.groupWindow) with
    | .instr i _ => exec i s
    | .reject .endOfBlock => .next (s.setDec (s.dec.stopShort .eob))
    | .reject .shortRun => .next (s.setDec ((s.dec.advance 1).stopShort .shortRun))
    | .reject .shortLit => .next (s.setDec ((s.dec.advance 1).stopShort .shortLit))
    | .reject .noCommand => .next s

/-- R94: one BLACK pixel, and DONE where it was pixel number `N`. -/
def padStep (d : Dec) : Dec :=
  if d.cnt.toNat + 1 = d.total then { d.emit Pixel.black with phase := .done } else d.emit Pixel.black

/-- One step of unit DEC. In RUN and LIT the group under way is the instruction, its operands held in `rem` and `smp`
or lying under the cursor (R92, R93). In IDLE and DONE the unit has no step (R95). -/
def decTurn (s : State) : Host.Outcome State Fault Refusal :=
  match s.dec.phase with
  | .idle => .next s
  | .fetch => fetchTurn s
  | .run => exec (.run s.dec.rem.toNat s.dec.smp) s
  | .lit => exec (.lit s.samplesLeft) s
  | .pad => .next (s.setDec (padStep s.dec))
  | .done => .next s

/-- One step of unit ENC. In IDLE and DONE the unit has no step (R120). -/
def encTurn (s : State) : Host.Outcome State Fault Refusal :=
  match s.enc.phase with
  | .idle => .next s
  | .group => .next (groupStep s)
  | .done => .next s

end Sys2Proof.Machine
end

