-- ==== Sys2Proof/Machine/Schedule.lean ====
section
/-! DEFINITION. Whose turn it is (spec/10_state.md R10, spec/70_reset_and_hazards.md R165; assumption log 5), and how a table
word is laid where the next step fetches it (assumption log 10). -/

namespace Sys2Proof.Machine

/-- One turn of one agent. -/
def takeTurn (e : Event) (s : State) : Host.Outcome State Fault Refusal :=
  match e with
  | .decTurn => decTurn s
  | .encTurn => encTurn s
  | .host op => hostTurn op s

/-- With no turn on the agenda, a BUSY unit steps, DEC before ENC; with none BUSY, nothing happens (R160: "No unit
steps after reset until its START command"). -/
def idleTurn (s : State) : Host.Outcome State Fault Refusal :=
  if s.dec.busy then decTurn s else if s.enc.busy then encTurn s else .next s

/-- The next turn: the first of the agenda, or the default. -/
def nextTurn (s : State) : Host.Outcome State Fault Refusal :=
  match s.agenda with
  | [] => idleTurn s
  | e :: rest => takeTurn e { s with agenda := rest }

/-- A decoder at a group boundary with the bytes of a group under its cursor and pixels still wanted. -/
def Dec.placeGroup (bytes : List Byte) (d : Dec) : Dec :=
  let base := if d.pos.toNat + bytes.length ≤ Config.maxCount then d.pos else 0
  let d := if d.cnt.toNat < d.total then d else { d with cnt := 0, w := 1, h := 1 }
  { d with
    phase := .fetch
    pos := base
    len := BitVec.ofNat 64 (max d.len.toNat (base.toNat + bytes.length))
    src := d.src.writeList base.toNat bytes }

/-- The table word laid where the next step fetches it: a group under the decoder's cursor, a START as the host's
next access. -/
def State.placeWord (s : State) (nbits w : Nat) : State :=
  if tableIsStart nbits w then { s with agenda := .host (.writeDec .ctrl 1) :: s.agenda }
  else { s with dec := s.dec.placeGroup (tableBytes nbits w), agenda := .decTurn :: s.agenda }

end Sys2Proof.Machine
end

