-- ==== Sys2Proof/Machine/Reference.lean ====
section
/-! DEFINITION. The two functions of the source over sequences, the spec's first layer: `decode(block, width, height)`
(spec/40_decode.md R80 to R88) and `encode(pixels)` (spec/41_encode.md R110 to R115). The step rules do not use them; the
statements compare the two layers (R96, R122). -/

namespace Sys2Proof.Machine

/-- What a decode gives: the pixels, the cursor and the stop cause (R81). -/
structure DecodeResult where
  out : List Pixel
  pos : Nat
  cause : Stop
deriving DecidableEq, Repr

/-- The byte of a block at an address (every use lies inside the block). -/
def byteAt (block : List Byte) (a : Nat) : Byte := block.getD a 0

/-- The sample of a block at an address (R42). -/
def blockSample (block : List Byte) (a : Nat) : Pixel :=
  sampleOf (byteAt block a) (byteAt block (a + 1)) (byteAt block (a + 2))

/-- The decode loop of R81 from the cursor `pos` on, `out` being what it has produced; `fuel` bounds the iterations.
It ends by one of the four stops (R84 to R87) when there is fuel for one iteration per missing pixel and one more. -/
def decodeLoop (block : List Byte) (total : Nat) : (fuel : Nat) → (out : List Pixel) → (pos : Nat) → DecodeResult
  | 0, out, pos => ⟨out, pos, .none⟩
  | fuel + 1, out, pos =>
    if out.length = total then ⟨out, pos, .count⟩
    else if block.length ≤ pos then ⟨out, pos, .eob⟩
    else
      let c := byteAt block pos
      let len := groupLen c
      let avail := block.length - (pos + 1)
      let k := min len (total - out.length)
      if runFlag c then
        if avail < 3 then ⟨out, pos + 1, .shortRun⟩
        else decodeLoop block total fuel (out ++ List.replicate k (blockSample block (pos + 1))) (pos + 4)
      else
        if avail < 3 * len then ⟨out, pos + 1, .shortLit⟩
        else
          decodeLoop block total fuel
            (out ++ (List.range' 0 k).map (fun j => blockSample block (pos + 1 + 3 * j))) (pos + 1 + 3 * k)

/-- `decode` of R81 for `total` pixels, with the finalization of R88. -/
def decodeBlock (block : List Byte) (total : Nat) : DecodeResult :=
  let r := decodeLoop block total (total + 1) [] 0
  { r with out := r.out ++ List.replicate (total - r.out.length) Pixel.black }

/-- The elements of a pixel sequence by index (every use lies inside the sequence). -/
def pixelOf (ps : List Pixel) (k : Nat) : Pixel := ps.getD k Pixel.black

/-- The groups of the greedy pass from pixel `i` of `n` on (R111); `fuel` bounds their number. -/
def groupsFrom (pix : Nat → Pixel) (n : Nat) : (fuel i : Nat) → List Instr
  | 0, _ => []
  | fuel + 1, i =>
    if i < n then groupAt pix n i :: groupsFrom pix n fuel (i + (groupAt pix n i).pixels) else []

/-- The groups of the reference encoding of a pixel sequence (R111, R116). -/
def encodeGroups (ps : List Pixel) : List Instr := groupsFrom (pixelOf ps) ps.length ps.length 0

/-- `encode` of R111: the bytes of the groups, one after another (R60). -/
def encodePixels (ps : List Pixel) : List Byte := (encodeGroups ps).flatMap encodeGroup

/-- The pixels a group spells (R82, R83). -/
def spelled : Instr → List Pixel
  | .run len px => List.replicate len px
  | .lit samples => samples
  | .decStart => []
  | .encStart => []

end Sys2Proof.Machine
end

