-- ==== Sys2Proof/Safety.lean ====
section
/-! DEFINITION. What a good state is: the invariants of the two units (spec/10_state.md R21, R30), the canonical form of the
memories, and the words in which the statements speak of a step's outcome and of what stays unchanged. -/

namespace Sys2Proof.Safety

open Sys2Proof.Machine

/-! ## Invariants -/

/-- The invariants of unit DEC. They are those of R21 but for two clauses about the configuration registers, which the
host may write in IDLE and DONE (R132, HV9): assumption log 9. `started`, `unstarted`, `atStart`, `seen` and
`held` are of the model's own fields. -/
structure DecInv (s : State) : Prop where
  pos_le : s.dec.busy = true → s.dec.pos.toNat ≤ s.dec.len.toNat
  cnt_le : s.dec.busy = true → s.dec.cnt.toNat ≤ s.dec.total
  fetch : s.dec.phase = .fetch → s.dec.rem = 0 ∧ s.dec.stop = .none
  run : s.dec.phase = .run →
    1 ≤ s.dec.rem.toNat ∧ s.dec.rem.toNat ≤ 128 ∧ s.dec.cnt.toNat < s.dec.total ∧ s.dec.stop = .none
  lit : s.dec.phase = .lit →
    1 ≤ s.dec.rem.toNat ∧ s.dec.rem.toNat ≤ 128 ∧ s.dec.cnt.toNat < s.dec.total ∧ s.dec.stop = .none ∧
      s.dec.pos.toNat + 3 * s.dec.rem.toNat ≤ s.dec.len.toNat
  pad : s.dec.phase = .pad →
    s.dec.cnt.toNat < s.dec.total ∧ (s.dec.stop = .eob ∨ s.dec.stop = .shortRun ∨ s.dec.stop = .shortLit)
  done : s.dec.phase = .done → s.dec.stop ≠ .none
  idle : s.dec.phase = .idle →
    s.dec.pos = 0 ∧ s.dec.cnt = 0 ∧ s.dec.rem = 0 ∧ s.dec.smp = Pixel.black ∧ s.dec.stop = .none
  duties : s.dec.busy = true → s.dec.fits s.caps = true ∧ reaches s.caps.srcShared s.dec.len.toNat = false
  started : s.dec.busy = true → s.dec.inFlight = true
  unstarted : s.dec.phase = .idle → s.dec.inFlight = false
  atStart : s.dec.busy = true → s.dec.lenAtStart = s.dec.len
  seen : s.dec.busy = true → s.dec.posSeen ≤ s.dec.pos ∧ s.dec.cntSeen ≤ s.dec.cnt
  held : s.dec.busy = true → (∀ v ∈ s.dec.posHeld, v ≤ s.dec.pos) ∧ ∀ v ∈ s.dec.cntHeld, v ≤ s.dec.cnt

/-- The invariants of unit ENC (R30): while an operation runs and until its end has been observed, what has been
written is exactly the reference encoding of the pixels consumed; and while it runs the cursor stands at a group
boundary: what has been written is some of the groups of the whole encoding, in order. The duty and model fields as for
DEC. -/
structure EncInv (s : State) : Prop where
  i_le : s.enc.busy = true → s.enc.i.toNat ≤ s.enc.n.toNat
  written : s.enc.inFlight = true → s.outBytes s.enc.olen.toNat = encodePixels (s.pixPixels s.enc.i.toNat)
  boundary : s.enc.busy = true → ∃ before after, encodeGroups (s.pixPixels s.enc.n.toNat) = before ++ after ∧
    (before.map Instr.pixels).sum = s.enc.i.toNat ∧ before.flatMap encodeGroup = s.outBytes s.enc.olen.toNat
  idle : s.enc.phase = .idle → s.enc.i = 0 ∧ s.enc.olen = 0
  duties : s.enc.busy = true → s.enc.fits s.caps = true ∧ reaches s.caps.pixShared s.enc.n.toNat = false
  started : s.enc.busy = true → s.enc.inFlight = true
  unstarted : s.enc.phase = .idle → s.enc.inFlight = false
  atStart : s.enc.busy = true → s.enc.nAtStart = s.enc.n
  consumed : s.enc.inFlight = true → s.enc.i.toNat ≤ s.enc.nAtStart.toNat
  seen : s.enc.busy = true → s.enc.iSeen ≤ s.enc.i ∧ s.enc.olenSeen ≤ s.enc.olen
  held : s.enc.busy = true → (∀ v ∈ s.enc.iHeld, v ≤ s.enc.i) ∧ ∀ v ∈ s.enc.olenHeld, v ≤ s.enc.olen

/-- Every memory space is in canonical form and holds no element at or past its capacity (R40). -/
structure MemInv (s : State) : Prop where
  src : s.dec.src.wf = true
  dst : s.dec.dst.wf = true
  pix : s.enc.pix.wf = true
  out : s.enc.out.wf = true
  srcBelow : s.dec.src.below s.caps.srcCap = true
  dstBelow : s.dec.dst.below s.caps.dstCap = true
  pixBelow : s.enc.pix.below s.caps.pixCap = true
  outBelow : s.enc.out.below s.caps.outCap = true

/-- The whole invariant. -/
structure Inv (s : State) : Prop where
  dec : DecInv s
  enc : EncInv s
  mem : MemInv s

/-! ## Outcomes -/

/-- The state of a next outcome. -/
def nextState : Host.Outcome State Fault Refusal → Option State
  | .next s => some s
  | .fault _ => none
  | .refused _ => none

/-- `k` steps of the block. -/
def runs (k : Nat) (s : State) : Host.Outcome State Fault Refusal := Host.Core.run Sys2Proof.core k s

/-- The next step is one of unit DEC: its turn is on the agenda, or the agenda is empty (then a BUSY unit steps). -/
def DecNext (s : State) : Prop := s.agenda = [] ∨ s.agenda.head? = some .decTurn

/-- `s` with the turn it takes next off its agenda. -/
def popped (s : State) : State := { s with agenda := s.agenda.tail }

/-- Consecutive bytes of OUT. -/
def outAt (s : State) (a n : Nat) : List Byte := (List.range' a n).map s.outByte

/-! ## Frames -/

/-- Nothing of `s` but unit DEC's `phase`, `STOP`, `DEC_POS`, `DEC_CNT`, `rem`, `smp` and DST differs in `t` (and, of the
model's own fields, the past values of `DEC_POS` and `DEC_CNT`, log 7). -/
structure OnlyDecWorks (s t : State) : Prop where
  enc : t.enc = s.enc
  caps : t.caps = s.caps
  agenda : t.agenda = s.agenda
  reply : t.reply = s.reply
  draws : t.draws = s.draws
  epoch : t.epoch = s.epoch
  w : t.dec.w = s.dec.w
  h : t.dec.h = s.dec.h
  len : t.dec.len = s.dec.len
  src : t.dec.src = s.dec.src
  inFlight : t.dec.inFlight = s.dec.inFlight
  lenAtStart : t.dec.lenAtStart = s.dec.lenAtStart
  posSeen : t.dec.posSeen = s.dec.posSeen
  cntSeen : t.dec.cntSeen = s.dec.cntSeen

/-- Nothing of `s` but unit ENC's `phase`, `ENC_I`, `ENC_OLEN` and OUT differs in `t` (and, of the model's own fields, the
past values of `ENC_I` and `ENC_OLEN`, log 7). -/
structure OnlyEncWorks (s t : State) : Prop where
  dec : t.dec = s.dec
  caps : t.caps = s.caps
  agenda : t.agenda = s.agenda
  reply : t.reply = s.reply
  draws : t.draws = s.draws
  epoch : t.epoch = s.epoch
  n : t.enc.n = s.enc.n
  pix : t.enc.pix = s.enc.pix
  inFlight : t.enc.inFlight = s.enc.inFlight
  nAtStart : t.enc.nAtStart = s.enc.nAtStart
  iSeen : t.enc.iSeen = s.enc.iSeen
  olenSeen : t.enc.olenSeen = s.enc.olenSeen

end Sys2Proof.Safety
end

