-- ==== Sys2Proof/Laws/State.lean ====
section
/-! SUPPORT. One lemma per field per update of the state, all true by unfolding, so that no later proof unfolds a
record update. -/

namespace Sys2Proof.Machine

variable (s : State) (d : Dec) (e : Enc) (r : Reply) (px : Pixel) (len : Nat) (c : Stop) (n : Word64) (g : Instr)

/-! ## Whole-state updates -/

@[simp] theorem State.setDec_dec : (s.setDec d).dec = d := rfl
@[simp] theorem State.setDec_enc : (s.setDec d).enc = s.enc := rfl
@[simp] theorem State.setDec_caps : (s.setDec d).caps = s.caps := rfl
@[simp] theorem State.setDec_agenda : (s.setDec d).agenda = s.agenda := rfl
@[simp] theorem State.setDec_reply : (s.setDec d).reply = s.reply := rfl
@[simp] theorem State.setDec_draws : (s.setDec d).draws = s.draws := rfl
@[simp] theorem State.setDec_epoch : (s.setDec d).epoch = s.epoch := rfl
@[simp] theorem State.setDec_setDec (d' : Dec) : (s.setDec d).setDec d' = s.setDec d' := rfl
@[simp] theorem State.setDec_self : s.setDec s.dec = s := rfl
@[simp] theorem State.setEnc_dec : (s.setEnc e).dec = s.dec := rfl
@[simp] theorem State.setEnc_enc : (s.setEnc e).enc = e := rfl
@[simp] theorem State.setEnc_caps : (s.setEnc e).caps = s.caps := rfl
@[simp] theorem State.setEnc_agenda : (s.setEnc e).agenda = s.agenda := rfl
@[simp] theorem State.setEnc_reply : (s.setEnc e).reply = s.reply := rfl
@[simp] theorem State.setEnc_draws : (s.setEnc e).draws = s.draws := rfl
@[simp] theorem State.setEnc_epoch : (s.setEnc e).epoch = s.epoch := rfl
@[simp] theorem State.setEnc_setEnc (e' : Enc) : (s.setEnc e).setEnc e' = s.setEnc e' := rfl
@[simp] theorem State.setEnc_self : s.setEnc s.enc = s := rfl
theorem State.setEnc_setDec : (s.setDec d).setEnc e = (s.setEnc e).setDec d := rfl
@[simp] theorem State.answer_dec : (s.answer r).dec = s.dec := rfl
@[simp] theorem State.answer_enc : (s.answer r).enc = s.enc := rfl
@[simp] theorem State.answer_caps : (s.answer r).caps = s.caps := rfl
@[simp] theorem State.answer_agenda : (s.answer r).agenda = s.agenda := rfl
@[simp] theorem State.answer_reply : (s.answer r).reply = r := rfl
@[simp] theorem State.answer_draws : (s.answer r).draws = s.draws := rfl
@[simp] theorem State.answer_epoch : (s.answer r).epoch = s.epoch := rfl
@[simp] theorem State.applyReset_dec : s.applyReset.dec = Dec.reset := rfl
@[simp] theorem State.applyReset_enc : s.applyReset.enc = Enc.reset := rfl
@[simp] theorem State.applyReset_caps : s.applyReset.caps = s.caps := rfl
@[simp] theorem State.applyReset_agenda : s.applyReset.agenda = s.agenda := rfl
@[simp] theorem State.applyReset_reply : s.applyReset.reply = s.reply := rfl
@[simp] theorem State.applyReset_draws : s.applyReset.draws = s.draws := rfl
@[simp] theorem State.applyReset_epoch : s.applyReset.epoch = s.epoch + 1 := rfl

/-! ## One pixel written -/

@[simp] theorem Dec.emit_phase : (d.emit px).phase = d.phase := rfl
@[simp] theorem Dec.emit_stop : (d.emit px).stop = d.stop := rfl
@[simp] theorem Dec.emit_w : (d.emit px).w = d.w := rfl
@[simp] theorem Dec.emit_h : (d.emit px).h = d.h := rfl
@[simp] theorem Dec.emit_len : (d.emit px).len = d.len := rfl
@[simp] theorem Dec.emit_pos : (d.emit px).pos = d.pos := rfl
@[simp] theorem Dec.emit_cnt : (d.emit px).cnt = d.cnt + 1 := rfl
@[simp] theorem Dec.emit_rem : (d.emit px).rem = d.rem := rfl
@[simp] theorem Dec.emit_smp : (d.emit px).smp = d.smp := rfl
@[simp] theorem Dec.emit_src : (d.emit px).src = d.src := rfl
@[simp] theorem Dec.emit_dst : (d.emit px).dst = d.dst.write d.cnt.toNat px := rfl
@[simp] theorem Dec.emit_inFlight : (d.emit px).inFlight = d.inFlight := rfl
@[simp] theorem Dec.emit_lenAtStart : (d.emit px).lenAtStart = d.lenAtStart := rfl
@[simp] theorem Dec.emit_posSeen : (d.emit px).posSeen = d.posSeen := rfl
@[simp] theorem Dec.emit_cntSeen : (d.emit px).cntSeen = d.cntSeen := rfl
@[simp] theorem Dec.emit_posHeld : (d.emit px).posHeld = d.posHeld := rfl
@[simp] theorem Dec.emit_cntHeld : (d.emit px).cntHeld = d.cnt :: d.cntHeld := rfl
@[simp] theorem Dec.emit_total : (d.emit px).total = d.total := rfl

/-! ## The cursor advanced -/

@[simp] theorem Dec.advance_phase : (d.advance n).phase = d.phase := rfl
@[simp] theorem Dec.advance_stop : (d.advance n).stop = d.stop := rfl
@[simp] theorem Dec.advance_w : (d.advance n).w = d.w := rfl
@[simp] theorem Dec.advance_h : (d.advance n).h = d.h := rfl
@[simp] theorem Dec.advance_len : (d.advance n).len = d.len := rfl
@[simp] theorem Dec.advance_pos : (d.advance n).pos = d.pos + n := rfl
@[simp] theorem Dec.advance_cnt : (d.advance n).cnt = d.cnt := rfl
@[simp] theorem Dec.advance_rem : (d.advance n).rem = d.rem := rfl
@[simp] theorem Dec.advance_smp : (d.advance n).smp = d.smp := rfl
@[simp] theorem Dec.advance_src : (d.advance n).src = d.src := rfl
@[simp] theorem Dec.advance_dst : (d.advance n).dst = d.dst := rfl
@[simp] theorem Dec.advance_inFlight : (d.advance n).inFlight = d.inFlight := rfl
@[simp] theorem Dec.advance_lenAtStart : (d.advance n).lenAtStart = d.lenAtStart := rfl
@[simp] theorem Dec.advance_posSeen : (d.advance n).posSeen = d.posSeen := rfl
@[simp] theorem Dec.advance_cntSeen : (d.advance n).cntSeen = d.cntSeen := rfl
@[simp] theorem Dec.advance_posHeld : (d.advance n).posHeld = d.pos :: d.posHeld := rfl
@[simp] theorem Dec.advance_cntHeld : (d.advance n).cntHeld = d.cntHeld := rfl
@[simp] theorem Dec.advance_total : (d.advance n).total = d.total := rfl

/-! ## A group taken up -/

@[simp] theorem takeRun_phase : (takeRun len px d).phase = .run := rfl
@[simp] theorem takeRun_stop : (takeRun len px d).stop = d.stop := rfl
@[simp] theorem takeRun_w : (takeRun len px d).w = d.w := rfl
@[simp] theorem takeRun_h : (takeRun len px d).h = d.h := rfl
@[simp] theorem takeRun_len : (takeRun len px d).len = d.len := rfl
@[simp] theorem takeRun_pos : (takeRun len px d).pos = d.pos + 4 := rfl
@[simp] theorem takeRun_cnt : (takeRun len px d).cnt = d.cnt := rfl
@[simp] theorem takeRun_rem : (takeRun len px d).rem = BitVec.ofNat 8 len := rfl
@[simp] theorem takeRun_smp : (takeRun len px d).smp = px := rfl
@[simp] theorem takeRun_src : (takeRun len px d).src = d.src := rfl
@[simp] theorem takeRun_dst : (takeRun len px d).dst = d.dst := rfl
@[simp] theorem takeRun_inFlight : (takeRun len px d).inFlight = d.inFlight := rfl
@[simp] theorem takeRun_lenAtStart : (takeRun len px d).lenAtStart = d.lenAtStart := rfl
@[simp] theorem takeRun_posSeen : (takeRun len px d).posSeen = d.posSeen := rfl
@[simp] theorem takeRun_cntSeen : (takeRun len px d).cntSeen = d.cntSeen := rfl
@[simp] theorem takeRun_posHeld : (takeRun len px d).posHeld = d.pos :: d.posHeld := rfl
@[simp] theorem takeRun_cntHeld : (takeRun len px d).cntHeld = d.cntHeld := rfl
@[simp] theorem takeRun_total : (takeRun len px d).total = d.total := rfl
@[simp] theorem takeLit_phase : (takeLit len d).phase = .lit := rfl
@[simp] theorem takeLit_stop : (takeLit len d).stop = d.stop := rfl
@[simp] theorem takeLit_w : (takeLit len d).w = d.w := rfl
@[simp] theorem takeLit_h : (takeLit len d).h = d.h := rfl
@[simp] theorem takeLit_len : (takeLit len d).len = d.len := rfl
@[simp] theorem takeLit_pos : (takeLit len d).pos = d.pos + 1 := rfl
@[simp] theorem takeLit_cnt : (takeLit len d).cnt = d.cnt := rfl
@[simp] theorem takeLit_rem : (takeLit len d).rem = BitVec.ofNat 8 len := rfl
@[simp] theorem takeLit_smp : (takeLit len d).smp = d.smp := rfl
@[simp] theorem takeLit_src : (takeLit len d).src = d.src := rfl
@[simp] theorem takeLit_dst : (takeLit len d).dst = d.dst := rfl
@[simp] theorem takeLit_inFlight : (takeLit len d).inFlight = d.inFlight := rfl
@[simp] theorem takeLit_lenAtStart : (takeLit len d).lenAtStart = d.lenAtStart := rfl
@[simp] theorem takeLit_posSeen : (takeLit len d).posSeen = d.posSeen := rfl
@[simp] theorem takeLit_cntSeen : (takeLit len d).cntSeen = d.cntSeen := rfl
@[simp] theorem takeLit_posHeld : (takeLit len d).posHeld = d.pos :: d.posHeld := rfl
@[simp] theorem takeLit_cntHeld : (takeLit len d).cntHeld = d.cntHeld := rfl
@[simp] theorem takeLit_total : (takeLit len d).total = d.total := rfl

/-! ## The stop -/

@[simp] theorem Dec.stopShort_phase : (d.stopShort c).phase = .pad := rfl
@[simp] theorem Dec.stopShort_stop : (d.stopShort c).stop = c := rfl
@[simp] theorem Dec.stopShort_w : (d.stopShort c).w = d.w := rfl
@[simp] theorem Dec.stopShort_h : (d.stopShort c).h = d.h := rfl
@[simp] theorem Dec.stopShort_len : (d.stopShort c).len = d.len := rfl
@[simp] theorem Dec.stopShort_pos : (d.stopShort c).pos = d.pos := rfl
@[simp] theorem Dec.stopShort_cnt : (d.stopShort c).cnt = d.cnt := rfl
@[simp] theorem Dec.stopShort_rem : (d.stopShort c).rem = d.rem := rfl
@[simp] theorem Dec.stopShort_smp : (d.stopShort c).smp = d.smp := rfl
@[simp] theorem Dec.stopShort_src : (d.stopShort c).src = d.src := rfl
@[simp] theorem Dec.stopShort_dst : (d.stopShort c).dst = d.dst := rfl
@[simp] theorem Dec.stopShort_inFlight : (d.stopShort c).inFlight = d.inFlight := rfl
@[simp] theorem Dec.stopShort_lenAtStart : (d.stopShort c).lenAtStart = d.lenAtStart := rfl
@[simp] theorem Dec.stopShort_posSeen : (d.stopShort c).posSeen = d.posSeen := rfl
@[simp] theorem Dec.stopShort_cntSeen : (d.stopShort c).cntSeen = d.cntSeen := rfl
@[simp] theorem Dec.stopShort_posHeld : (d.stopShort c).posHeld = d.posHeld := rfl
@[simp] theorem Dec.stopShort_cntHeld : (d.stopShort c).cntHeld = d.cntHeld := rfl
@[simp] theorem Dec.stopShort_total : (d.stopShort c).total = d.total := rfl

/-! ## START -/

@[simp] theorem Dec.start_phase : d.start.phase = .fetch := rfl
@[simp] theorem Dec.start_stop : d.start.stop = .none := rfl
@[simp] theorem Dec.start_w : d.start.w = d.w := rfl
@[simp] theorem Dec.start_h : d.start.h = d.h := rfl
@[simp] theorem Dec.start_len : d.start.len = d.len := rfl
@[simp] theorem Dec.start_pos : d.start.pos = 0 := rfl
@[simp] theorem Dec.start_cnt : d.start.cnt = 0 := rfl
@[simp] theorem Dec.start_rem : d.start.rem = 0 := rfl
@[simp] theorem Dec.start_smp : d.start.smp = d.smp := rfl
@[simp] theorem Dec.start_src : d.start.src = d.src := rfl
@[simp] theorem Dec.start_dst : d.start.dst = d.dst := rfl
@[simp] theorem Dec.start_inFlight : d.start.inFlight = true := rfl
@[simp] theorem Dec.start_lenAtStart : d.start.lenAtStart = d.len := rfl
@[simp] theorem Dec.start_posSeen : d.start.posSeen = 0 := rfl
@[simp] theorem Dec.start_cntSeen : d.start.cntSeen = 0 := rfl
@[simp] theorem Dec.start_posHeld : d.start.posHeld = [] := rfl
@[simp] theorem Dec.start_cntHeld : d.start.cntHeld = [] := rfl
@[simp] theorem Dec.start_total : d.start.total = d.total := rfl
@[simp] theorem Enc.start_phase : e.start.phase = .group := rfl
@[simp] theorem Enc.start_n : e.start.n = e.n := rfl
@[simp] theorem Enc.start_i : e.start.i = 0 := rfl
@[simp] theorem Enc.start_olen : e.start.olen = 0 := rfl
@[simp] theorem Enc.start_pix : e.start.pix = e.pix := rfl
@[simp] theorem Enc.start_out : e.start.out = e.out := rfl
@[simp] theorem Enc.start_inFlight : e.start.inFlight = true := rfl
@[simp] theorem Enc.start_nAtStart : e.start.nAtStart = e.n := rfl
@[simp] theorem Enc.start_iSeen : e.start.iSeen = 0 := rfl
@[simp] theorem Enc.start_olenSeen : e.start.olenSeen = 0 := rfl
@[simp] theorem Enc.start_iHeld : e.start.iHeld = [] := rfl
@[simp] theorem Enc.start_olenHeld : e.start.olenHeld = [] := rfl

/-! ## A group emitted -/

@[simp] theorem Enc.emitGroup_phase : (e.emitGroup g).phase = e.phase := rfl
@[simp] theorem Enc.emitGroup_n : (e.emitGroup g).n = e.n := rfl
@[simp] theorem Enc.emitGroup_i : (e.emitGroup g).i = e.i + BitVec.ofNat 64 g.pixels := rfl
@[simp] theorem Enc.emitGroup_olen :
    (e.emitGroup g).olen = e.olen + BitVec.ofNat 64 (encodeGroup g).length := rfl
@[simp] theorem Enc.emitGroup_pix : (e.emitGroup g).pix = e.pix := rfl
@[simp] theorem Enc.emitGroup_out :
    (e.emitGroup g).out = e.out.writeList e.olen.toNat (encodeGroup g) := rfl
@[simp] theorem Enc.emitGroup_inFlight : (e.emitGroup g).inFlight = e.inFlight := rfl
@[simp] theorem Enc.emitGroup_nAtStart : (e.emitGroup g).nAtStart = e.nAtStart := rfl
@[simp] theorem Enc.emitGroup_iSeen : (e.emitGroup g).iSeen = e.iSeen := rfl
@[simp] theorem Enc.emitGroup_olenSeen : (e.emitGroup g).olenSeen = e.olenSeen := rfl
@[simp] theorem Enc.emitGroup_iHeld : (e.emitGroup g).iHeld = e.i :: e.iHeld := rfl
@[simp] theorem Enc.emitGroup_olenHeld : (e.emitGroup g).olenHeld = e.olen :: e.olenHeld := rfl

end Sys2Proof.Machine
end

