-- ==== Sys2Proof/Laws/Decode.lean ====
section
/-! SUPPORT. The small lemmas of the decoder and the encoder: the range of a length, how many bytes a group takes, when
samples are there. -/

namespace Sys2Proof

theorem groupLen_pos (c : Byte) : 1 ≤ groupLen c := by simp [groupLen]

theorem groupLen_le (c : Byte) : groupLen c ≤ Config.maxGroup := by
  have := (lm1 c).isLt
  simp only [groupLen, Config.maxGroup]
  omega

@[simp] theorem sampleBytes_length (p : Pixel) : (sampleBytes p).length = 3 := rfl

@[simp] theorem sampleOf_sampleBytes (p : Pixel) : sampleOf p.b p.g p.r = p := rfl

theorem flatMap_sampleBytes_length (ps : List Pixel) : (ps.flatMap sampleBytes).length = 3 * ps.length := by
  induction ps with
  | nil => rfl
  | cons p ps ih => simp only [List.flatMap_cons, List.length_append, sampleBytes_length, List.length_cons, ih]; omega

/-- A group has 4 bytes or `1 + 3 × len` bytes (R63, R64). -/
theorem encodeGroup_run_length (len : Nat) (px : Pixel) : (encodeGroup (.run len px)).length = 4 := rfl

theorem encodeGroup_lit_length (ps : List Pixel) : (encodeGroup (.lit ps)).length = 1 + 3 * ps.length := by
  simp only [encodeGroup, List.length_cons, flatMap_sampleBytes_length]
  omega

/-- `takeSamples` answers exactly when the bytes are there. -/
theorem takeSamples_isSome (n : Nat) (bs : List Byte) : (takeSamples n bs).isSome = decide (3 * n ≤ bs.length) := by
  induction n generalizing bs with
  | zero => simp [takeSamples]
  | succ n ih =>
    match bs with
    | [] => simp [takeSamples]
    | [_] => simp [takeSamples]; omega
    | [_, _] => simp [takeSamples]; omega
    | b :: g :: r :: bs =>
      have h := ih bs
      simp only [takeSamples]
      split <;> simp_all <;> omega

/-- What `takeSamples` answers: the bytes are those of the samples, then the rest. -/
theorem takeSamples_eq_some {n : Nat} {bs rest : List Byte} {ps : List Pixel}
    (h : takeSamples n bs = some (ps, rest)) : ps.length = n ∧ ps.flatMap sampleBytes ++ rest = bs := by
  induction n generalizing bs ps with
  | zero => simp_all [takeSamples]
  | succ n ih =>
    match bs, h with
    | b :: g :: r :: bs, h =>
      simp only [takeSamples] at h
      split at h
      · rename_i qs rest' hq
        obtain ⟨rfl, rfl⟩ := by simpa using h
        obtain ⟨hl, hb⟩ := ih hq
        simp [hl, ← hb, sampleBytes, sampleOf]
      · simp at h

/-- `takeSamples` reads back what `sampleBytes` wrote. -/
theorem takeSamples_flatMap (ps : List Pixel) (rest : List Byte) :
    takeSamples ps.length (ps.flatMap sampleBytes ++ rest) = some (ps, rest) := by
  induction ps with
  | nil => rfl
  | cons p ps ih => simp [takeSamples, sampleBytes, ih]

/-- The answers a group's decoding can have, one for each way it can go. -/
theorem decodeGroup_cons (c : Byte) (bs : List Byte) :
    (runFlag c = true ∧ bs.length < 3 ∧ decodeGroup (c :: bs) = .reject .shortRun) ∨
    (runFlag c = true ∧ ∃ b g r rest, bs = b :: g :: r :: rest ∧
      decodeGroup (c :: bs) = .instr (.run (groupLen c) (sampleOf b g r)) rest) ∨
    (runFlag c = false ∧ bs.length < 3 * groupLen c ∧ decodeGroup (c :: bs) = .reject .shortLit) ∨
    (runFlag c = false ∧ ∃ ps rest, takeSamples (groupLen c) bs = some (ps, rest) ∧
      decodeGroup (c :: bs) = .instr (.lit ps) rest) := by
  cases hf : runFlag c with
  | true =>
    match bs with
    | [] => simp [decodeGroup, hf]
    | [_] => simp [decodeGroup, hf]
    | [_, _] => simp [decodeGroup, hf]
    | b :: g :: r :: rest => simp [decodeGroup, hf]
  | false =>
    have hs := takeSamples_isSome (groupLen c) bs
    cases ht : takeSamples (groupLen c) bs with
    | none =>
      rw [ht] at hs
      have : bs.length < 3 * groupLen c := by simpa using hs
      simp [decodeGroup, hf, ht, this]
    | some p => simp [decodeGroup, hf, ht]

end Sys2Proof
end

