-- ==== Sys2Proof/Laws/PerInstr.lean ====
section
/-! SUPPORT. Statements made per instruction, one lemma per constructor (LAWS.json). -/

namespace Sys2Proof.Laws.EncodedSize

/-- A well-formed group takes 4 to 385 bytes, and a command takes no byte of the stream (R72, R130, R131). -/
def Statement (i : Instr) : Prop :=
  i.wf = true →
    (i.isGroup = true → 4 ≤ (encodeGroup i).length ∧ (encodeGroup i).length ≤ Config.maxGroupBytes) ∧
      (i.isGroup = false → encodeGroup i = [])

theorem run (len : Nat) (px : Pixel) : Statement (.run len px) := by
  intro _
  simp [Instr.isGroup, encodeGroup_run_length, Config.maxGroupBytes, Config.maxGroup]

theorem lit (samples : List Pixel) : Statement (.lit samples) := by
  intro h
  simp only [Instr.wf, lengthOk, Bool.and_eq_true, decide_eq_true_eq] at h
  simp only [Instr.isGroup, encodeGroup_lit_length, Config.maxGroupBytes]
  refine ⟨fun _ => ⟨by omega, by omega⟩, by simp⟩

theorem decStart : Statement .decStart := by
  intro _
  simp [Instr.isGroup, encodeGroup]

theorem encStart : Statement .encStart := by
  intro _
  simp [Instr.isGroup, encodeGroup]

end Sys2Proof.Laws.EncodedSize
end

