-- ==== Sys2Proof/Laws/Memory.lean ====
section
/-! SUPPORT. The laws of a memory space: what a read gives after a write, and that every operation keeps the canonical
form, in which equal contents are equal data. -/

namespace Sys2Proof.Machine

variable {α : Type}

@[simp] theorem Memory.read_nil (k : Nat) : Memory.read ([] : Memory α) k = none := rfl

theorem Memory.read_write_same (m : Memory α) (k : Nat) (v : α) : (m.write k v).read k = some v := by
  induction m with
  | nil => simp [Memory.write, Memory.read]
  | cons e m ih =>
    obtain ⟨a, x⟩ := e
    unfold Memory.write
    split
    · simp [Memory.read]
    · split
      · simp [Memory.read]
      · have h1 : ¬ k < a := by assumption
        have h2 : ¬ k = a := by assumption
        simp [Memory.read, h1, h2, ih]

theorem Memory.read_write_other (m : Memory α) {k j : Nat} (v : α) (h : j ≠ k) : (m.write k v).read j = m.read j := by
  induction m with
  | nil => simp [Memory.write, Memory.read, h]
  | cons e m ih =>
    obtain ⟨a, x⟩ := e
    unfold Memory.write
    split
    · rename_i hk
      by_cases hj : j < k
      · have : j ≠ a := by omega
        have : j < a := by omega
        simp [Memory.read, *]
      · simp [Memory.read, h, hj]
    · split
      · rename_i hk
        subst hk
        by_cases hj : j < k
        · simp [Memory.read, h, hj]
        · simp [Memory.read, h, hj]
      · simp only [Memory.read, ih]

/-- What one write can do to a read. -/
theorem Memory.read_write (m : Memory α) (k j : Nat) (v : α) :
    (m.write k v).read j = if j = k then some v else m.read j := by
  by_cases h : j = k
  · subst h; simp [Memory.read_write_same]
  · simp [Memory.read_write_other m v h, h]

/-- What a write of consecutive elements can do to a read. -/
theorem Memory.read_writeList (vs : List α) (m : Memory α) (a j : Nat) :
    (m.writeList a vs).read j =
      if h : a ≤ j ∧ j < a + vs.length then some (vs[j - a]'(by omega)) else m.read j := by
  induction vs generalizing m a with
  | nil => simp [Memory.writeList]
  | cons v vs ih =>
    rw [Memory.writeList, ih]
    by_cases h : a + 1 ≤ j ∧ j < a + 1 + vs.length
    · have h' : a ≤ j ∧ j < a + (v :: vs).length := by simp; omega
      rw [dif_pos h, dif_pos h']
      congr 1
      have : j - a = (j - (a + 1)) + 1 := by omega
      simp [this]
    · rw [dif_neg h, Memory.read_write]
      by_cases hj : j = a
      · subst hj
        simp
      · have h' : ¬ (a ≤ j ∧ j < a + (v :: vs).length) := by simp; omega
        rw [if_neg hj, dif_neg h']

theorem Memory.read_of_above {m : Memory α} {lo k : Nat} (h : Memory.above lo m = true) (hk : k ≤ lo) :
    m.read k = none := by
  induction m with
  | nil => rfl
  | cons e m ih =>
    obtain ⟨a, x⟩ := e
    simp only [Memory.above, Bool.and_eq_true, decide_eq_true_eq] at h
    have h1 : k ≠ a := by omega
    have h2 : k < a := by omega
    simp [Memory.read, h1, h2]

theorem Memory.above_of_le {m : Memory α} {lo hi : Nat} (h : Memory.above hi m = true) (hle : lo ≤ hi) :
    Memory.above lo m = true := by
  induction m with
  | nil => rfl
  | cons e m ih =>
    obtain ⟨a, x⟩ := e
    simp only [Memory.above, Bool.and_eq_true, decide_eq_true_eq] at h ⊢
    exact ⟨by omega, ih h.2⟩

theorem Memory.above_write {m : Memory α} {lo k : Nat} (v : α) (h : Memory.above lo m = true) (hk : lo < k) :
    Memory.above lo (m.write k v) = true := by
  induction m with
  | nil => simp [Memory.write, Memory.above, hk]
  | cons e m ih =>
    obtain ⟨a, x⟩ := e
    have h' := h
    simp only [Memory.above, Bool.and_eq_true, decide_eq_true_eq] at h'
    unfold Memory.write
    split
    · simp [Memory.above, hk, h'.1, h'.2]
    · split
      · simp [Memory.above, hk, h'.2]
      · simp [Memory.above, h'.1, ih h'.2]

/-- A write keeps the canonical form. -/
theorem Memory.wf_write {m : Memory α} (k : Nat) (v : α) (h : m.wf = true) : (m.write k v).wf = true := by
  induction m with
  | nil => simp [Memory.write, Memory.wf, Memory.above]
  | cons e m ih =>
    obtain ⟨a, x⟩ := e
    simp only [Memory.wf, Bool.and_eq_true] at h
    unfold Memory.write
    split
    · rename_i hk
      simp [Memory.wf, Memory.above, hk, h.1, h.2, Memory.above_of_le h.1 hk.le]
    · split
      · rename_i hk
        subst hk
        simp [Memory.wf, h.1, h.2]
      · rename_i h1 h2
        simp [Memory.wf, ih h.2, Memory.above_write v h.1 (by omega : a < k)]

/-- A write of consecutive elements keeps the canonical form. -/
theorem Memory.wf_writeList {m : Memory α} (vs : List α) (a : Nat) (h : m.wf = true) :
    (m.writeList a vs).wf = true := by
  induction vs generalizing m a with
  | nil => exact h
  | cons v vs ih => exact ih (a + 1) (Memory.wf_write a v h)

theorem Memory.below_of_le {m : Memory α} {lo hi : Nat} (h : m.below lo = true) (hle : lo ≤ hi) :
    m.below hi = true := by
  induction m with
  | nil => rfl
  | cons e m ih =>
    obtain ⟨a, x⟩ := e
    simp only [Memory.below, Bool.and_eq_true, decide_eq_true_eq] at h ⊢
    exact ⟨by omega, ih h.2⟩

/-- A write below the capacity keeps every listed index below it. -/
theorem Memory.below_write {m : Memory α} {cap k : Nat} (v : α) (h : m.below cap = true) (hk : k < cap) :
    (m.write k v).below cap = true := by
  induction m with
  | nil => simp [Memory.write, Memory.below, hk]
  | cons e m ih =>
    obtain ⟨a, x⟩ := e
    simp only [Memory.below, Bool.and_eq_true, decide_eq_true_eq] at h
    unfold Memory.write
    split
    · simp [Memory.below, hk, h.1, h.2]
    · split
      · simp [Memory.below, hk, h.2]
      · simp [Memory.below, h.1, ih h.2]

/-- So does a write of consecutive elements. -/
theorem Memory.below_writeList {m : Memory α} {cap : Nat} (vs : List α) (a : Nat) (h : m.below cap = true)
    (ha : a + vs.length ≤ cap) : (m.writeList a vs).below cap = true := by
  induction vs generalizing m a with
  | nil => exact h
  | cons v vs ih =>
    simp only [List.length_cons] at ha
    exact ih (a + 1) (Memory.below_write v h (by omega)) (by omega)

/-- The memories of the reset state are in canonical form, and nothing lies past a capacity. -/
theorem reset_memories_wf : Safety.MemInv State.reset := ⟨rfl, rfl, rfl, rfl, rfl, rfl, rfl, rfl⟩

/-! ## The four spaces as the agents see them -/

theorem srcByte_of_src (s t : State) (h : t.dec.src = s.dec.src) (he : t.epoch = s.epoch) : t.srcByte = s.srcByte := by
  funext a; simp [State.srcByte, h, he]

theorem dstPixel_of_dst (s t : State) (h : t.dec.dst = s.dec.dst) (he : t.epoch = s.epoch) :
    t.dstPixel = s.dstPixel := by
  funext a; simp [State.dstPixel, h, he]

theorem pixPixel_of_pix (s t : State) (h : t.enc.pix = s.enc.pix) (he : t.epoch = s.epoch) :
    t.pixPixel = s.pixPixel := by
  funext a; simp [State.pixPixel, h, he]

theorem outByte_of_out (s t : State) (h : t.enc.out = s.enc.out) (he : t.epoch = s.epoch) :
    t.outByte = s.outByte := by
  funext a; simp [State.outByte, h, he]

/-- Writing one pixel of DST changes that pixel alone. -/
theorem dstPixel_write (s t : State) (k : Nat) (v : Pixel) (h : t.dec.dst = s.dec.dst.write k v)
    (he : t.epoch = s.epoch) (j : Nat) : t.dstPixel j = if j = k then v else s.dstPixel j := by
  simp only [State.dstPixel, h, he, Memory.read_write]
  split <;> simp_all

/-- Writing consecutive bytes of OUT changes those bytes alone. -/
theorem outByte_writeList (s t : State) (a : Nat) (vs : List Byte) (h : t.enc.out = s.enc.out.writeList a vs)
    (he : t.epoch = s.epoch) (j : Nat) :
    t.outByte j = if h : a ≤ j ∧ j < a + vs.length then vs[j - a]'(by omega) else s.outByte j := by
  simp only [State.outByte, h, he, Memory.read_writeList]
  split <;> simp_all

end Sys2Proof.Machine
end

