-- ==== Sys2Proof/Laws/Step.lean ====
section
/-! SUPPORT. What each turn can do, said once: the moves of unit DEC, the moves of unit ENC, the two START commands, and
whose turn a step is. Later proofs cite these and unfold no turn. -/

namespace Sys2Proof.Machine

/-! ## The bytes under the cursor -/

@[simp] theorem State.srcBytes_length (s : State) (a n : Nat) : (s.srcBytes a n).length = n := by
  simp [State.srcBytes]

theorem State.srcBytes_succ (s : State) (a n : Nat) : s.srcBytes a (n + 1) = s.srcByte a :: s.srcBytes (a + 1) n := by
  simp [State.srcBytes, List.range'_succ]

theorem State.groupWindow_of_end (s : State) (h : s.dec.len.toNat ≤ s.dec.pos.toNat) : s.groupWindow = [] := by
  have : s.dec.len.toNat - s.dec.pos.toNat = 0 := by omega
  simp [State.groupWindow, this, State.srcBytes]

theorem State.groupWindow_cons (s : State) (h : s.dec.pos.toNat < s.dec.len.toNat) :
    s.groupWindow = s.srcByte s.dec.pos.toNat ::
      s.srcBytes (s.dec.pos.toNat + 1) (min 384 (s.dec.len.toNat - (s.dec.pos.toNat + 1))) := by
  have : min Config.maxGroupBytes (s.dec.len.toNat - s.dec.pos.toNat) =
      min 384 (s.dec.len.toNat - (s.dec.pos.toNat + 1)) + 1 := by
    simp only [Config.maxGroupBytes, Config.maxGroup]; omega
  rw [State.groupWindow, this, State.srcBytes_succ]

/-! ## Unit DEC -/

/-- The moves of unit DEC: `DecMove s d` says that one step from `s` may leave the unit at `d` (R91 to R95). -/
inductive DecMove (s : State) : Dec → Prop where
  | still : s.dec.busy = false → DecMove s s.dec
  | count : s.dec.phase = .fetch → s.dec.cnt.toNat = s.dec.total →
      DecMove s { s.dec with stop := .count, phase := .done }
  | eob : s.dec.phase = .fetch → s.dec.cnt.toNat ≠ s.dec.total → s.dec.len.toNat ≤ s.dec.pos.toNat →
      DecMove s (s.dec.stopShort .eob)
  | shortRun : s.dec.phase = .fetch → s.dec.cnt.toNat ≠ s.dec.total → s.dec.pos.toNat < s.dec.len.toNat →
      runFlag (s.srcByte s.dec.pos.toNat) = true → s.dec.len.toNat - (s.dec.pos.toNat + 1) < 3 →
      DecMove s ((s.dec.advance 1).stopShort .shortRun)
  | takeRun : s.dec.phase = .fetch → s.dec.cnt.toNat ≠ s.dec.total → s.dec.pos.toNat < s.dec.len.toNat →
      runFlag (s.srcByte s.dec.pos.toNat) = true → 3 ≤ s.dec.len.toNat - (s.dec.pos.toNat + 1) →
      DecMove s (takeRun (groupLen (s.srcByte s.dec.pos.toNat)) (s.sampleAt (s.dec.pos.toNat + 1)) s.dec)
  | shortLit : s.dec.phase = .fetch → s.dec.cnt.toNat ≠ s.dec.total → s.dec.pos.toNat < s.dec.len.toNat →
      runFlag (s.srcByte s.dec.pos.toNat) = false →
      s.dec.len.toNat - (s.dec.pos.toNat + 1) < 3 * groupLen (s.srcByte s.dec.pos.toNat) →
      DecMove s ((s.dec.advance 1).stopShort .shortLit)
  | takeLit : s.dec.phase = .fetch → s.dec.cnt.toNat ≠ s.dec.total → s.dec.pos.toNat < s.dec.len.toNat →
      runFlag (s.srcByte s.dec.pos.toNat) = false →
      3 * groupLen (s.srcByte s.dec.pos.toNat) ≤ s.dec.len.toNat - (s.dec.pos.toNat + 1) →
      DecMove s (takeLit (groupLen (s.srcByte s.dec.pos.toNat)) s.dec)
  | runPixel : s.dec.phase = .run → DecMove s (runStep s.dec)
  | litPixel : s.dec.phase = .lit → DecMove s (litStep (s.sampleAt s.dec.pos.toNat) s.dec)
  | padPixel : s.dec.phase = .pad → DecMove s (padStep s.dec)

/-- The sample that the bytes after a control byte spell is the one lying there. -/
theorem State.sampleAt_of_srcBytes {s : State} {a n : Nat} {b g r : Byte} {rest : List Byte}
    (h : s.srcBytes a n = b :: g :: r :: rest) : sampleOf b g r = s.sampleAt a := by
  have hn := congrArg List.length h
  simp only [State.srcBytes_length, List.length_cons] at hn
  match n, hn with
  | n + 3, _ =>
    rw [State.srcBytes_succ, State.srcBytes_succ, State.srcBytes_succ] at h
    simp only [List.cons.injEq] at h
    obtain ⟨rfl, rfl, rfl, _⟩ := h
    rfl

/-- A FETCH step is one of the six cases of R91. -/
theorem fetchTurn_move (s : State) (hp : s.dec.phase = .fetch) :
    ∃ d, fetchTurn s = .next (s.setDec d) ∧ DecMove s d := by
  unfold fetchTurn
  split
  · exact ⟨_, rfl, .count hp ‹_›⟩
  · rename_i hc
    by_cases he : s.dec.len.toNat ≤ s.dec.pos.toNat
    · rw [s.groupWindow_of_end he]
      exact ⟨_, rfl, .eob hp hc he⟩
    · have hlt : s.dec.pos.toNat < s.dec.len.toNat := by omega
      have hle := groupLen_le (s.srcByte s.dec.pos.toNat)
      simp only [Config.maxGroup] at hle
      rw [s.groupWindow_cons hlt]
      rcases decodeGroup_cons (s.srcByte s.dec.pos.toNat)
        (s.srcBytes (s.dec.pos.toNat + 1) (min 384 (s.dec.len.toNat - (s.dec.pos.toNat + 1)))) with
        ⟨hf, hl, hd⟩ | ⟨hf, b, g, r, rest, hb, hd⟩ | ⟨hf, hl, hd⟩ | ⟨hf, ps, rest, ht, hd⟩
      · simp only [State.srcBytes_length] at hl
        simp only [decode, hd]
        exact ⟨_, rfl, .shortRun hp hc hlt hf (by omega)⟩
      · have h3 := congrArg List.length hb
        simp only [State.srcBytes_length, List.length_cons] at h3
        simp only [decode, hd, exec, execRun, hp, State.sampleAt_of_srcBytes hb]
        exact ⟨_, rfl, .takeRun hp hc hlt hf (by omega)⟩
      · simp only [State.srcBytes_length] at hl
        simp only [decode, hd]
        exact ⟨_, rfl, .shortLit hp hc hlt hf (by omega)⟩
      · obtain ⟨hn, hb⟩ := takeSamples_eq_some ht
        have h3 := congrArg List.length hb
        simp only [State.srcBytes_length, List.length_append, flatMap_sampleBytes_length] at h3
        simp only [decode, hd, exec, execLit, hp, hn]
        exact ⟨_, rfl, .takeLit hp hc hlt hf (by omega)⟩

/-- Every step of unit DEC completes, touches unit DEC alone, and is one of its moves. -/
theorem decTurn_move (s : State) : ∃ d, decTurn s = .next (s.setDec d) ∧ DecMove s d := by
  unfold decTurn
  split
  · rename_i h; exact ⟨_, rfl, .still (by simp [Dec.busy, h])⟩
  · rename_i h; exact fetchTurn_move s h
  · rename_i h; exact ⟨_, by simp only [exec, execRun, h], .runPixel h⟩
  · rename_i h; exact ⟨_, by simp only [exec, execLit, h], .litPixel h⟩
  · rename_i h; exact ⟨_, rfl, .padPixel h⟩
  · rename_i h; exact ⟨_, rfl, .still (by simp [Dec.busy, h])⟩

/-! ## Unit ENC -/

/-- Every step of unit ENC completes, touches unit ENC alone, and is nothing, the end of the encode, or one group
emitted (R120, R121). -/
theorem encTurn_move (s : State) :
    (s.enc.busy = false ∧ encTurn s = .next s) ∨
    (s.enc.phase = .group ∧ s.enc.i = s.enc.n ∧ encTurn s = .next (s.setEnc { s.enc with phase := .done })) ∨
    (s.enc.phase = .group ∧ s.enc.i ≠ s.enc.n ∧ encTurn s = .next (s.setEnc (s.enc.emitGroup s.nextGroup))) := by
  unfold encTurn
  split
  · rename_i h; exact .inl ⟨by simp [Enc.busy, h], rfl⟩
  · rename_i h
    by_cases hi : s.enc.i = s.enc.n
    · exact .inr (.inl ⟨h, hi, by simp [groupStep, hi]⟩)
    · exact .inr (.inr ⟨h, hi, by simp [groupStep, hi]⟩)
  · rename_i h; exact .inl ⟨by simp [Enc.busy, h], rfl⟩

/-! ## Progress registers read while BUSY -/

/-- What a progress read shows is the present value or one held since START and not below the one last shown (R132). -/
theorem progressValue_mem (draw : Nat) (held : List Word64) (seen now : Word64) :
    progressValue draw held seen now = now ∨
    (progressValue draw held seen now ∈ held ∧ seen ≤ progressValue draw held seen now) := by
  have hlt : Config.progress draw % (progressChoices held seen now).length < (progressChoices held seen now).length :=
    Nat.mod_lt _ (by simp [progressChoices])
  have hm : progressValue draw held seen now ∈ progressChoices held seen now := by
    unfold progressValue
    rw [List.getD_eq_getElem _ _ hlt]
    exact List.getElem_mem hlt
  simpa [progressChoices] using hm

/-- So it lies between the value last shown and the present one. -/
theorem progressValue_between (draw : Nat) {held : List Word64} {seen now : Word64} (hs : seen ≤ now)
    (hh : ∀ v ∈ held, v ≤ now) :
    seen ≤ progressValue draw held seen now ∧ progressValue draw held seen now ≤ now := by
  rcases progressValue_mem draw held seen now with h | ⟨hm, hle⟩
  · rw [h]; exact ⟨hs, BitVec.le_refl _⟩
  · exact ⟨hle, hh _ hm⟩

/-! ## The commands -/

/-- What DEC.START can do when it completes (R130). -/
theorem execDecStart_next {s t : State} (h : execDecStart s = .next t) :
    (s.dec.busy = true ∧ t = s) ∨
    (s.dec.busy = false ∧ reaches s.caps.srcShared s.dec.len.toNat = false ∧ s.dec.fits s.caps = true ∧
      t = s.setDec s.dec.start) := by
  unfold execDecStart at h
  cases hb : s.dec.busy <;> cases hr : reaches s.caps.srcShared s.dec.len.toNat <;>
    cases hf : s.dec.fits s.caps <;> simp_all

/-- What ENC.START can do when it completes (R131). -/
theorem execEncStart_next {s t : State} (h : execEncStart s = .next t) :
    (s.enc.busy = true ∧ t = s) ∨
    (s.enc.busy = false ∧ reaches s.caps.pixShared s.enc.n.toNat = false ∧ s.enc.fits s.caps = true ∧
      t = s.setEnc s.enc.start) := by
  unfold execEncStart at h
  cases hb : s.enc.busy <;> cases hr : reaches s.caps.pixShared s.enc.n.toNat <;>
    cases hf : s.enc.fits s.caps <;> simp_all

/-- What a write to a control register is: the unit's START, or nothing (R13, R25). -/
theorem writeCtrl_eq (u : UnitId) (v : Word32) (s : State) :
    writeCtrl u v s = if v.getLsbD 0 then exec (startOf u) s else .next s := by
  unfold writeCtrl
  simp only [decode, decodeCtrl]
  split <;> split <;> simp_all

/-! ## Whose turn -/

/-- What a step is: the first turn of the agenda, or with an empty agenda a step of a BUSY unit, DEC before ENC, or
nothing (R10, R160). -/
theorem step_cases (s : State) :
    (∃ e rest, s.agenda = e :: rest ∧ step s = takeTurn e { s with agenda := rest }) ∨
    (s.agenda = [] ∧ s.dec.busy = true ∧ step s = decTurn s) ∨
    (s.agenda = [] ∧ s.dec.busy = false ∧ s.enc.busy = true ∧ step s = encTurn s) ∨
    (s.agenda = [] ∧ s.dec.busy = false ∧ s.enc.busy = false ∧ step s = .next s) := by
  unfold step nextTurn
  cases ha : s.agenda with
  | cons e rest => exact .inl ⟨e, rest, rfl, rfl⟩
  | nil =>
    cases hb : s.dec.busy with
    | true => exact .inr (.inl ⟨rfl, rfl, by simp [idleTurn, hb]⟩)
    | false =>
      cases he : s.enc.busy with
      | true => exact .inr (.inr (.inl ⟨rfl, rfl, rfl, by simp [idleTurn, hb, he]⟩))
      | false => exact .inr (.inr (.inr ⟨rfl, rfl, rfl, by simp [idleTurn, hb, he]⟩))

end Sys2Proof.Machine
end

