-- ==== Sys2Proof/Certificates/Slice0/Obligations.lean ====
section
/-! DEFINITION. The statements about the model, from the numbered rules of spec/. -/

open Sys2Proof Sys2Proof.Machine Sys2Proof.Safety

/-! ## Encoding -/

/-- Words written out from 30_encoding.md R63, R64, R73 and 10_state.md R13, R25 decode to what they stand for. -/
def Obligations.SpecWordsDecodeToTheirInstructions : Prop :=
  decode (.stream [0x81, 0x1E, 0x14, 0x0A]) = .instr (.run 2 ⟨10, 20, 30⟩) [] ∧
  decode (.stream [0x80, 0x09, 0x08, 0x07, 0xFF]) = .instr (.run 1 ⟨7, 8, 9⟩) [0xFF] ∧
  decode (.stream [0xFF, 0x01, 0x02, 0x03]) = .instr (.run 128 ⟨3, 2, 1⟩) [] ∧
  decode (.stream [0x02, 0x03, 0x02, 0x01, 0x06, 0x05, 0x04, 0x09, 0x08, 0x07]) =
    .instr (.lit [⟨1, 2, 3⟩, ⟨4, 5, 6⟩, ⟨7, 8, 9⟩]) [] ∧
  decode (.stream [0x00, 0xFF, 0x80, 0x7F]) = .instr (.lit [⟨127, 128, 255⟩]) [] ∧
  decode (.ctrlWrite .dec 0x00000001) = .instr .decStart [] ∧
  decode (.ctrlWrite .enc 0xFFFFFFFF) = .instr .encStart []

/-- Decoding what was encoded gives the instruction back, whatever follows it in the block. -/
def Obligations.DecodingInvertsEncoding : Prop :=
  ∀ (i : Instr), i.wf = true →
    decode (encode i) = .instr i [] ∧
    (i.isGroup = true → ∀ rest, decode (.stream (encodeGroup i ++ rest)) = .instr i rest)

/-- What decodes is well formed, and its encoding is the bytes it was read from: each group has one encoding. -/
def Obligations.EncodingInvertsDecoding : Prop :=
  ∀ (bs : List Byte) (i : Instr) (rest : List Byte), decode (.stream bs) = .instr i rest →
    i.wf = true ∧ i.isGroup = true ∧ encodeGroup i ++ rest = bs

/-- R67: every control byte, with the payload it promises, is a group of the length the map gives. -/
def Obligations.EveryControlByteIsLegal : Prop :=
  ∀ (c : Byte) (bs : List Byte), groupBytes c ≤ bs.length + 1 →
    (c.toNat ≤ 0x7F ∧ c &&& 0x80 = 0x00 ∧
      ∃ ps rest, decode (.stream (c :: bs)) = .instr (.lit ps) rest ∧ ps.length = c.toNat + 1 ∧
        rest.length + (1 + 3 * ps.length) = bs.length + 1) ∨
    (0x80 ≤ c.toNat ∧ c &&& 0x80 = 0x80 ∧
      ∃ px rest, decode (.stream (c :: bs)) = .instr (.run (c.toNat - 0x7F) px) rest ∧
        rest.length + 4 = bs.length + 1)

/-- Bytes are rejected exactly where the payload is short or no byte is left, under the stop cause's name
(R85 to R87), and never otherwise. -/
def Obligations.OnlyShortBytesAreRejected : Prop :=
  ∀ (c : Byte) (bs : List Byte),
    decode (.stream []) = .reject .endOfBlock ∧
    (decode (.stream (c :: bs)) = .reject .shortRun ↔ runFlag c = true ∧ bs.length < 3) ∧
    (decode (.stream (c :: bs)) = .reject .shortLit ↔ runFlag c = false ∧ bs.length < 3 * groupLen c) ∧
    decode (.stream (c :: bs)) ≠ .reject .endOfBlock ∧ decode (.stream (c :: bs)) ≠ .reject .noCommand

/-- R63, R64, R66: the control byte tells how many bytes the group has; 4 to 385. -/
def Obligations.TheControlByteTellsTheGroupsLength : Prop :=
  ∀ (i : Instr) (c : Byte) (payload : List Byte), i.wf = true → encodeGroup i = c :: payload →
    groupBytes c = 1 + payload.length ∧ 4 ≤ groupBytes c ∧ groupBytes c ≤ 385 ∧
    groupLen c = i.pixels ∧ (runFlag c = true ↔ ∃ len px, i = .run len px)

/-- R41: the packed view, its three fields, and the sample as its little-endian bytes (R42). -/
def Obligations.ThePackedPixelIsLittleEndianInTheStream : Prop :=
  ∀ (p : Pixel),
    (pix24 p).toNat = p.r.toNat * 2 ^ 16 + p.g.toNat * 2 ^ 8 + p.b.toNat ∧
    (pix24 p).extractLsb' 16 8 = p.r ∧ (pix24 p).extractLsb' 8 8 = p.g ∧ (pix24 p).extractLsb' 0 8 = p.b ∧
    sampleBytes p = [(pix24 p).extractLsb' 0 8, (pix24 p).extractLsb' 8 8, (pix24 p).extractLsb' 16 8] ∧
    ofPix24 (pix24 p) = p

/-- R13, R25: of the value written to a control register only bit 0 counts, and with it clear nothing happens. -/
def Obligations.OnlyBitZeroOfAControlWriteCounts : Prop :=
  ∀ (s : State) (v v' : Word64), v.getLsbD 0 = v'.getLsbD 0 →
    hostTurn (.writeDec .ctrl v) s = hostTurn (.writeDec .ctrl v') s ∧
    hostTurn (.writeEnc .ctrl v) s = hostTurn (.writeEnc .ctrl v') s ∧
    (v.getLsbD 0 = false →
      hostTurn (.writeDec .ctrl v) s = .next s ∧ hostTurn (.writeEnc .ctrl v) s = .next s)

/-! ## Memory -/

/-- R45: every location of every space is plain storage; the host's write of one element is read back, and nothing
else changes. A host may write an output space when no operation is in flight (log 6, log 20), an input space when the unit
is not BUSY and the element is no input of an operation in flight (R167, R164 item 1; log 22). R40: the host reads the two input
spaces at any time, BUSY or not, and the read changes nothing but the reply. -/
def Obligations.AHostWriteChangesOneElement : Prop :=
  (∀ (s : State) (a : Nat) (v : Byte), a < s.caps.srcCap → s.dec.busy = false →
    (s.dec.inFlight = true → s.dec.lenAtStart.toNat ≤ a) →
    ∃ t, hostTurn (.writeSrc a v) s = .next t ∧ (∀ b, t.srcByte b = if b = a then v else s.srcByte b) ∧
      t = s.setDec { s.dec with src := t.dec.src }) ∧
  (∀ (s : State) (k : Nat) (v : Pixel), k < s.caps.dstCap → s.dec.inFlight = false →
    ∃ t, hostTurn (.writeDst k v) s = .next t ∧ (∀ j, t.dstPixel j = if j = k then v else s.dstPixel j) ∧
      t = s.setDec { s.dec with dst := t.dec.dst }) ∧
  (∀ (s : State) (k : Nat) (v : Pixel), k < s.caps.pixCap → s.enc.busy = false →
    (s.enc.inFlight = true → s.enc.nAtStart.toNat ≤ k) →
    ∃ t, hostTurn (.writePix k v) s = .next t ∧ (∀ j, t.pixPixel j = if j = k then v else s.pixPixel j) ∧
      t = s.setEnc { s.enc with pix := t.enc.pix }) ∧
  (∀ (s : State) (a : Nat) (v : Byte), a < s.caps.outCap → s.enc.inFlight = false →
    ∃ t, hostTurn (.writeOut a v) s = .next t ∧ (∀ b, t.outByte b = if b = a then v else s.outByte b) ∧
      t = s.setEnc { s.enc with out := t.enc.out }) ∧
  (∀ (s : State) (a : Nat), a < s.caps.srcCap →
    hostTurn (.readSrc a) s = .next { s with reply := .byte (s.srcByte a) }) ∧
  (∀ (s : State) (k : Nat), k < s.caps.pixCap →
    hostTurn (.readPix k) s = .next { s with reply := .pixel (s.pixPixel k) })

/-- The model's choice (log 2: the canonical form of a memory; no rule of the spec): in canonical form, memories that read
alike are the same data. -/
def Obligations.MemoriesThatReadAlikeAreEqual : Prop :=
  (∀ (m m' : Memory Byte), m.wf = true → m'.wf = true → (∀ a, m.read a = m'.read a) → m = m') ∧
  (∀ (m m' : Memory Pixel), m.wf = true → m'.wf = true → (∀ a, m.read a = m'.read a) → m = m')

/-! ## The groups as the decoder executes them -/

/-- R91 cases 4 and 6: at a group boundary a RUN or a LIT is taken up; everything else is unchanged. (`posHeld`, the past
values of `DEC_POS`, is the model's own: log 7.) -/
def Obligations.GroupsAreTakenUpAtAGroupBoundary : Prop :=
  ∀ (s : State), s.dec.phase = .fetch →
    (∀ (len : Nat) (px : Pixel), exec (.run len px) s = .next
      { s with dec := { s.dec with
          smp := px, pos := s.dec.pos + 4, rem := BitVec.ofNat 8 len, phase := .run
          posHeld := s.dec.pos :: s.dec.posHeld } }) ∧
    (∀ (samples : List Pixel), exec (.lit samples) s = .next
      { s with dec := { s.dec with
          pos := s.dec.pos + 1, rem := BitVec.ofNat 8 samples.length, phase := .lit
          posHeld := s.dec.pos :: s.dec.posHeld } })

/-- R92: the RUN step, with its frame. -/
def Obligations.TheRunStepWritesOneCopyOfTheSample : Prop :=
  ∀ (s : State) (len : Nat) (px : Pixel), s.dec.phase = .run →
    ∃ t, exec (.run len px) s = .next t ∧ OnlyDecWorks s t ∧
      t.dstPixel s.dec.cnt.toNat = s.dec.smp ∧ (∀ k, k ≠ s.dec.cnt.toNat → t.dstPixel k = s.dstPixel k) ∧
      t.dec.cnt = s.dec.cnt + 1 ∧ t.dec.rem = s.dec.rem - 1 ∧ t.dec.pos = s.dec.pos ∧ t.dec.smp = s.dec.smp ∧
      (s.dec.cnt.toNat + 1 = s.dec.total → t.dec.stop = .count ∧ t.dec.phase = .done) ∧
      (s.dec.cnt.toNat + 1 ≠ s.dec.total →
        t.dec.stop = s.dec.stop ∧ t.dec.phase = if s.dec.rem - 1 = 0 then .fetch else .run)

/-- R93: the LIT step, with its frame. -/
def Obligations.TheLitStepReadsAndWritesOneSample : Prop :=
  ∀ (s : State) (samples : List Pixel), s.dec.phase = .lit →
    ∃ t, exec (.lit samples) s = .next t ∧ OnlyDecWorks s t ∧
      t.dstPixel s.dec.cnt.toNat =
        ⟨s.srcByte (s.dec.pos.toNat + 2), s.srcByte (s.dec.pos.toNat + 1), s.srcByte s.dec.pos.toNat⟩ ∧
      (∀ k, k ≠ s.dec.cnt.toNat → t.dstPixel k = s.dstPixel k) ∧
      t.dec.pos = s.dec.pos + 3 ∧ t.dec.cnt = s.dec.cnt + 1 ∧ t.dec.rem = s.dec.rem - 1 ∧
      t.dec.smp = s.dec.smp ∧
      (s.dec.cnt.toNat + 1 = s.dec.total → t.dec.stop = .count ∧ t.dec.phase = .done) ∧
      (s.dec.cnt.toNat + 1 ≠ s.dec.total →
        t.dec.stop = s.dec.stop ∧ t.dec.phase = if s.dec.rem - 1 = 0 then .fetch else .lit)

/-- R82, the whole RUN: from a group boundary with the group under the cursor, with no host access in between, after one
FETCH step and `k = min(len, N − |out|)` RUN steps its `k` copies stand in DST, `smp` holds the sample, `rem` the pixels of
the run not written, and nothing else has changed (but the past values of log 7). With ENC BUSY too, that these steps are
DEC's and ENC is unchanged rests on the model's default order, DEC before ENC (log 5). -/
def Obligations.AWholeRunWritesItsCopies : Prop :=
  ∀ (s : State) (len : Nat) (px : Pixel) (rest : List Byte), s.agenda = [] → s.dec.phase = .fetch →
    s.dec.cnt.toNat < s.dec.total → decode (.stream s.groupWindow) = .instr (.run len px) rest →
    ∃ t, runs (1 + min len (s.dec.total - s.dec.cnt.toNat)) s = .next t ∧ OnlyDecWorks s t ∧
      t.dec.pos.toNat = s.dec.pos.toNat + 4 ∧ t.dec.smp = px ∧
      t.dec.rem.toNat = len - min len (s.dec.total - s.dec.cnt.toNat) ∧
      t.dec.cnt.toNat = s.dec.cnt.toNat + min len (s.dec.total - s.dec.cnt.toNat) ∧
      (∀ k, t.dstPixel k =
        if s.dec.cnt.toNat ≤ k ∧ k < s.dec.cnt.toNat + min len (s.dec.total - s.dec.cnt.toNat) then px
        else s.dstPixel k) ∧
      (t.dec.cnt.toNat = s.dec.total → t.dec.phase = .done ∧ t.dec.stop = .count) ∧
      (t.dec.cnt.toNat ≠ s.dec.total → t.dec.phase = .fetch ∧ t.dec.stop = s.dec.stop)

/-- R83, the whole LIT, in the same way; the cursor ends after the last sample used, and `smp` is unchanged. With ENC BUSY
too, that these steps are DEC's and ENC is unchanged rests on the model's default order, DEC before ENC (log 5). -/
def Obligations.AWholeLiteralWritesItsSamples : Prop :=
  ∀ (s : State) (samples : List Pixel) (rest : List Byte), s.agenda = [] → s.dec.phase = .fetch →
    s.dec.cnt.toNat < s.dec.total → decode (.stream s.groupWindow) = .instr (.lit samples) rest →
    ∃ t, runs (1 + min samples.length (s.dec.total - s.dec.cnt.toNat)) s = .next t ∧ OnlyDecWorks s t ∧
      t.dec.pos.toNat = s.dec.pos.toNat + 1 + 3 * min samples.length (s.dec.total - s.dec.cnt.toNat) ∧
      t.dec.smp = s.dec.smp ∧
      t.dec.rem.toNat = samples.length - min samples.length (s.dec.total - s.dec.cnt.toNat) ∧
      t.dec.cnt.toNat = s.dec.cnt.toNat + min samples.length (s.dec.total - s.dec.cnt.toNat) ∧
      (∀ j, j < min samples.length (s.dec.total - s.dec.cnt.toNat) →
        samples[j]? = some (t.dstPixel (s.dec.cnt.toNat + j))) ∧
      (∀ k, k < s.dec.cnt.toNat ∨ s.dec.cnt.toNat + min samples.length (s.dec.total - s.dec.cnt.toNat) ≤ k →
        t.dstPixel k = s.dstPixel k) ∧
      (t.dec.cnt.toNat = s.dec.total → t.dec.phase = .done ∧ t.dec.stop = .count) ∧
      (t.dec.cnt.toNat ≠ s.dec.total → t.dec.phase = .fetch ∧ t.dec.stop = s.dec.stop)

/-! ## The commands -/

/-- R130: DEC.START of a unit that is not BUSY, the host's duties kept: the working registers start anew, the rest of
the block is unchanged. While BUSY it is ignored (corner case 1). Of the clauses, `inFlight`, `lenAtStart`,
`posSeen`, `cntSeen`, `posHeld`, `cntHeld` are the model's own fields (logs 6, 7, 22). -/
def Obligations.DecStartBeginsADecode : Prop :=
  ∀ (s : State),
    (s.dec.busy = true → exec .decStart s = .next s) ∧
    (s.dec.busy = false → reaches s.caps.srcShared s.dec.len.toNat = false →
      s.dec.len.toNat ≤ s.caps.srcCap → s.dec.w.toNat * s.dec.h.toNat ≤ s.caps.dstCap →
      exec .decStart s = .next
        { s with dec := { s.dec with
            pos := 0, cnt := 0, rem := 0, stop := .none, phase := .fetch
            inFlight := true, lenAtStart := s.dec.len, posSeen := 0, cntSeen := 0, posHeld := [], cntHeld := [] } })

/-- R131: ENC.START in the same way. -/
def Obligations.EncStartBeginsAnEncode : Prop :=
  ∀ (s : State),
    (s.enc.busy = true → exec .encStart s = .next s) ∧
    (s.enc.busy = false → reaches s.caps.pixShared s.enc.n.toNat = false →
      s.enc.n.toNat ≤ s.caps.pixCap → 4 * s.enc.n.toNat ≤ s.caps.outCap → 4 * s.enc.n.toNat ≤ 2 ^ 64 - 1 →
      exec .encStart s = .next
        { s with enc := { s.enc with
            i := 0, olen := 0, phase := .group
            inFlight := true, nAtStart := s.enc.n, iSeen := 0, olenSeen := 0, iHeld := [], olenHeld := [] } })

/-- R164 items 3 and 4, R52, R27: a START that breaks a duty is refused by the duty's name; overlap is looked at first. -/
def Obligations.ABrokenDutyAtStartIsRefused : Prop :=
  ∀ (s : State),
    (s.dec.busy = false → (∃ a, s.caps.srcShared = some a ∧ a < s.dec.len.toNat) →
      exec .decStart s = .refused .spacesOverlap) ∧
    (s.dec.busy = false → (∀ a, s.caps.srcShared = some a → s.dec.len.toNat ≤ a) →
      s.caps.srcCap < s.dec.len.toNat ∨ s.caps.dstCap < s.dec.w.toNat * s.dec.h.toNat →
      exec .decStart s = .refused .capacityExceeded) ∧
    (s.enc.busy = false → (∃ a, s.caps.pixShared = some a ∧ a < s.enc.n.toNat) →
      exec .encStart s = .refused .spacesOverlap) ∧
    (s.enc.busy = false → (∀ a, s.caps.pixShared = some a → s.enc.n.toNat ≤ a) →
      s.caps.pixCap < s.enc.n.toNat ∨ s.caps.outCap < 4 * s.enc.n.toNat ∨ 2 ^ 64 - 1 < 4 * s.enc.n.toNat →
      exec .encStart s = .refused .capacityExceeded)

/-! ## A step runs the decoded instruction -/

/-- At a group boundary with pixels still wanted, the step of DEC is `exec` of the group under the cursor; in RUN and LIT it
is `exec` of the group under way. The step only takes the turn off the agenda. That the next step is DEC's where the agenda
is empty and ENC BUSY too is the model's default order (log 5). -/
def Obligations.AStepRunsTheGroupUnderTheCursor : Prop :=
  ∀ (s : State), DecNext s →
    (∀ i rest, s.dec.phase = .fetch → s.dec.cnt.toNat ≠ s.dec.total →
      decode (.stream s.groupWindow) = .instr i rest → step s = exec i (popped s)) ∧
    (s.dec.phase = .run → step s = exec (.run s.dec.rem.toNat s.dec.smp) (popped s)) ∧
    (s.dec.phase = .lit → step s = exec (.lit s.samplesLeft) (popped s))

/-- A host write to a control register runs the command it decodes to. -/
def Obligations.AStepRunsTheCommandWritten : Prop :=
  ∀ (s : State) (v : Word64) (i : Instr) (rest : List Byte),
    (s.agenda.head? = some (.host (.writeDec .ctrl v)) → decode (.ctrlWrite .dec (v.setWidth 32)) = .instr i rest →
      step s = exec i (popped s)) ∧
    (s.agenda.head? = some (.host (.writeEnc .ctrl v)) → decode (.ctrlWrite .enc (v.setWidth 32)) = .instr i rest →
      step s = exec i (popped s))

/-- A table word laid by `withFetchWord` is what the very next step runs, whatever the state (log 10): a group at a group
boundary with a pixel still wanted, so that it is taken up; a command from the state as it was. -/
def Obligations.TheNextStepRunsAPlacedWord : Prop :=
  ∀ (s : State) (nbits w : Nat) (i : Instr), decodeTableWord nbits w = some i →
    step (s.withFetchWord nbits w) = exec i (popped (s.withFetchWord nbits w)) ∧
    (i.isGroup = true →
      (popped (s.withFetchWord nbits w)).dec.phase = .fetch ∧
      (popped (s.withFetchWord nbits w)).dec.cnt.toNat < (popped (s.withFetchWord nbits w)).dec.total ∧
      popped (s.withFetchWord nbits w) = s.setDec (s.withFetchWord nbits w).dec) ∧
    (i.isGroup = false → popped (s.withFetchWord nbits w) = s)

/-! ## The decoder's steps -/

/-- R91: the FETCH step, the first of the six cases whose condition holds. (`posHeld`, the past values of `DEC_POS`, is the
model's own: log 7.) -/
def Obligations.TheFetchStepHasSixCases : Prop :=
  ∀ (s : State), s.dec.phase = .fetch →
    (s.dec.cnt.toNat = s.dec.total →
      decTurn s = .next (s.setDec { s.dec with stop := .count, phase := .done })) ∧
    (s.dec.cnt.toNat ≠ s.dec.total → s.dec.len.toNat ≤ s.dec.pos.toNat →
      decTurn s = .next (s.setDec { s.dec with stop := .eob, phase := .pad })) ∧
    (s.dec.cnt.toNat ≠ s.dec.total → s.dec.pos.toNat < s.dec.len.toNat →
      ∀ c len avail, c = s.srcByte s.dec.pos.toNat → len = (c.extractLsb' 0 7).toNat + 1 →
        avail = s.dec.len.toNat - (s.dec.pos.toNat + 1) →
        (c.getLsbD 7 = true → 3 > avail → decTurn s = .next (s.setDec
          { s.dec with
            pos := s.dec.pos + 1, stop := .shortRun, phase := .pad, posHeld := s.dec.pos :: s.dec.posHeld })) ∧
        (c.getLsbD 7 = true → 3 ≤ avail → decTurn s = .next (s.setDec
          { s.dec with
            smp := ⟨s.srcByte (s.dec.pos.toNat + 3), s.srcByte (s.dec.pos.toNat + 2), s.srcByte (s.dec.pos.toNat + 1)⟩
            pos := s.dec.pos + 4, rem := BitVec.ofNat 8 len, phase := .run, posHeld := s.dec.pos :: s.dec.posHeld })) ∧
        (c.getLsbD 7 = false → 3 * len > avail → decTurn s = .next (s.setDec
          { s.dec with
            pos := s.dec.pos + 1, stop := .shortLit, phase := .pad, posHeld := s.dec.pos :: s.dec.posHeld })) ∧
        (c.getLsbD 7 = false → 3 * len ≤ avail → decTurn s = .next (s.setDec
          { s.dec with
            pos := s.dec.pos + 1, rem := BitVec.ofNat 8 len, phase := .lit, posHeld := s.dec.pos :: s.dec.posHeld })))

/-- R94: the PAD step, with its frame. -/
def Obligations.ThePadStepWritesOneBlackPixel : Prop :=
  ∀ (s : State), s.dec.phase = .pad →
    ∃ t, decTurn s = .next t ∧ OnlyDecWorks s t ∧ t.dstPixel s.dec.cnt.toNat = ⟨0, 0, 0⟩ ∧
      (∀ k, k ≠ s.dec.cnt.toNat → t.dstPixel k = s.dstPixel k) ∧
      t.dec.cnt = s.dec.cnt + 1 ∧ t.dec.pos = s.dec.pos ∧ t.dec.stop = s.dec.stop ∧ t.dec.rem = s.dec.rem ∧
      t.dec.smp = s.dec.smp ∧
      t.dec.phase = if s.dec.cnt.toNat + 1 = s.dec.total then .done else .pad

/-- R95, R120: in IDLE and DONE a unit has no step; with both units so and no host access, nothing happens. -/
def Obligations.AnIdleOrDoneUnitDoesNothing : Prop :=
  ∀ (s : State),
    (s.dec.phase = .idle ∨ s.dec.phase = .done → decTurn s = .next s) ∧
    (s.enc.phase = .idle ∨ s.enc.phase = .done → encTurn s = .next s) ∧
    (s.dec.busy = false → s.enc.busy = false → s.agenda = [] → step s = .next s)

/-- R90, R130, R161: the phase of DEC changes only along the transition table, by START, or by reset, in every step of
the whole block. -/
def Obligations.DecPhasesFollowTheTransitionTable : Prop :=
  ∀ (s t : State), step s = .next t → t.dec.phase ≠ s.dec.phase →
    (s.agenda.head? = some (.host .reset) ∧ t.dec.phase = .idle) ∨
    ((s.dec.phase = .idle ∨ s.dec.phase = .done) ∧ t.dec.phase = .fetch ∧
      ∃ v, s.agenda.head? = some (.host (.writeDec .ctrl v)) ∧ v.getLsbD 0 = true) ∨
    (DecNext s ∧ (s.dec.phase, t.dec.phase) ∈
      [(DecPhase.fetch, DecPhase.done), (.fetch, .pad), (.fetch, .run), (.fetch, .lit), (.run, .done), (.run, .fetch),
        (.lit, .done), (.lit, .fetch), (.pad, .done)])

/-- R29, R131, R161: the phase of ENC in the same way. -/
def Obligations.EncPhasesFollowTheTransitions : Prop :=
  ∀ (s t : State), step s = .next t → t.enc.phase ≠ s.enc.phase →
    (s.agenda.head? = some (.host .reset) ∧ t.enc.phase = .idle) ∨
    ((s.enc.phase = .idle ∨ s.enc.phase = .done) ∧ t.enc.phase = .group ∧
      ∃ v, s.agenda.head? = some (.host (.writeEnc .ctrl v)) ∧ v.getLsbD 0 = true) ∨
    (s.enc.phase = .group ∧ t.enc.phase = .done ∧ s.enc.i = s.enc.n)

/-- R14, R33: the stop cause changes only by the end of the decode loop (a FETCH, RUN or LIT step), by START and by reset;
PAD and DONE keep it. -/
def Obligations.TheStopCauseIsLatched : Prop :=
  ∀ (s t : State), step s = .next t → t.dec.stop ≠ s.dec.stop →
    ((s.dec.phase = .fetch ∨ s.dec.phase = .run ∨ s.dec.phase = .lit) ∧ t.dec.stop ≠ .none ∧
      (t.dec.phase = .pad ∨ t.dec.phase = .done)) ∨
    (t.dec.stop = .none ∧ (t.dec.phase = .fetch ∨ t.dec.phase = .idle))

/-- R17, R18, R21: during a decode the cursors never decrease and never pass their bounds, and the decode ends with the
pixel count reached and a stop cause recorded. -/
def Obligations.TheDecodersCursorsStayInBounds : Prop :=
  ∀ (s t : State), Inv s → s.dec.busy = true → decTurn s = .next t →
    s.dec.pos.toNat ≤ t.dec.pos.toNat ∧ t.dec.pos.toNat ≤ s.dec.len.toNat ∧
    s.dec.cnt.toNat ≤ t.dec.cnt.toNat ∧ t.dec.cnt.toNat ≤ s.dec.total ∧
    (t.dec.phase = .done → t.dec.cnt.toNat = s.dec.total ∧ t.dec.stop ≠ .none)

/-- R18, R46: a step of DEC writes at most one pixel of DST, the one at `DEC_CNT`, below `N`, and counts it: so each is
written once, in ascending order. -/
def Obligations.TheDecoderWritesEachPixelOnceInOrder : Prop :=
  ∀ (s t : State), Inv s → decTurn s = .next t →
    (t.dec.cnt = s.dec.cnt ∧ t.dec.dst = s.dec.dst) ∨
    (s.dec.cnt.toNat < s.dec.total ∧ t.dec.cnt.toNat = s.dec.cnt.toNat + 1 ∧
      ∀ k, k ≠ s.dec.cnt.toNat → t.dstPixel k = s.dstPixel k)

/-- R46: neither unit reads its input space at or past its length: what lies there has no influence on its step. -/
def Obligations.NoUnitReadsPastItsInput : Prop :=
  (∀ (s : State) (a : Nat) (v : Byte), Inv s → s.dec.len.toNat ≤ a →
    ∃ d, decTurn s = .next (s.setDec d) ∧
      decTurn (s.setDec { s.dec with src := s.dec.src.write a v }) =
        .next (s.setDec { d with src := s.dec.src.write a v })) ∧
  (∀ (s : State) (k : Nat) (v : Pixel), Inv s → s.enc.n.toNat ≤ k →
    ∃ e, encTurn s = .next (s.setEnc e) ∧
      encTurn (s.setEnc { s.enc with pix := s.enc.pix.write k v }) =
        .next (s.setEnc { e with pix := s.enc.pix.write k v }))

/-- R97: the measure `(N − DEC_CNT, phase = FETCH ? 1 : 0)` decreases lexicographically at every step of a running
decode, the one that ends it too. -/
def Obligations.TheDecodersMeasureDecreases : Prop :=
  ∀ (s t : State), Inv s → s.dec.busy = true → decTurn s = .next t →
    t.dec.total - t.dec.cnt.toNat < s.dec.total - s.dec.cnt.toNat ∨
    (t.dec.total - t.dec.cnt.toNat = s.dec.total - s.dec.cnt.toNat ∧ s.dec.phase = .fetch ∧ t.dec.phase ≠ .fetch)

/-! ## The encoder's steps -/

/-- R121: the GROUP step, with its frame. -/
def Obligations.TheGroupStepEmitsOneGroupOrFinishes : Prop :=
  ∀ (s : State), s.enc.phase = .group →
    (s.enc.i = s.enc.n → encTurn s = .next (s.setEnc { s.enc with phase := .done })) ∧
    (s.enc.i ≠ s.enc.n → ∀ c l a, c = runCount s.pixPixel s.enc.n.toNat s.enc.i.toNat →
      l = litLength s.pixPixel s.enc.n.toNat s.enc.i.toNat → a = s.enc.olen.toNat →
      ∃ t, encTurn s = .next t ∧ OnlyEncWorks s t ∧ t.enc.phase = .group ∧
        (2 ≤ c →
          t.enc.i = s.enc.i + BitVec.ofNat 64 c ∧ t.enc.olen = s.enc.olen + 4 ∧
          outAt t a 4 = [0x80 ||| BitVec.ofNat 8 (c - 1), (s.pixPixel s.enc.i.toNat).b, (s.pixPixel s.enc.i.toNat).g,
            (s.pixPixel s.enc.i.toNat).r] ∧
          ∀ b, b < a ∨ a + 4 ≤ b → t.outByte b = s.outByte b) ∧
        (c < 2 →
          t.enc.i = s.enc.i + BitVec.ofNat 64 l ∧ t.enc.olen = s.enc.olen + BitVec.ofNat 64 (1 + 3 * l) ∧
          outAt t a (1 + 3 * l) = BitVec.ofNat 8 (l - 1) ::
            (List.range' s.enc.i.toNat l).flatMap
              (fun k => [(s.pixPixel k).b, (s.pixPixel k).g, (s.pixPixel k).r]) ∧
          ∀ b, b < a ∨ a + (1 + 3 * l) ≤ b → t.outByte b = s.outByte b))

/-- R112: the run count is the largest number of the rule. -/
def Obligations.TheRunCountIsTheLargest : Prop :=
  ∀ (pix : Nat → Pixel) (n i : Nat), i < n →
    (1 ≤ runCount pix n i ∧ runCount pix n i ≤ 128 ∧ i + runCount pix n i ≤ n ∧
      ∀ j, j < runCount pix n i → pix (i + j) = pix i) ∧
    ∀ c, 1 ≤ c → c ≤ 128 → i + c ≤ n → (∀ j, j < c → pix (i + j) = pix i) → c ≤ runCount pix n i

/-- R114: a literal formed where the run count is 1 holds no two equal neighbours, and it ends only at the cap, at the end
of the sequence, or before a pixel equal to its last. -/
def Obligations.ALiteralEndsWhereTheRuleSays : Prop :=
  ∀ (pix : Nat → Pixel) (n i : Nat), i < n → runCount pix n i = 1 →
    1 ≤ litLength pix n i ∧ litLength pix n i ≤ 128 ∧ i + litLength pix n i ≤ n ∧
    (∀ j, j + 1 < litLength pix n i → pix (i + j + 1) ≠ pix (i + j)) ∧
    (litLength pix n i = 128 ∨ i + litLength pix n i = n ∨
      pix (i + litLength pix n i) = pix (i + litLength pix n i - 1))

/-- R27, R124: while an operation of ENC is in flight it has written at most 4 bytes per pixel consumed, so it never passes
`OUT_CAP`. -/
def Obligations.TheEncoderNeverOverflowsItsOutput : Prop :=
  ∀ (s : State), Inv s →
    (s.enc.inFlight = true → s.enc.olen.toNat ≤ 4 * s.enc.i.toNat) ∧
    (s.enc.busy = true → s.enc.olen.toNat ≤ s.caps.outCap)

/-! ## Agents and outcomes -/

/-- R10, R150: DEC and ENC share nothing. A step of one touches its own unit alone, and the two steps commute. -/
def Obligations.TheUnitsShareNothing : Prop :=
  ∀ (s : State), ∃ d e,
    decTurn s = .next (s.setDec d) ∧ encTurn s = .next (s.setEnc e) ∧
    encTurn (s.setDec d) = .next ((s.setDec d).setEnc e) ∧ decTurn (s.setEnc e) = .next ((s.setEnc e).setDec d)

/-- R54, R150: what a unit's step does to it depends on that unit (and, where it reads what nothing has written, on the
unspecified contents since the last reset) alone. -/
def Obligations.AUnitsStepDependsOnThatUnitAlone : Prop :=
  ∀ (s s' : State), s.epoch = s'.epoch →
    (s.dec = s'.dec → ∃ d, decTurn s = .next (s.setDec d) ∧ decTurn s' = .next (s'.setDec d)) ∧
    (s.enc = s'.enc → ∃ e, encTurn s = .next (s.setEnc e) ∧ encTurn s' = .next (s'.setEnc e))

/-- R140, R132: no step of a unit and no register access stops, but for a START that breaks a duty. -/
def Obligations.NothingStopsButABrokenDuty : Prop :=
  ∀ (s : State),
    (∃ t, decTurn s = .next t) ∧ (∃ t, encTurn s = .next t) ∧
    (∀ r, (∃ t, hostTurn (.readDec r) s = .next t)) ∧ (∀ r, (∃ t, hostTurn (.readEnc r) s = .next t)) ∧
    (∀ r v, (∃ t, hostTurn (.writeDec r v) s = .next t) ∨
      (r = .ctrl ∧ v.getLsbD 0 = true ∧ s.dec.busy = false ∧
        (reaches s.caps.srcShared s.dec.len.toNat = true ∨ s.dec.fits s.caps = false))) ∧
    (∀ r v, (∃ t, hostTurn (.writeEnc r v) s = .next t) ∨
      (r = .ctrl ∧ v.getLsbD 0 = true ∧ s.enc.busy = false ∧
        (reaches s.caps.pixShared s.enc.n.toNat = true ∨ s.enc.fits s.caps = false)))

/-- R132, R164: the inputs of a running operation cannot change under it: no step of the block but reset changes the
configuration registers or the input space of a BUSY unit, nor, until DONE has been observed, an element of the operation's
input (R164 item 1; log 22). And no step at all changes the capacities (R6, R38). -/
def Obligations.ARunningOperationKeepsItsInputs : Prop :=
  ∀ (s t : State), step s = .next t →
    t.caps = s.caps ∧
    (Inv s → s.agenda.head? ≠ some (.host .reset) →
      (s.dec.busy = true →
        t.dec.w = s.dec.w ∧ t.dec.h = s.dec.h ∧ t.dec.len = s.dec.len ∧ t.dec.src = s.dec.src ∧ t.epoch = s.epoch) ∧
      (s.enc.busy = true → t.enc.n = s.enc.n ∧ t.enc.pix = s.enc.pix ∧ t.epoch = s.epoch)) ∧
    (s.agenda.head? ≠ some (.host .reset) →
      (s.dec.inFlight = true → ∀ a, a < s.dec.lenAtStart.toNat → t.srcByte a = s.srcByte a) ∧
      (s.enc.inFlight = true → ∀ k, k < s.enc.nAtStart.toNat → t.pixPixel k = s.pixPixel k))

/-! ## Status, registers, the host -/

/-- R14, R141: the fields of `DEC_STATUS`. -/
def Obligations.TheFieldsOfDecStatus : Prop :=
  ∀ (d : Dec),
    (d.status.getLsbD 0 = true ↔ d.phase = .fetch ∨ d.phase = .run ∨ d.phase = .lit ∨ d.phase = .pad) ∧
    (d.status.getLsbD 1 = true ↔ d.phase = .done) ∧
    d.status.extractLsb' 2 3 = (match d.stop with
      | .none => 0#3
      | .count => 1#3
      | .eob => 2#3
      | .shortRun => 3#3
      | .shortLit => 4#3) ∧
    d.status.extractLsb' 5 27 = 0#27

/-- R26: `ENC_STATUS` is read-only and a pure function of the phase. -/
def Obligations.TheFieldsOfEncStatus : Prop :=
  ∀ (s : State) (v : Word64),
    (s.enc.status.getLsbD 0 = true ↔ s.enc.phase = .group) ∧
    (s.enc.status.getLsbD 1 = true ↔ s.enc.phase = .done) ∧
    s.enc.status.extractLsb' 2 30 = 0#30 ∧
    hostTurn (.writeEnc .status v) s = .next s ∧
    ∀ e : Enc, e.phase = s.enc.phase → e.status = s.enc.status

/-- R132: a read returns the register's stored value, whole, and changes nothing of the block; `DEC_CTRL` and `ENC_CTRL`
read as 0. A read of STATUS that shows DONE takes the operation out of flight (the model's own field, log 6); no other read
does. (Progress registers of a BUSY unit: the next statement but one.) -/
def Obligations.ARegisterReadReturnsTheRegister : Prop :=
  ∀ (s : State),
    hostTurn (.readDec .ctrl) s = .next { s with reply := .word 0 } ∧
    hostTurn (.readDec .status) s = .next
      { s with
        dec := { s.dec with inFlight := s.dec.inFlight && decide (s.dec.phase ≠ .done) }
        reply := .word (s.dec.status.setWidth 64) } ∧
    hostTurn (.readDec .w) s = .next { s with reply := .word (s.dec.w.setWidth 64) } ∧
    hostTurn (.readDec .h) s = .next { s with reply := .word (s.dec.h.setWidth 64) } ∧
    hostTurn (.readDec .len) s = .next { s with reply := .word s.dec.len } ∧
    (s.dec.busy = false → hostTurn (.readDec .pos) s = .next { s with reply := .word s.dec.pos }) ∧
    (s.dec.busy = false → hostTurn (.readDec .cnt) s = .next { s with reply := .word s.dec.cnt }) ∧
    hostTurn (.readEnc .ctrl) s = .next { s with reply := .word 0 } ∧
    hostTurn (.readEnc .status) s = .next
      { s with
        enc := { s.enc with inFlight := s.enc.inFlight && decide (s.enc.phase ≠ .done) }
        reply := .word (s.enc.status.setWidth 64) } ∧
    hostTurn (.readEnc .n) s = .next { s with reply := .word s.enc.n } ∧
    (s.enc.busy = false → hostTurn (.readEnc .i) s = .next { s with reply := .word s.enc.i }) ∧
    (s.enc.busy = false → hostTurn (.readEnc .olen) s = .next { s with reply := .word s.enc.olen })

/-- R132: configuration writes are stored when the unit is not BUSY and ignored when it is; writes to read-only registers
are ignored. -/
def Obligations.ConfigurationWritesAreStoredUnlessBusy : Prop :=
  ∀ (s : State) (v : Word64),
    (s.dec.busy = false →
      hostTurn (.writeDec .w v) s = .next { s with dec := { s.dec with w := v.setWidth 32 } } ∧
      hostTurn (.writeDec .h v) s = .next { s with dec := { s.dec with h := v.setWidth 32 } } ∧
      hostTurn (.writeDec .len v) s = .next { s with dec := { s.dec with len := v } }) ∧
    (s.dec.busy = true → ∀ r, hostTurn (.writeDec r v) s = .next s) ∧
    (s.enc.busy = false → hostTurn (.writeEnc .n v) s = .next { s with enc := { s.enc with n := v } }) ∧
    (s.enc.busy = true → ∀ r, hostTurn (.writeEnc r v) s = .next s) ∧
    (∀ r, r = .status ∨ r = .pos ∨ r = .cnt → hostTurn (.writeDec r v) s = .next s) ∧
    (∀ r, r = .status ∨ r = .i ∨ r = .olen → hostTurn (.writeEnc r v) s = .next s)

/-- R132, U8: a progress register read while BUSY shows a value it has held since START, from the one last shown up to the
present one, so that successive reads never decrease; this holds whatever the free choice is (log 7). That the `…Held`
lists are the values held is `TheHeldValuesAreThoseHeldSinceStart`. -/
def Obligations.ProgressReadsNeverDecreaseNorOvertake : Prop :=
  ∀ (s : State), Inv s →
    (s.dec.busy = true →
      (∃ t v, hostTurn (.readDec .pos) s = .next t ∧ t.reply = .word v ∧ (v = s.dec.pos ∨ v ∈ s.dec.posHeld) ∧
        s.dec.posSeen ≤ v ∧ v ≤ s.dec.pos ∧ t.dec = { s.dec with posSeen := v } ∧ t.enc = s.enc) ∧
      (∃ t v, hostTurn (.readDec .cnt) s = .next t ∧ t.reply = .word v ∧ (v = s.dec.cnt ∨ v ∈ s.dec.cntHeld) ∧
        s.dec.cntSeen ≤ v ∧ v ≤ s.dec.cnt ∧ t.dec = { s.dec with cntSeen := v } ∧ t.enc = s.enc)) ∧
    (s.enc.busy = true →
      (∃ t v, hostTurn (.readEnc .i) s = .next t ∧ t.reply = .word v ∧ (v = s.enc.i ∨ v ∈ s.enc.iHeld) ∧
        s.enc.iSeen ≤ v ∧ v ≤ s.enc.i ∧ t.enc = { s.enc with iSeen := v } ∧ t.dec = s.dec) ∧
      (∃ t v, hostTurn (.readEnc .olen) s = .next t ∧ t.reply = .word v ∧ (v = s.enc.olen ∨ v ∈ s.enc.olenHeld) ∧
        s.enc.olenSeen ≤ v ∧ v ≤ s.enc.olen ∧ t.enc = { s.enc with olenSeen := v } ∧ t.dec = s.dec))

/-- R132, U8 (the fields are the model's own, log 7): `posHeld`, `cntHeld`, `iHeld` and `olenHeld` are exactly the values the
register has held since START before its present one: none at START, and in every step of the block during the operation
the value left where the register changes, nothing where it does not. -/
def Obligations.TheHeldValuesAreThoseHeldSinceStart : Prop :=
  ∀ (s t : State), step s = .next t →
    (t.dec.busy = true →
      (s.dec.busy = false → t.dec.pos = 0 ∧ t.dec.posHeld = [] ∧ t.dec.cnt = 0 ∧ t.dec.cntHeld = []) ∧
      (s.dec.busy = true →
        (t.dec.pos = s.dec.pos → t.dec.posHeld = s.dec.posHeld) ∧
        (t.dec.pos ≠ s.dec.pos → t.dec.posHeld = s.dec.pos :: s.dec.posHeld) ∧
        (t.dec.cnt = s.dec.cnt → t.dec.cntHeld = s.dec.cntHeld) ∧
        (t.dec.cnt ≠ s.dec.cnt → t.dec.cntHeld = s.dec.cnt :: s.dec.cntHeld))) ∧
    (t.enc.busy = true →
      (s.enc.busy = false → t.enc.i = 0 ∧ t.enc.iHeld = [] ∧ t.enc.olen = 0 ∧ t.enc.olenHeld = []) ∧
      (s.enc.busy = true →
        (t.enc.i = s.enc.i → t.enc.iHeld = s.enc.iHeld) ∧
        (t.enc.i ≠ s.enc.i → t.enc.iHeld = s.enc.i :: s.enc.iHeld) ∧
        (t.enc.olen = s.enc.olen → t.enc.olenHeld = s.enc.olenHeld) ∧
        (t.enc.olen ≠ s.enc.olen → t.enc.olenHeld = s.enc.olen :: s.enc.olenHeld)))

/-- R164 items 1 and 2, R167, U7, HV13: the host's writes of an input space are refused while the unit is BUSY, and those of
the operation's input until DONE has been observed; its writes of an output space are refused until then (the windows are
the model's reading: logs 6, 22). -/
def Obligations.SpaceWritesInFlightAreRefused : Prop :=
  ∀ (s : State) (a : Nat) (v : Byte) (p : Pixel),
    (s.dec.busy = true ∨ (s.dec.inFlight = true ∧ a < s.dec.lenAtStart.toNat) → a < s.caps.srcCap →
      hostTurn (.writeSrc a v) s = .refused .inputNotStable) ∧
    (s.dec.inFlight = true → a < s.caps.dstCap → hostTurn (.writeDst a p) s = .refused .outputNotPrivate) ∧
    (s.enc.busy = true ∨ (s.enc.inFlight = true ∧ a < s.enc.nAtStart.toNat) → a < s.caps.pixCap →
      hostTurn (.writePix a p) s = .refused .inputNotStable) ∧
    (s.enc.inFlight = true → a < s.caps.outCap → hostTurn (.writeOut a v) s = .refused .outputNotPrivate)

/-- R50 (b), R166: once the host has read DONE = 1, every element of the output it reads is what the unit left there.
Before that, between START and the observation, what the read returns tells nothing of what the space holds (U6; the
window is log 6's, the free value log 8's). -/
def Obligations.OutputsReadAsTheResultOnceDoneIsObserved : Prop :=
  ∀ (s : State) (k : Nat),
    (s.dec.phase = .done → k < s.caps.dstCap →
      ∃ t u, hostTurn (.readDec .status) s = .next t ∧ t.reply = .word (s.dec.status.setWidth 64) ∧
        hostTurn (.readDst k) t = .next u ∧ u.reply = .pixel (s.dstPixel k) ∧ u.dec = t.dec) ∧
    (s.enc.phase = .done → k < s.caps.outCap →
      ∃ t u, hostTurn (.readEnc .status) s = .next t ∧ t.reply = .word (s.enc.status.setWidth 64) ∧
        hostTurn (.readOut k) t = .next u ∧ u.reply = .byte (s.outByte k) ∧ u.enc = t.enc) ∧
    (s.dec.inFlight = true → k < s.caps.dstCap → ∀ m : Memory Pixel,
      ∃ t t', hostTurn (.readDst k) s = .next t ∧
        hostTurn (.readDst k) (s.setDec { s.dec with dst := m }) = .next t' ∧ t'.reply = t.reply) ∧
    (s.enc.inFlight = true → k < s.caps.outCap → ∀ m : Memory Byte,
      ∃ t t', hostTurn (.readOut k) s = .next t ∧
        hostTurn (.readOut k) (s.setEnc { s.enc with out := m }) = .next t' ∧ t'.reply = t.reply)

/-! ## Reset -/

/-- R37: the values of the table. -/
def Obligations.TheResetValues : Prop :=
  State.reset.dec.phase = .idle ∧ State.reset.dec.status = 0 ∧ State.reset.dec.stop = .none ∧
  (∀ r, State.reset.dec.regValue r = 0) ∧ State.reset.dec.rem = 0 ∧ State.reset.dec.smp = ⟨0, 0, 0⟩ ∧
  State.reset.enc.phase = .idle ∧ State.reset.enc.status = 0 ∧ (∀ r, State.reset.enc.regValue r = 0) ∧
  (∀ a, State.reset.dec.src.read a = none ∧ State.reset.dec.dst.read a = none ∧
    State.reset.enc.pix.read a = none ∧ State.reset.enc.out.read a = none)

/-- R160, R161: reset at any time puts both units in IDLE with every register at its reset value; no unit steps until its
START. -/
def Obligations.ResetAbandonsEveryOperation : Prop :=
  ∀ (s : State), ∃ t, hostTurn .reset s = .next t ∧ t.dec = State.reset.dec ∧ t.enc = State.reset.enc ∧
    decTurn t = .next t ∧ encTurn t = .next t

/-! ## The invariant -/

/-- The invariant holds after reset. -/
def Obligations.TheInvariantHoldsAfterReset : Prop := Inv State.reset

/-- R21, R30: every step of the block, whoever's turn it is, keeps the invariant. -/
def Obligations.EveryStepKeepsTheInvariant : Prop :=
  ∀ (s t : State), Inv s → step s = .next t → Inv t

/-! ## The two layers -/

/-- R80, R88, R98 (a), (b): the decode function gives exactly `N` pixels for every block, has one of the four causes,
and consumes no more than the block; the decoded pixels come first, the rest is BLACK, and all are decoded exactly when
the cause is COUNT. -/
def Obligations.DecodeGivesExactlyNPixelsBlackAtTheEnd : Prop :=
  ∀ (block : List Byte) (n : Nat),
    (decodeBlock block n).out.length = n ∧ (decodeBlock block n).cause ≠ .none ∧
    (decodeBlock block n).pos ≤ block.length ∧
    ∃ d, d ≤ n ∧
      (decodeBlock block n).out.take d = (decodeLoop block n (n + 1) [] 0).out ∧
      (decodeBlock block n).out.drop d = List.replicate (n - d) Pixel.black ∧
      (d = n ↔ (decodeBlock block n).cause = .count)

/-- R98 (c): the result depends only on `N`, the block's length and the bytes before the final cursor. -/
def Obligations.DecodeReadsNothingPastItsFinalCursor : Prop :=
  ∀ (block block' : List Byte) (n : Nat), block'.length = block.length →
    block'.take (decodeBlock block n).pos = block.take (decodeBlock block n).pos →
    decodeBlock block' n = decodeBlock block n

/-- R98 (d): after a COUNT stop nothing appended to the block matters. -/
def Obligations.AfterCountNothingAppendedMatters : Prop :=
  ∀ (block more : List Byte) (n : Nat), (decodeBlock block n).cause = .count →
    decodeBlock (block ++ more) n = decodeBlock block n

/-- R71: zero padding decodes to BLACK, as finalization would give. -/
def Obligations.ZeroPaddingDecodesToBlack : Prop :=
  ∀ (m n : Nat), (decodeBlock (List.replicate m 0) n).out = List.replicate n Pixel.black

/-- R123: the structure of the reference encoding, (a) to (f). -/
def Obligations.TheReferenceEncodingIsStructured : Prop :=
  ∀ (ps : List Pixel),
    (encodeGroups ps).flatMap spelled = ps ∧ ((encodeGroups ps).map Instr.pixels).sum = ps.length ∧
    ∀ (before : List Instr) (g : Instr) (after : List Instr), encodeGroups ps = before ++ g :: after →
      g.isGroup = true ∧ g.wf = true ∧
      (∀ len px, g = .run len px → 2 ≤ len ∧
        (len < 128 → after ≠ [] → (after.flatMap spelled).head? ≠ some px)) ∧
      (∀ samples, g = .lit samples →
        (samples.length = 1 → after = []) ∧
        (∀ j p q, samples[j]? = some p → samples[j + 1]? = some q → p ≠ q) ∧
        (samples.length < 128 → after ≠ [] → (after.flatMap spelled).head? = samples.getLast?))

/-- R124: the size of the reference encoding. -/
def Obligations.TheReferenceEncodingIsBoundedInSize : Prop :=
  ∀ (ps : List Pixel),
    4 * ((ps.length + 127) / 128) ≤ (encodePixels ps).length ∧ (encodePixels ps).length ≤ 4 * ps.length

/-- R125: the round-trip law, with any bytes appended. -/
def Obligations.DecodingTheReferenceEncodingGivesThePixelsBack : Prop :=
  ∀ (ps : List Pixel) (more : List Byte),
    decodeBlock (encodePixels ps ++ more) ps.length =
      ⟨ps, if ps = [] then 0 else (encodePixels ps).length, .count⟩

/-- R96, R97: a decode started and left undisturbed reaches DONE within `2 N + 1` steps (`2 N` for `N ≥ 1`) and leaves what
the decode function gives. Of the rest, `rem` and `smp` are left free (R19: no rule uses them in DONE) and nothing else of
the block changes. With ENC BUSY too, that ENC is unchanged rests on the model's default order, DEC before ENC (log 5). -/
def Obligations.ADecodeComputesTheDecodeFunction : Prop :=
  ∀ (s u : State), s.agenda = [] → s.dec.busy = false → exec .decStart s = .next u →
    ∃ k t, k ≤ 2 * s.dec.total + 1 ∧ (1 ≤ s.dec.total → k ≤ 2 * s.dec.total) ∧ runs k u = .next t ∧
      t.dec.phase = .done ∧ t.dec.busy = false ∧ t.dec.isDone = true ∧ t.dec.cnt.toNat = s.dec.total ∧
      t.dstPixels s.dec.total = (decodeBlock (s.srcBytes 0 s.dec.len.toNat) s.dec.total).out ∧
      t.dec.pos.toNat = (decodeBlock (s.srcBytes 0 s.dec.len.toNat) s.dec.total).pos ∧
      t.dec.stop = (decodeBlock (s.srcBytes 0 s.dec.len.toNat) s.dec.total).cause ∧
      (∀ j, s.dec.total ≤ j → t.dstPixel j = s.dstPixel j) ∧ OnlyDecWorks u t

/-- R122: an encode started and left undisturbed reaches DONE after exactly `m + 1` steps, `m` the number of groups, and
leaves the reference encoding; nothing else of the block changes. Both units are idle before, so no default order is
used. -/
def Obligations.AnEncodeComputesTheReferenceEncoding : Prop :=
  ∀ (s u : State), s.agenda = [] → s.dec.busy = false → s.enc.busy = false → exec .encStart s = .next u →
    (∀ j t, j < (encodeGroups (s.pixPixels s.enc.n.toNat)).length + 1 → runs j u = .next t → t.enc.phase = .group) ∧
    ∃ t, runs ((encodeGroups (s.pixPixels s.enc.n.toNat)).length + 1) u = .next t ∧
      t.enc.phase = .done ∧ t.enc.busy = false ∧ t.enc.isDone = true ∧ t.enc.i = s.enc.n ∧
      t.outBytes t.enc.olen.toNat = encodePixels (s.pixPixels s.enc.n.toNat) ∧
      (∀ a, t.enc.olen.toNat ≤ a → t.outByte a = s.outByte a) ∧ OnlyEncWorks u t
end

