-- ==== Sys2Proof/Tests/Slice0.lean ====
section
/-! SUPPORT. The model's own tests. Expected values are those of spec/95_test_vectors.md (named by vector or program) or
are worked out by hand from the rule named; then, for every statement with hypotheses, a concrete state and operands that
meet them. -/

namespace Sys2Proof.Tests

open Sys2Proof.Machine Sys2Proof.Safety

/-! ## Small states -/

/-- Pixel `A` of 95_test_vectors.md. -/
def pxA : Pixel := ⟨10, 20, 30⟩

/-- Pixel `B` of 95_test_vectors.md. -/
def pxB : Pixel := ⟨40, 50, 60⟩

/-- A state with the given decoder. -/
def withDec (d : Dec) : State := { State.reset with dec := d }

/-- A state with the given encoder. -/
def withEnc (e : Enc) : State := { State.reset with enc := e }

/-- A state with one turn on its agenda. -/
def withTurn (s : State) (e : Event) : State := { s with agenda := [e] }

/-- A decoder started on a block, for `w × h` pixels. -/
def started (block : List Byte) (w h : Word32) : Dec :=
  { Dec.reset with
    phase := .fetch, w := w, h := h, len := BitVec.ofNat 64 block.length, src := Memory.writeList [] 0 block
    inFlight := true, lenAtStart := BitVec.ofNat 64 block.length }

/-- DV1: `81 1E 14 0A`, 2 × 1 (HV2). -/
def dv1 : Dec := started [0x81, 0x1E, 0x14, 0x0A] 2 1

/-- DV2: `02 03 02 01 06 05 04 09 08 07`, 3 × 1. -/
def dv2 : Dec := started [0x02, 0x03, 0x02, 0x01, 0x06, 0x05, 0x04, 0x09, 0x08, 0x07] 3 1

/-- P1 and DV13 at its seventh step, a RUN 3 with 2 of its 3 sample bytes. -/
def dv13 : Dec :=
  { started [0x81, 1, 2, 3, 1, 4, 5, 6, 7, 8, 9, 0x82, 0x0A, 0x0B] 3 2 with pos := 11, cnt := 4 }

/-- DV1 with its run taken up (P2, after step 1). -/
def dv1Run : Dec := { dv1 with phase := .run, pos := 4, rem := 2, smp := pxA, posHeld := [0] }

/-- P2 before its step 5: one sample of a literal of 2 left to use, pixels 0 and 1 written. -/
def p2Lit : Dec :=
  { started [0x81, 1, 2, 3, 1, 4, 5, 6, 7, 8, 9] 3 1 with phase := .lit, pos := 5, cnt := 2, rem := 2 }

/-- P1 before its step 8. -/
def p1Pad : Dec := { dv13 with phase := .pad, pos := 12, stop := .shortRun }

/-- A decoder in DONE. -/
def dv1Done : Dec := { dv1 with phase := .done, pos := 4, cnt := 2, stop := .count }

/-- An encoder started on a pixel sequence. -/
def encStarted (ps : List Pixel) : Enc :=
  { Enc.reset with
    phase := .group, n := BitVec.ofNat 64 ps.length, pix := Memory.writeList [] 0 ps, inFlight := true
    nAtStart := BitVec.ofNat 64 ps.length }

/-- EV7: `[A, A, B]`. -/
def ev7 : Enc := encStarted [pxA, pxA, pxB]

/-- EV5: `[A, B, B]`. -/
def ev5 : Enc := encStarted [pxA, pxB, pxB]

/-- EV7 after its two groups. -/
def ev7End : Enc := { ev7 with i := 3, olen := 8, out := Memory.writeList [] 0 [0x81, 0x1E, 0x14, 0x0A, 0, 0x3C, 0x32, 0x28] }

/-- EV7 in DONE. -/
def ev7Done : Enc := { ev7End with phase := .done }

/-- Both units at work. -/
def both : State := { State.reset with dec := dv1, enc := encStarted [pxA, pxA] }

/-- A state in IDLE configured for DV1, with exactly the capacities it takes. -/
def ready : State :=
  { State.reset with
    dec := { dv1 with phase := .idle, inFlight := false, lenAtStart := 0 }
    enc := { ev7 with phase := .idle, inFlight := false, nAtStart := 0 }
    caps := { srcCap := 4, dstCap := 2, pixCap := 3, outCap := 12, srcShared := some 4, pixShared := some 3 } }

/-- The decoder of the next state. -/
def decAfter (o : Host.Outcome State Fault Refusal) : Option Dec := (nextState o).map State.dec

/-- The encoder of the next state. -/
def encAfter (o : Host.Outcome State Fault Refusal) : Option Enc := (nextState o).map State.enc

/-! ## Well-formedness: the ill-formed terms are refused -/

theorem test_run_of_zero_is_ill_formed : (Instr.run 0 pxA).wf = false := by decide
theorem test_run_of_129_is_ill_formed : (Instr.run 129 pxA).wf = false := by decide
theorem test_empty_literal_is_ill_formed : (Instr.lit []).wf = false := by decide
theorem test_literal_of_129_is_ill_formed : (Instr.lit (List.replicate 129 pxA)).wf = false := by
  decide +kernel
theorem test_longest_groups_are_well_formed :
    (Instr.run 128 pxA).wf = true ∧ (Instr.lit (List.replicate 128 pxA)).wf = true := by
  decide +kernel

/-! ## Decoding, bit by bit (R63, R64, R73, R130, R131) -/

/-- `1 0000001`, `0001 1110`, `0001 0100`, `0000 1010`: RUN 2, (10, 20, 30) (R73). -/
theorem test_decode_run :
    decode (.stream [0b10000001, 0b00011110, 0b00010100, 0b00001010]) = .instr (.run 2 pxA) [] := by decide

/-- `0 0000001` and two samples: LIT 2, (3, 2, 1), (6, 5, 4), with a byte after it (R64). -/
theorem test_decode_lit :
    decode (.stream [0b00000001, 1, 2, 3, 4, 5, 6, 0xAA]) = .instr (.lit [⟨3, 2, 1⟩, ⟨6, 5, 4⟩]) [0xAA] := by decide

/-- DEC.START: any value with bit 0 set, here bits 31 and 0 (R13). -/
theorem test_decode_decStart :
    decode (.ctrlWrite .dec 0b10000000000000000000000000000001) = .instr .decStart [] := by decide

/-- ENC.START: `0x00000001` (R25). -/
theorem test_decode_encStart :
    decode (.ctrlWrite .enc 0b00000000000000000000000000000001) = .instr .encStart [] := by decide

/-- The rejections: no byte, DV4, DV5 (as a block), a write with bit 0 clear (HV3). -/
theorem test_decode_rejects :
    decode (.stream []) = .reject .endOfBlock ∧ decode (.stream [0x85, 1, 2]) = .reject .shortRun ∧
    decode (.stream [0x01, 1, 2, 3]) = .reject .shortLit ∧ decode (.ctrlWrite .dec 0xFFFFFFFE) = .reject .noCommand := by
  decide

/-- R73's two examples, encoded. -/
theorem test_encode_examples :
    encode (.run 2 pxA) = .stream [0x81, 0x1E, 0x14, 0x0A] ∧
    encode (.lit [⟨1, 2, 3⟩, ⟨4, 5, 6⟩, ⟨7, 8, 9⟩]) =
      .stream [0x02, 0x03, 0x02, 0x01, 0x06, 0x05, 0x04, 0x09, 0x08, 0x07] := by decide

/-- The table's words (assumption log 10). -/
theorem test_table_words :
    decodeTableWord 8 0x80 = some (.run 1 Pixel.black) ∧ decodeTableWord 8 0 = some (.lit [Pixel.black]) ∧
    decodeTableWord 32 0x0A141E81 = some (.run 2 pxA) ∧ decodeTableWord 32 1 = some .decStart := by decide

/-! ## One step each -/

/-- P1 step 1 (DV1's block): case 4. -/
theorem test_run_is_taken_up : decAfter (step (withDec dv1)) = some dv1Run := by decide

/-- R92's example: the first of two copies; the phase stays RUN. -/
theorem test_run_step :
    decAfter (step (withDec dv1Run)) = some { dv1Run with dst := [(0, pxA)], cnt := 1, rem := 1, cntHeld := [0] } := by decide

/-- P2 step 4: case 6. -/
theorem test_lit_is_taken_up :
    decAfter (step (withDec dv2)) = some { dv2 with phase := .lit, pos := 1, rem := 3, posHeld := [0] } := by decide

/-- R93's example (P2 step 5): the sample `04 05 06` becomes pixel (6, 5, 4), and the count stops the loop. -/
theorem test_lit_step :
    decAfter (step (withDec p2Lit)) =
      some { p2Lit with
        dst := [(2, ⟨6, 5, 4⟩)], pos := 8, cnt := 3, rem := 1, stop := .count, phase := .done, posHeld := [5], cntHeld := [2] } := by
  decide

/-- R91's example (P1 step 7): case 3. -/
theorem test_short_run_stops :
    decAfter (step (withDec dv13)) = some { dv13 with pos := 12, stop := .shortRun, phase := .pad, posHeld := [11] } := by
  decide

/-- R94's example (P1 step 8). -/
theorem test_pad_step :
    decAfter (step (withDec p1Pad)) = some { p1Pad with dst := [(4, ⟨0, 0, 0⟩)], cnt := 5, cntHeld := [4] } := by
  decide

/-- HV2: START by the host's write, from IDLE. -/
theorem test_decStart_by_host_write :
    decAfter (step (withTurn ready (.host (.writeDec .ctrl 1)))) = some dv1 := by decide

/-- HV5: START while BUSY changes nothing. -/
theorem test_decStart_while_busy :
    decAfter (step (withTurn (withDec dv1Run) (.host (.writeDec .ctrl 1)))) = some dv1Run := by decide

/-- HV10: ENC.START. -/
theorem test_encStart_by_host_write :
    encAfter (step (withTurn ready (.host (.writeEnc .ctrl 1)))) = some ev7 := by decide

/-- R121's example, first step: RUN 2. -/
theorem test_group_step_emits_a_run :
    encAfter (step (withEnc ev7)) =
      some { ev7 with
        i := 2, olen := 4, out := [(0, 0x81), (1, 0x1E), (2, 0x14), (3, 0x0A)], iHeld := [0], olenHeld := [0] } := by decide

/-- EV5, first step: the literal absorbs the first `B`. -/
theorem test_group_step_emits_a_literal :
    encAfter (step (withEnc ev5)) =
      some { ev5 with
        i := 2, olen := 7, iHeld := [0], olenHeld := [0]
        out := [(0, 0x01), (1, 0x1E), (2, 0x14), (3, 0x0A), (4, 0x3C), (5, 0x32), (6, 0x28)] } := by decide

/-- `DEC_STATUS` as 95_test_vectors.md lists it: 0x01 BUSY (HV2), 0x0E DONE with SHORT_RUN, 0x06 DONE with COUNT. -/
theorem test_status_values :
    dv1.status = 0x01 ∧ { p1Pad with phase := DecPhase.done }.status = 0x0E ∧ dv1Done.status = 0x06 ∧
    ev7.status = 0x1 := by decide

/-- The first step after reset runs a placed word of each kind. -/
theorem test_placed_words_run :
    (decAfter (step (State.reset.withFetchWord 8 0x80))).map Dec.phase = some .run ∧
    (decAfter (step (State.reset.withFetchWord 8 0x00))).map Dec.phase = some .lit ∧
    (decAfter (step (State.reset.withFetchWord 32 0x01))).map Dec.phase = some .fetch := by decide

/-- R132: a read while BUSY may show the values 0 and 4 that `DEC_POS` has held, and after 4 has been shown only 4. -/
theorem test_progress_choices :
    progressChoices dv1Run.posHeld dv1Run.posSeen dv1Run.pos = [4, 0] ∧
    progressChoices dv1Run.posHeld 4 dv1Run.pos = [4] := by decide

/-- HV13: the host writes SRC while DEC is BUSY. -/
theorem test_input_write_while_busy_is_refused :
    hostTurn (.writeSrc 0 7) (withDec dv1) = .refused .inputNotStable := by rfl

/-- R167: in DONE, not yet observed, the host may load SRC past the block but not the block (R164 item 1). -/
theorem test_input_write_in_done :
    decAfter (hostTurn (.writeSrc 4 7) (withDec dv1Done)) =
      some { dv1Done with src := [(0, 0x81), (1, 0x1E), (2, 0x14), (3, 0x0A), (4, 7)] } ∧
    decAfter (hostTurn (.writeSrc 3 7) (withDec dv1Done)) = none := by decide

/-! ## The two functions of the source -/

/-- DV13, DV5, DV1b: the decode function on blocks of each SHORT cause and EOB. -/
theorem test_decode_function :
    decodeBlock [0x81, 1, 2, 3, 1, 4, 5, 6, 7, 8, 9, 0x82, 0x0A, 0x0B] 6 =
      ⟨[⟨3, 2, 1⟩, ⟨3, 2, 1⟩, ⟨6, 5, 4⟩, ⟨9, 8, 7⟩, ⟨0, 0, 0⟩, ⟨0, 0, 0⟩], 12, .shortRun⟩ ∧
    decodeBlock [0x01, 1, 2, 3] 1 = ⟨[⟨0, 0, 0⟩], 1, .shortLit⟩ ∧
    decodeBlock [0x80, 0x1E, 0x14, 0x0A] 2 = ⟨[pxA, ⟨0, 0, 0⟩], 4, .eob⟩ := by decide

/-- EV6, EV8b: the encode function where a literal absorbs a pixel, and at the cap of a run. -/
theorem test_encode_function :
    encodePixels [pxA, pxB, pxB, pxB] = [0x01, 0x1E, 0x14, 0x0A, 0x3C, 0x32, 0x28, 0x81, 0x3C, 0x32, 0x28] ∧
    encodePixels (List.replicate 129 pxA) = [0xFF, 0x1E, 0x14, 0x0A, 0x00, 0x1E, 0x14, 0x0A] := by
  decide +kernel

/-! ## Witnesses: the hypotheses of the statements are met -/

theorem both_inv : Inv both := by
  refine ⟨?_, ?_, ?_⟩
  rotate_left 2
  · constructor <;> decide
  · constructor
    case held => exact fun _ => ⟨fun _ h => (List.not_mem_nil h).elim, fun _ h => (List.not_mem_nil h).elim⟩
    all_goals decide
  · constructor
    case held => exact fun _ => ⟨fun _ h => (List.not_mem_nil h).elim, fun _ h => (List.not_mem_nil h).elim⟩
    case boundary => exact fun _ => ⟨[], encodeGroups (both.pixPixels both.enc.n.toNat), rfl, rfl, rfl⟩
    all_goals decide

theorem witness_DecodingInvertsEncoding :
    (Instr.run 1 pxA).wf = true ∧ (Instr.run 128 pxA).wf = true ∧ (Instr.lit [pxA]).wf = true ∧
    (Instr.lit (List.replicate 128 pxB)).wf = true ∧ (Instr.lit [pxA]).isGroup = true ∧ Instr.decStart.wf = true := by
  decide +kernel

theorem witness_EncodingInvertsDecoding :
    decode (.stream [0x80, 9, 8, 7, 0xFF]) = .instr (.run 1 ⟨7, 8, 9⟩) [0xFF] := by decide

theorem witness_EveryControlByteIsLegal :
    groupBytes 0x7F ≤ (List.replicate 384 (0 : Byte)).length + 1 ∧ groupBytes 0x80 ≤ [1, 2, (3 : Byte)].length + 1 := by
  decide +kernel

theorem witness_TheControlByteTellsTheGroupsLength :
    (Instr.run 128 pxA).wf = true ∧ encodeGroup (.run 128 pxA) = 0xFF :: [0x1E, 0x14, 0x0A] ∧
    (Instr.lit [pxA]).wf = true ∧ encodeGroup (.lit [pxA]) = 0x00 :: [0x1E, 0x14, 0x0A] := by decide

theorem witness_OnlyBitZeroOfAControlWriteCounts :
    (3 : Word64).getLsbD 0 = (1 : Word64).getLsbD 0 ∧ (2 : Word64).getLsbD 0 = (0 : Word64).getLsbD 0 ∧
    (2 : Word64).getLsbD 0 = false := by decide

theorem witness_AHostWriteChangesOneElement :
    3 < ready.caps.srcCap ∧ 1 < ready.caps.dstCap ∧ 2 < ready.caps.pixCap ∧ 11 < ready.caps.outCap ∧
    ready.dec.inFlight = false ∧ ready.enc.inFlight = false ∧ ready.dec.busy = false ∧ ready.enc.busy = false ∧
    dv1Done.inFlight = true ∧ dv1Done.busy = false ∧ dv1Done.lenAtStart.toNat ≤ 4 ∧ ev7Done.inFlight = true ∧
    ev7Done.busy = false ∧ ev7Done.nAtStart.toNat ≤ 3 := by decide

theorem witness_MemoriesThatReadAlikeAreEqual :
    Memory.wf ([(0, 1), (7, 2)] : Memory Byte) = true ∧ Memory.wf ([(0, pxA), (7, pxB)] : Memory Pixel) = true := by decide

theorem witness_GroupsAreTakenUpAtAGroupBoundary : (withDec dv1).dec.phase = .fetch := by decide

theorem witness_TheRunStepWritesOneCopyOfTheSample :
    (withDec dv1Run).dec.phase = .run ∧ (withDec { dv1Run with cnt := 1 }).dec.cnt.toNat + 1 = dv1Run.total ∧
    (withDec dv1Run).dec.cnt.toNat + 1 ≠ dv1Run.total := by decide

theorem witness_TheLitStepReadsAndWritesOneSample :
    (withDec p2Lit).dec.phase = .lit ∧ p2Lit.cnt.toNat + 1 = p2Lit.total ∧
    ({ p2Lit with cnt := 0 } : Dec).cnt.toNat + 1 ≠ p2Lit.total := by decide

theorem witness_AWholeRunWritesItsCopies :
    (withDec dv1).agenda = [] ∧ (withDec dv1).dec.phase = .fetch ∧ (withDec dv1).dec.cnt.toNat < (withDec dv1).dec.total ∧
    decode (.stream (withDec dv1).groupWindow) = .instr (.run 2 pxA) [] := by decide

theorem witness_AWholeLiteralWritesItsSamples :
    (withDec dv2).agenda = [] ∧ (withDec dv2).dec.phase = .fetch ∧ (withDec dv2).dec.cnt.toNat < (withDec dv2).dec.total ∧
    decode (.stream (withDec dv2).groupWindow) = .instr (.lit [⟨1, 2, 3⟩, ⟨4, 5, 6⟩, ⟨7, 8, 9⟩]) [] := by decide

theorem witness_DecStartBeginsADecode :
    (withDec dv1).dec.busy = true ∧ ready.dec.busy = false ∧ reaches ready.caps.srcShared ready.dec.len.toNat = false ∧
    ready.dec.len.toNat ≤ ready.caps.srcCap ∧ ready.dec.w.toNat * ready.dec.h.toNat ≤ ready.caps.dstCap := by decide

theorem witness_EncStartBeginsAnEncode :
    (withEnc ev7).enc.busy = true ∧ ready.enc.busy = false ∧ reaches ready.caps.pixShared ready.enc.n.toNat = false ∧
    ready.enc.n.toNat ≤ ready.caps.pixCap ∧ 4 * ready.enc.n.toNat ≤ ready.caps.outCap ∧
    4 * ready.enc.n.toNat ≤ 2 ^ 64 - 1 := by decide

/-- `ready` with storage shared from the last element of each input on. -/
def sharing : State := { ready with caps := { ready.caps with srcShared := some 3, pixShared := some 2 } }

/-- `ready` with every capacity one short, and storage shared only past the inputs. -/
def tight : State :=
  { ready with caps := { srcCap := 3, dstCap := 1, pixCap := 2, outCap := 11, srcShared := some 4, pixShared := none } }

/-- An encode of 2^62 pixels where nothing bounds the capacities. -/
def huge : State :=
  { ready with
    enc := { ready.enc with n := 0x4000000000000000 }
    caps := { srcCap := 4, dstCap := 2, pixCap := 2 ^ 62, outCap := 2 ^ 64, srcShared := none, pixShared := none } }

theorem witness_ABrokenDutyAtStartIsRefused :
    sharing.dec.busy = false ∧ sharing.caps.srcShared = some 3 ∧ 3 < sharing.dec.len.toNat ∧
    sharing.enc.busy = false ∧ sharing.caps.pixShared = some 2 ∧ 2 < sharing.enc.n.toNat ∧
    tight.dec.busy = false ∧ tight.caps.srcShared = some 4 ∧ tight.dec.len.toNat ≤ 4 ∧
    tight.caps.srcCap < tight.dec.len.toNat ∧
    tight.caps.dstCap < tight.dec.w.toNat * tight.dec.h.toNat ∧ tight.enc.busy = false ∧ tight.caps.pixShared = none ∧
    tight.caps.pixCap < tight.enc.n.toNat ∧ tight.caps.outCap < 4 * tight.enc.n.toNat ∧
    huge.enc.busy = false ∧ huge.caps.pixShared = none ∧ 2 ^ 64 - 1 < 4 * huge.enc.n.toNat := by decide

theorem witness_AStepRunsTheGroupUnderTheCursor :
    DecNext (withDec dv1) ∧ DecNext (withTurn (withDec dv2) .decTurn) ∧ (withDec dv1).dec.phase = .fetch ∧
    (withDec dv1).dec.cnt.toNat ≠ (withDec dv1).dec.total ∧
    decode (.stream (withDec dv1).groupWindow) = .instr (.run 2 pxA) [] ∧ DecNext (withDec dv1Run) ∧
    (withDec dv1Run).dec.phase = .run ∧ DecNext (withDec p2Lit) ∧ (withDec p2Lit).dec.phase = .lit :=
  ⟨.inl rfl, .inr rfl, by decide, by decide, by decide, .inl rfl, by decide, .inl rfl, by decide⟩

theorem witness_AStepRunsTheCommandWritten :
    (withTurn ready (.host (.writeDec .ctrl 1))).agenda.head? = some (.host (.writeDec .ctrl 1)) ∧
    decode (.ctrlWrite .dec ((1 : Word64).setWidth 32)) = .instr .decStart [] ∧
    (withTurn ready (.host (.writeEnc .ctrl 1))).agenda.head? = some (.host (.writeEnc .ctrl 1)) ∧
    decode (.ctrlWrite .enc ((1 : Word64).setWidth 32)) = .instr .encStart [] := by decide

theorem witness_TheNextStepRunsAPlacedWord :
    decodeTableWord 32 0x0A141E81 = some (.run 2 pxA) ∧ (Instr.run 2 pxA).isGroup = true ∧
    decodeTableWord 32 1 = some .decStart ∧ Instr.decStart.isGroup = false := by decide

theorem witness_TheFetchStepHasSixCases :
    (withDec { dv1 with cnt := 2 }).dec.cnt.toNat = (withDec { dv1 with cnt := 2 }).dec.total ∧
    (withDec { dv1 with pos := 4 }).dec.len.toNat ≤ (withDec { dv1 with pos := 4 }).dec.pos.toNat ∧
    ((withDec dv13).srcByte 11).getLsbD 7 = true ∧ 3 > dv13.len.toNat - (dv13.pos.toNat + 1) ∧
    ((withDec dv1).srcByte 0).getLsbD 7 = true ∧ 3 ≤ dv1.len.toNat - (dv1.pos.toNat + 1) ∧
    ((withDec { dv2 with len := 9 }).srcByte 0).getLsbD 7 = false ∧ 3 * 3 > 9 - (0 + 1) ∧
    ((withDec dv2).srcByte 0).getLsbD 7 = false ∧ 3 * 3 ≤ dv2.len.toNat - (dv2.pos.toNat + 1) ∧
    (withDec dv13).dec.phase = .fetch ∧ dv13.cnt.toNat ≠ dv13.total ∧ dv13.pos.toNat < dv13.len.toNat := by decide

theorem witness_ThePadStepWritesOneBlackPixel :
    (withDec p1Pad).dec.phase = .pad ∧ ({ p1Pad with cnt := 5 } : Dec).cnt.toNat + 1 = p1Pad.total := by decide

theorem witness_AnIdleOrDoneUnitDoesNothing :
    State.reset.dec.phase = .idle ∧ (withDec dv1Done).dec.phase = .done ∧ State.reset.enc.phase = .idle ∧
    State.reset.dec.busy = false ∧ State.reset.enc.busy = false ∧ State.reset.agenda = [] := by decide

theorem witness_DecPhasesFollowTheTransitionTable :
    (decAfter (step (withTurn (withDec dv1) (.host .reset)))).map Dec.phase = some .idle ∧
    (decAfter (step (withTurn ready (.host (.writeDec .ctrl 1))))).map Dec.phase = some .fetch ∧
    (decAfter (step (withDec dv1))).map Dec.phase = some .run := by decide

theorem witness_EncPhasesFollowTheTransitions :
    (encAfter (step (withTurn (withEnc ev7) (.host .reset)))).map Enc.phase = some .idle ∧
    (encAfter (step (withTurn ready (.host (.writeEnc .ctrl 1))))).map Enc.phase = some .group ∧
    (encAfter (step (withEnc ev7End))).map Enc.phase = some .done := by decide

theorem witness_TheStopCauseIsLatched :
    (decAfter (step (withDec dv13))).map Dec.stop = some .shortRun ∧ (withDec dv13).dec.stop = .none ∧
    (decAfter (step (withTurn (withDec p1Pad) (.host .reset)))).map Dec.stop = some .none := by decide

theorem witness_TheDecodersCursorsStayInBounds :
    Inv both ∧ both.dec.busy = true ∧ decAfter (decTurn both) = some dv1Run := ⟨both_inv, by decide, by decide⟩

theorem witness_TheDecoderWritesEachPixelOnceInOrder : Inv both ∧ decAfter (decTurn both) = some dv1Run :=
  ⟨both_inv, by decide⟩

theorem witness_NoUnitReadsPastItsInput : Inv both ∧ both.dec.len.toNat ≤ 4 ∧ both.enc.n.toNat ≤ 2 :=
  ⟨both_inv, by decide, by decide⟩

theorem witness_TheDecodersMeasureDecreases :
    Inv both ∧ both.dec.busy = true ∧ decAfter (decTurn both) = some dv1Run :=
  ⟨both_inv, by decide, by decide⟩

theorem witness_TheGroupStepEmitsOneGroupOrFinishes :
    (withEnc ev7).enc.phase = .group ∧ (withEnc ev7End).enc.i = (withEnc ev7End).enc.n ∧
    (withEnc ev7).enc.i ≠ (withEnc ev7).enc.n ∧ 2 ≤ runCount (withEnc ev7).pixPixel 3 0 ∧
    (withEnc ev5).enc.i ≠ (withEnc ev5).enc.n ∧ runCount (withEnc ev5).pixPixel 3 0 < 2 := by decide

theorem witness_TheRunCountIsTheLargest : (0 : Nat) < 1 ∧ runCount (fun _ => pxA) 200 0 = 128 := by decide

theorem witness_ALiteralEndsWhereTheRuleSays :
    (0 : Nat) < 3 ∧ runCount (pixelOf [pxA, pxB, pxB]) 3 0 = 1 ∧ litLength (pixelOf [pxA, pxB, pxB]) 3 0 = 2 := by decide

theorem witness_TheEncoderNeverOverflowsItsOutput :
    Inv both ∧ both.enc.inFlight = true ∧ both.enc.busy = true := ⟨both_inv, by decide, by decide⟩

theorem witness_AUnitsStepDependsOnThatUnitAlone :
    (withDec dv1).epoch = both.epoch ∧ (withDec dv1).dec = both.dec ∧ (withEnc both.enc).enc = both.enc := by decide

theorem witness_ARunningOperationKeepsItsInputs :
    Inv both ∧ decAfter (step both) = some dv1Run ∧ both.agenda.head? ≠ some (.host .reset) ∧ both.dec.busy = true ∧
    both.enc.busy = true ∧ both.dec.inFlight = true ∧ 3 < both.dec.lenAtStart.toNat ∧ both.enc.inFlight = true ∧
    1 < both.enc.nAtStart.toNat :=
  ⟨both_inv, by decide, by decide, by decide, by decide, by decide, by decide, by decide, by decide⟩

theorem witness_ARegisterReadReturnsTheRegister : ready.dec.busy = false ∧ ready.enc.busy = false := by decide

theorem witness_ConfigurationWritesAreStoredUnlessBusy :
    ready.dec.busy = false ∧ ready.enc.busy = false ∧ both.dec.busy = true ∧ both.enc.busy = true := by decide

theorem witness_ProgressReadsNeverDecreaseNorOvertake : Inv both ∧ both.dec.busy = true ∧ both.enc.busy = true :=
  ⟨both_inv, by decide, by decide⟩

theorem witness_TheHeldValuesAreThoseHeldSinceStart :
    decAfter (step (withTurn ready (.host (.writeDec .ctrl 1)))) = some dv1 ∧ ready.dec.busy = false ∧ dv1.busy = true ∧
    decAfter (step both) = some dv1Run ∧ both.dec.busy = true ∧ dv1Run.busy = true ∧ dv1Run.pos ≠ both.dec.pos ∧
    dv1Run.cnt = both.dec.cnt ∧ encAfter (step (withTurn ready (.host (.writeEnc .ctrl 1)))) = some ev7 ∧
    ready.enc.busy = false ∧ ev7.busy = true ∧
    (encAfter (step (withTurn both .encTurn))).map Enc.iHeld = some [0] ∧ both.enc.busy = true ∧ Inv both :=
  ⟨by decide, by decide, by decide, by decide, by decide, by decide, by decide, by decide, by decide, by decide, by decide,
    by decide, by decide, both_inv⟩

theorem witness_SpaceWritesInFlightAreRefused :
    both.dec.busy = true ∧ both.enc.busy = true ∧ dv1Done.inFlight = true ∧ 3 < dv1Done.lenAtStart.toNat ∧
    ev7Done.inFlight = true ∧ 2 < ev7Done.nAtStart.toNat ∧ both.dec.inFlight = true ∧ both.enc.inFlight = true ∧
    0 < both.caps.srcCap ∧ 2 ^ 64 - 2 < both.caps.dstCap ∧ 0 < both.caps.pixCap ∧ 2 ^ 64 - 2 < both.caps.outCap := by decide

theorem witness_OutputsReadAsTheResultOnceDoneIsObserved :
    (withDec dv1Done).dec.phase = .done ∧ (withDec dv1Done).dec.inFlight = true ∧ 1 < (withDec dv1Done).caps.dstCap ∧
    (withEnc ev7Done).enc.phase = .done ∧ ev7Done.inFlight = true ∧ 7 < (withEnc ev7Done).caps.outCap := by decide

theorem witness_EveryStepKeepsTheInvariant : Inv both ∧ decAfter (step both) = some dv1Run := ⟨both_inv, by decide⟩

theorem witness_DecodeReadsNothingPastItsFinalCursor :
    [(0x81 : Byte), 1, 2, 3, 9].length = [(0x81 : Byte), 1, 2, 3, 4].length ∧
    [(0x81 : Byte), 1, 2, 3, 9].take (decodeBlock [0x81, 1, 2, 3, 4] 2).pos =
      [(0x81 : Byte), 1, 2, 3, 4].take (decodeBlock [0x81, 1, 2, 3, 4] 2).pos := by decide

theorem witness_AfterCountNothingAppendedMatters : (decodeBlock [0x81, 1, 2, 3] 2).cause = .count := by decide

theorem witness_TheReferenceEncodingIsStructured :
    encodeGroups [pxA, pxA, pxB] = [] ++ Instr.run 2 pxA :: [.lit [pxB]] ∧
    encodeGroups [pxA, pxB, pxB] = [] ++ Instr.lit [pxA, pxB] :: [.lit [pxB]] ∧
    encodeGroups [pxA, pxB, pxB] = [.lit [pxA, pxB]] ++ Instr.lit [pxB] :: [] := by decide

theorem witness_ADecodeComputesTheDecodeFunction :
    ready.agenda = [] ∧ ready.dec.busy = false ∧ decAfter (exec .decStart ready) = some dv1 ∧ 1 ≤ ready.dec.total := by
  decide

theorem witness_AnEncodeComputesTheReferenceEncoding :
    ready.agenda = [] ∧ ready.dec.busy = false ∧ ready.enc.busy = false ∧
    encAfter (exec .encStart ready) = some ev7 := by decide

end Sys2Proof.Tests
end

section
/-! SUPPORT. Rules said once for the proofs below: the status registers, the control writes, the value each turn leaves in
its unit, and what one access of the host or one step of the block can do to each unit. -/

namespace Sys2Proof.Machine

open Sys2Proof.Safety

/-! ## Status (R14, R26) -/

theorem Dec.busy_iff (d : Dec) :
    d.busy = true ↔ d.phase = .fetch ∨ d.phase = .run ∨ d.phase = .lit ∨ d.phase = .pad := by
  unfold Dec.busy
  cases d.phase <;> simp

theorem Dec.not_busy_iff (d : Dec) : d.busy = false ↔ d.phase = .idle ∨ d.phase = .done := by
  unfold Dec.busy
  cases d.phase <;> simp

theorem Dec.isDone_iff (d : Dec) : d.isDone = true ↔ d.phase = .done := by
  unfold Dec.isDone
  cases d.phase <;> simp

theorem Enc.busy_iff (e : Enc) : e.busy = true ↔ e.phase = .group := by
  unfold Enc.busy
  cases e.phase <;> simp

theorem Enc.not_busy_iff (e : Enc) : e.busy = false ↔ e.phase = .idle ∨ e.phase = .done := by
  unfold Enc.busy
  cases e.phase <;> simp

theorem Enc.isDone_iff (e : Enc) : e.isDone = true ↔ e.phase = .done := by
  unfold Enc.isDone
  cases e.phase <;> simp

theorem decStatus_fields : ∀ (c : BitVec 3) (done busy : Bool),
    (0#27 ++ c ++ BitVec.ofBool done ++ BitVec.ofBool busy).getLsbD 0 = busy ∧
    (0#27 ++ c ++ BitVec.ofBool done ++ BitVec.ofBool busy).getLsbD 1 = done ∧
    (0#27 ++ c ++ BitVec.ofBool done ++ BitVec.ofBool busy).extractLsb' 2 3 = c ∧
    (0#27 ++ c ++ BitVec.ofBool done ++ BitVec.ofBool busy).extractLsb' 5 27 = 0#27 := by
  decide

theorem encStatus_fields : ∀ (done busy : Bool),
    (0#30 ++ BitVec.ofBool done ++ BitVec.ofBool busy).getLsbD 0 = busy ∧
    (0#30 ++ BitVec.ofBool done ++ BitVec.ofBool busy).getLsbD 1 = done ∧
    (0#30 ++ BitVec.ofBool done ++ BitVec.ofBool busy).extractLsb' 2 30 = 0#30 := by
  decide

theorem Dec.status_fields (d : Dec) :
    d.status.getLsbD 0 = d.busy ∧ d.status.getLsbD 1 = d.isDone ∧ d.status.extractLsb' 2 3 = d.stop.code ∧
      d.status.extractLsb' 5 27 = 0#27 :=
  decStatus_fields _ _ _

theorem Enc.status_fields (e : Enc) :
    e.status.getLsbD 0 = e.busy ∧ e.status.getLsbD 1 = e.isDone ∧ e.status.extractLsb' 2 30 = 0#30 :=
  encStatus_fields _ _

theorem Enc.status_of_phase {e e' : Enc} (h : e.phase = e'.phase) : e.status = e'.status := by
  simp [Enc.status, Enc.isDone, Enc.busy, h]

/-! ## Control writes (R13, R25) -/

theorem hostTurn_writeDec_ctrl (s : State) (v : Word64) :
    hostTurn (.writeDec .ctrl v) s = if v.getLsbD 0 then execDecStart s else .next s := by
  simp only [hostTurn, writeDecReg, writeCtrl_eq, BitVec.getLsbD_setWidth]
  rfl

theorem hostTurn_writeEnc_ctrl (s : State) (v : Word64) :
    hostTurn (.writeEnc .ctrl v) s = if v.getLsbD 0 then execEncStart s else .next s := by
  simp only [hostTurn, writeEncReg, writeCtrl_eq, BitVec.getLsbD_setWidth]
  rfl

/-! ## Unit DEC: what its step leaves

`State.decNext` is the value that a step leaves in DEC, as R91 to R95 compute it: a function of the unit and of the contents
of the unwritten bytes of SRC alone. -/

/-- The FETCH step (R91), its six cases in order. -/
def State.fetchNext (s : State) : Dec :=
  let c := s.srcByte s.dec.pos.toNat
  let avail := s.dec.len.toNat - (s.dec.pos.toNat + 1)
  if s.dec.cnt.toNat = s.dec.total then { s.dec with stop := .count, phase := .done }
  else if s.dec.len.toNat ≤ s.dec.pos.toNat then s.dec.stopShort .eob
  else if runFlag c then
    if avail < 3 then (s.dec.advance 1).stopShort .shortRun
    else takeRun (groupLen c) (s.sampleAt (s.dec.pos.toNat + 1)) s.dec
  else if avail < 3 * groupLen c then (s.dec.advance 1).stopShort .shortLit
  else takeLit (groupLen c) s.dec

/-- The step of DEC in each phase (R91 to R95). -/
def State.decNext (s : State) : Dec :=
  match s.dec.phase with
  | .idle => s.dec
  | .fetch => s.fetchNext
  | .run => runStep s.dec
  | .lit => litStep (s.sampleAt s.dec.pos.toNat) s.dec
  | .pad => padStep s.dec
  | .done => s.dec

/-- The moves of DEC are deterministic. -/
theorem DecMove.eq_decNext {s : State} {d : Dec} (h : DecMove s d) : d = s.decNext := by
  cases h with
  | still hb => rcases (Dec.not_busy_iff _).1 hb with hp | hp <;> simp [State.decNext, hp]
  | count hp hc => simp [State.decNext, hp, State.fetchNext, hc]
  | eob hp hc he => simp [State.decNext, hp, State.fetchNext, hc, he]
  | shortRun hp hc hl hf ha => simp [State.decNext, hp, State.fetchNext, hc, hl, hf, ha]
  | takeRun hp hc hl hf ha => simp [State.decNext, hp, State.fetchNext, hc, Nat.not_le.2 hl, hf, Nat.not_lt.2 ha]
  | shortLit hp hc hl hf ha => simp [State.decNext, hp, State.fetchNext, hc, hl, hf, ha]
  | takeLit hp hc hl hf ha => simp [State.decNext, hp, State.fetchNext, hc, Nat.not_le.2 hl, hf, Nat.not_lt.2 ha]
  | runPixel hp => simp [State.decNext, hp]
  | litPixel hp => simp [State.decNext, hp]
  | padPixel hp => simp [State.decNext, hp]

theorem decTurn_eq (s : State) : decTurn s = .next (s.setDec s.decNext) := by
  obtain ⟨d, h, hm⟩ := decTurn_move s
  rw [h, hm.eq_decNext]

theorem decMove_decNext (s : State) : DecMove s s.decNext := by
  obtain ⟨d, -, hm⟩ := decTurn_move s
  exact hm.eq_decNext ▸ hm

@[simp] theorem State.decNext_setEnc (s : State) (e : Enc) : (s.setEnc e).decNext = s.decNext := rfl

/-- A completed step of DEC is one of its moves, and leaves the rest of the block. -/
theorem decTurn_next {s t : State} (h : decTurn s = .next t) : ∃ d, t = s.setDec d ∧ DecMove s d := by
  rw [decTurn_eq] at h
  cases h
  exact ⟨_, rfl, decMove_decNext s⟩

/-! ## Unit ENC: what its step leaves -/

/-- The step of ENC in each phase (R120, R121). -/
def State.encNext (s : State) : Enc :=
  match s.enc.phase with
  | .idle => s.enc
  | .group => if s.enc.i = s.enc.n then { s.enc with phase := .done } else s.enc.emitGroup s.nextGroup
  | .done => s.enc

/-- The moves of unit ENC: `EncMove s e` says that one step from `s` may leave the unit at `e` (R120, R121). -/
inductive EncMove (s : State) : Enc → Prop where
  | still : s.enc.busy = false → EncMove s s.enc
  | finish : s.enc.phase = .group → s.enc.i = s.enc.n → EncMove s { s.enc with phase := .done }
  | emit : s.enc.phase = .group → s.enc.i ≠ s.enc.n → EncMove s (s.enc.emitGroup s.nextGroup)

theorem encTurn_eq (s : State) : encTurn s = .next (s.setEnc s.encNext) := by
  rcases encTurn_move s with ⟨hb, h⟩ | ⟨hp, hi, h⟩ | ⟨hp, hi, h⟩
  · rcases (Enc.not_busy_iff _).1 hb with hp | hp <;> simp [h, State.encNext, hp]
  · simp [h, State.encNext, hp, hi]
  · simp [h, State.encNext, hp, hi]

@[simp] theorem State.encNext_setDec (s : State) (d : Dec) : (s.setDec d).encNext = s.encNext := rfl

/-- A completed step of ENC is one of its moves, and leaves the rest of the block. -/
theorem encTurn_next {s t : State} (h : encTurn s = .next t) : ∃ e, t = s.setEnc e ∧ EncMove s e := by
  rcases encTurn_move s with ⟨hb, h'⟩ | ⟨hp, hi, h'⟩ | ⟨hp, hi, h'⟩
  · cases h'.symm.trans h; exact ⟨_, rfl, .still hb⟩
  · cases h'.symm.trans h; exact ⟨_, rfl, .finish hp hi⟩
  · cases h'.symm.trans h; exact ⟨_, rfl, .emit hp hi⟩

/-! ## One access of the host -/

/-- What one access of the host can leave in DEC (R130, R132, R161, R167). -/
inductive HostDec (s : State) : HostOp → Dec → Prop where
  | same (op : HostOp) : op ≠ .reset → HostDec s op s.dec
  | start (v : Word64) : v.getLsbD 0 = true → s.dec.busy = false →
      reaches s.caps.srcShared s.dec.len.toNat = false → s.dec.fits s.caps = true →
      HostDec s (.writeDec .ctrl v) s.dec.start
  | configure (r : DecReg) (v : Word64) (w h : Word32) (len : Word64) : s.dec.busy = false →
      HostDec s (.writeDec r v) { s.dec with w := w, h := h, len := len }
  | observe : s.dec.phase = .done → HostDec s (.readDec .status) { s.dec with inFlight := false }
  | showPos (v : Word64) : s.dec.busy = true →
      v = progressValue s.draws s.dec.posHeld s.dec.posSeen s.dec.pos →
      HostDec s (.readDec .pos) { s.dec with posSeen := v }
  | showCnt (v : Word64) : s.dec.busy = true →
      v = progressValue s.draws s.dec.cntHeld s.dec.cntSeen s.dec.cnt →
      HostDec s (.readDec .cnt) { s.dec with cntSeen := v }
  | writeSrc (a : Nat) (v : Byte) : a < s.caps.srcCap → s.dec.inputHeld a = false →
      HostDec s (.writeSrc a v) { s.dec with src := s.dec.src.write a v }
  | writeDst (k : Nat) (v : Pixel) : k < s.caps.dstCap → s.dec.inFlight = false →
      HostDec s (.writeDst k v) { s.dec with dst := s.dec.dst.write k v }
  | reset : HostDec s .reset Dec.reset

/-- What one access of the host can leave in ENC (R131, R132, R161, R167). -/
inductive HostEnc (s : State) : HostOp → Enc → Prop where
  | same (op : HostOp) : op ≠ .reset → HostEnc s op s.enc
  | start (v : Word64) : v.getLsbD 0 = true → s.enc.busy = false →
      reaches s.caps.pixShared s.enc.n.toNat = false → s.enc.fits s.caps = true →
      HostEnc s (.writeEnc .ctrl v) s.enc.start
  | configure (v n : Word64) : s.enc.busy = false → HostEnc s (.writeEnc .n v) { s.enc with n := n }
  | observe : s.enc.phase = .done → HostEnc s (.readEnc .status) { s.enc with inFlight := false }
  | showI (v : Word64) : s.enc.busy = true →
      v = progressValue s.draws s.enc.iHeld s.enc.iSeen s.enc.i →
      HostEnc s (.readEnc .i) { s.enc with iSeen := v }
  | showOlen (v : Word64) : s.enc.busy = true →
      v = progressValue s.draws s.enc.olenHeld s.enc.olenSeen s.enc.olen →
      HostEnc s (.readEnc .olen) { s.enc with olenSeen := v }
  | writePix (k : Nat) (v : Pixel) : k < s.caps.pixCap → s.enc.inputHeld k = false →
      HostEnc s (.writePix k v) { s.enc with pix := s.enc.pix.write k v }
  | writeOut (a : Nat) (v : Byte) : a < s.caps.outCap → s.enc.inFlight = false →
      HostEnc s (.writeOut a v) { s.enc with out := s.enc.out.write a v }
  | reset : HostEnc s .reset Enc.reset

/-- What one access of the host can leave of the block: it touches one unit, the reply and the count of free values drawn,
or it is a reset. -/
inductive HostAccess (op : HostOp) (s : State) : State → Prop where
  | dec (d : Dec) (n : Nat) (r : Reply) : op ≠ .reset → HostDec s op d →
      HostAccess op s { s with dec := d, draws := n, reply := r }
  | enc (e : Enc) (n : Nat) (r : Reply) : op ≠ .reset → HostEnc s op e →
      HostAccess op s { s with enc := e, draws := n, reply := r }
  | reset : op = .reset → HostAccess op s s.applyReset

/-- An access that leaves both units as they are. -/
theorem HostAccess.reply {op : HostOp} {s : State} (hop : op ≠ .reset) (n : Nat) (r : Reply) :
    HostAccess op s { s with draws := n, reply := r } :=
  .dec s.dec n r hop (.same op hop)

/-- An access that changes nothing. -/
theorem HostAccess.nothing {op : HostOp} {s : State} (hop : op ≠ .reset) : HostAccess op s s :=
  .reply hop s.draws s.reply

theorem HostAccess.setDec {op : HostOp} {s : State} {d : Dec} (hop : op ≠ .reset) (h : HostDec s op d) :
    HostAccess op s (s.setDec d) :=
  .dec d s.draws s.reply hop h

theorem HostAccess.setEnc {op : HostOp} {s : State} {e : Enc} (hop : op ≠ .reset) (h : HostEnc s op e) :
    HostAccess op s (s.setEnc e) :=
  .enc e s.draws s.reply hop h

/-- A configuration write of DEC (R132): stored, or ignored while BUSY. -/
theorem HostDec.of_configure (s : State) (r : DecReg) (v : Word64) (w h : Word32) (len : Word64) :
    HostDec s (.writeDec r v) (s.dec.configure { s.dec with w := w, h := h, len := len }) := by
  unfold Dec.configure
  cases hb : s.dec.busy with
  | true => exact .same _ nofun
  | false => exact .configure r v w h len hb

theorem writeDecReg_access {r : DecReg} {v : Word64} {s t : State} (h : writeDecReg r v s = .next t) :
    HostAccess (.writeDec r v) s t := by
  cases r with
  | ctrl =>
    have h' := (hostTurn_writeDec_ctrl s v).symm.trans h
    split at h'
    · rename_i hv
      rcases execDecStart_next h' with ⟨-, rfl⟩ | ⟨hb, hr, hf, rfl⟩
      · exact .nothing nofun
      · exact .setDec nofun (.start v hv hb hr hf)
    · cases h'; exact .nothing nofun
  | w => cases h; exact .setDec nofun (.of_configure s .w v _ _ _)
  | h => cases h; exact .setDec nofun (.of_configure s .h v _ _ _)
  | len => cases h; exact .setDec nofun (.of_configure s .len v _ _ _)
  | status | pos | cnt => cases h; exact .nothing nofun

theorem writeEncReg_access {r : EncReg} {v : Word64} {s t : State} (h : writeEncReg r v s = .next t) :
    HostAccess (.writeEnc r v) s t := by
  cases r with
  | ctrl =>
    have h' := (hostTurn_writeEnc_ctrl s v).symm.trans h
    split at h'
    · rename_i hv
      rcases execEncStart_next h' with ⟨-, rfl⟩ | ⟨hb, hr, hf, rfl⟩
      · exact .nothing nofun
      · exact .setEnc nofun (.start v hv hb hr hf)
    · cases h'; exact .nothing nofun
  | n =>
    cases h
    refine .setEnc nofun ?_
    unfold Enc.configure
    cases hb : s.enc.busy with
    | true => exact .same _ nofun
    | false => exact .configure v _ hb
  | status | i | olen => cases h; exact .nothing nofun

theorem readDecReg_access (r : DecReg) (s : State) : HostAccess (.readDec r) s (readDecReg r s) := by
  have hop : HostOp.readDec r ≠ .reset := nofun
  cases r with
  | status =>
    refine .dec s.dec.statusRead s.draws _ hop ?_
    unfold Dec.statusRead
    split
    · exact .observe ((Dec.isDone_iff _).1 ‹_›)
    · exact .same _ hop
  | pos =>
    change HostAccess _ s (readDecPos s)
    unfold readDecPos
    split
    · exact .dec _ _ _ hop (.showPos _ ‹_› rfl)
    · exact .reply (s := s) hop s.draws _
  | cnt =>
    change HostAccess _ s (readDecCnt s)
    unfold readDecCnt
    split
    · exact .dec _ _ _ hop (.showCnt _ ‹_› rfl)
    · exact .reply (s := s) hop s.draws _
  | ctrl | w | h | len => exact .reply (s := s) hop s.draws _

theorem readEncReg_access (r : EncReg) (s : State) : HostAccess (.readEnc r) s (readEncReg r s) := by
  have hop : HostOp.readEnc r ≠ .reset := nofun
  cases r with
  | status =>
    refine .enc s.enc.statusRead s.draws _ hop ?_
    unfold Enc.statusRead
    split
    · exact .observe ((Enc.isDone_iff _).1 ‹_›)
    · exact .same _ hop
  | i =>
    change HostAccess _ s (readEncI s)
    unfold readEncI
    split
    · exact .enc _ _ _ hop (.showI _ ‹_› rfl)
    · exact .reply (s := s) hop s.draws _
  | olen =>
    change HostAccess _ s (readEncOlen s)
    unfold readEncOlen
    split
    · exact .enc _ _ _ hop (.showOlen _ ‹_› rfl)
    · exact .reply (s := s) hop s.draws _
  | ctrl | n => exact .reply (s := s) hop s.draws _

/-- The host's writes of the four spaces (R164 items 1 and 2, R167). -/
theorem hostWrite_access {s t : State} :
    (∀ a v, hostWriteSrc a v s = .next t → HostAccess (.writeSrc a v) s t) ∧
    (∀ k v, hostWriteDst k v s = .next t → HostAccess (.writeDst k v) s t) ∧
    (∀ k v, hostWritePix k v s = .next t → HostAccess (.writePix k v) s t) ∧
    (∀ a v, hostWriteOut a v s = .next t → HostAccess (.writeOut a v) s t) := by
  refine ⟨fun a v h => ?_, fun k v h => ?_, fun k v h => ?_, fun a v h => ?_⟩
  · simp only [hostWriteSrc, ite_eq_iff, reduceCtorEq, and_false, false_or] at h
    obtain ⟨hc, hh, h⟩ := h
    cases h
    exact .setDec nofun (.writeSrc a v (Nat.lt_of_not_le hc) (Bool.eq_false_of_not_eq_true hh))
  · simp only [hostWriteDst, ite_eq_iff, reduceCtorEq, and_false, false_or] at h
    obtain ⟨hc, hh, h⟩ := h
    cases h
    exact .setDec nofun (.writeDst k v (Nat.lt_of_not_le hc) (Bool.eq_false_of_not_eq_true hh))
  · simp only [hostWritePix, ite_eq_iff, reduceCtorEq, and_false, false_or] at h
    obtain ⟨hc, hh, h⟩ := h
    cases h
    exact .setEnc nofun (.writePix k v (Nat.lt_of_not_le hc) (Bool.eq_false_of_not_eq_true hh))
  · simp only [hostWriteOut, ite_eq_iff, reduceCtorEq, and_false, false_or] at h
    obtain ⟨hc, hh, h⟩ := h
    cases h
    exact .setEnc nofun (.writeOut a v (Nat.lt_of_not_le hc) (Bool.eq_false_of_not_eq_true hh))

/-- The host's reads of the four spaces change nothing but the reply and the count of free values drawn (R40, U6). -/
theorem hostRead_next {s t : State} {a : Nat}
    (h : hostReadSrc a s = .next t ∨ hostReadDst a s = .next t ∨ hostReadPix a s = .next t ∨
      hostReadOut a s = .next t) : ∃ n r, t = { s with draws := n, reply := r } := by
  rcases h with h | h | h | h
  · simp only [hostReadSrc, ite_eq_iff, reduceCtorEq, and_false, false_or] at h
    cases h.2
    exact ⟨_, _, rfl⟩
  · simp only [hostReadDst, ite_eq_iff, reduceCtorEq, and_false, false_or] at h
    rcases h.2 with ⟨-, h⟩ | ⟨-, h⟩ <;> cases h <;> exact ⟨_, _, rfl⟩
  · simp only [hostReadPix, ite_eq_iff, reduceCtorEq, and_false, false_or] at h
    cases h.2
    exact ⟨_, _, rfl⟩
  · simp only [hostReadOut, ite_eq_iff, reduceCtorEq, and_false, false_or] at h
    rcases h.2 with ⟨-, h⟩ | ⟨-, h⟩ <;> cases h <;> exact ⟨_, _, rfl⟩

/-- Every completed access of the host is one of these. -/
theorem hostTurn_access {op : HostOp} {s t : State} (h : hostTurn op s = .next t) : HostAccess op s t := by
  obtain ⟨hsrc, hdst, hpix, hout⟩ := hostWrite_access (s := s) (t := t)
  cases op with
  | writeDec r v => exact writeDecReg_access h
  | writeEnc r v => exact writeEncReg_access h
  | readDec r => cases h; exact readDecReg_access r s
  | readEnc r => cases h; exact readEncReg_access r s
  | writeSrc a v => exact hsrc a v h
  | writeDst k v => exact hdst k v h
  | writePix k v => exact hpix k v h
  | writeOut a v => exact hout a v h
  | readSrc a =>
    obtain ⟨n, r, rfl⟩ := hostRead_next (.inl h)
    exact .reply (s := s) (op := .readSrc a) nofun n r
  | readDst k =>
    obtain ⟨n, r, rfl⟩ := hostRead_next (.inr (.inl h))
    exact .reply (s := s) (op := .readDst k) nofun n r
  | readPix k =>
    obtain ⟨n, r, rfl⟩ := hostRead_next (.inr (.inr (.inl h)))
    exact .reply (s := s) (op := .readPix k) nofun n r
  | readOut a =>
    obtain ⟨n, r, rfl⟩ := hostRead_next (.inr (.inr (.inr h)))
    exact .reply (s := s) (op := .readOut a) nofun n r
  | reset => cases h; exact .reset rfl

theorem HostAccess.hostDec {op : HostOp} {s t : State} (h : HostAccess op s t) : HostDec s op t.dec := by
  cases h with
  | dec d n r hop hd => exact hd
  | enc e n r hop he => exact .same op hop
  | reset hop => exact hop ▸ .reset

theorem HostAccess.hostEnc {op : HostOp} {s t : State} (h : HostAccess op s t) : HostEnc s op t.enc := by
  cases h with
  | dec d n r hop hd => exact .same op hop
  | enc e n r hop he => exact he
  | reset hop => exact hop ▸ .reset

/-- No access of the host changes the capacities or the agenda, and none but reset makes the contents unspecified anew. -/
theorem HostAccess.frame {op : HostOp} {s t : State} (h : HostAccess op s t) :
    t.caps = s.caps ∧ t.agenda = s.agenda ∧ (op ≠ .reset → t.epoch = s.epoch) := by
  cases h with
  | dec d n r hop hd => exact ⟨rfl, rfl, fun _ => rfl⟩
  | enc e n r hop he => exact ⟨rfl, rfl, fun _ => rfl⟩
  | reset hop => exact ⟨rfl, rfl, fun h => absurd hop h⟩

/-! ## One step of the block -/

theorem popped_of_empty {s : State} (h : s.agenda = []) : popped s = s := by
  cases s
  simp_all [popped]

/-- What one step of the block is, the turn it takes off the agenda: a move of DEC, a move of ENC, or one access of the
host (R10, R165). -/
theorem step_next {s t : State} (h : step s = .next t) :
    (DecNext s ∧ ∃ d, t = (popped s).setDec d ∧ DecMove (popped s) d) ∨
    (∃ e, t = (popped s).setEnc e ∧ EncMove (popped s) e) ∨
    (∃ op, s.agenda.head? = some (.host op) ∧ HostAccess op (popped s) t) := by
  rcases step_cases s with ⟨e, rest, ha, hs⟩ | ⟨ha, -, hs⟩ | ⟨ha, -, -, hs⟩ | ⟨ha, hd, -, hs⟩
  · have hp : popped s = { s with agenda := rest } := by simp [popped, ha]
    rw [hs, ← hp] at h
    cases e with
    | decTurn => exact .inl ⟨.inr (by simp [ha]), decTurn_next h⟩
    | encTurn => exact .inr (.inl (encTurn_next h))
    | host op => exact .inr (.inr ⟨op, by simp [ha], hostTurn_access h⟩)
  · rw [popped_of_empty ha]
    exact .inl ⟨.inl ha, decTurn_next (hs ▸ h)⟩
  · rw [popped_of_empty ha]
    exact .inr (.inl (encTurn_next (hs ▸ h)))
  · rw [popped_of_empty ha]
    cases hs.symm.trans h
    exact .inl ⟨.inl ha, s.dec, rfl, .still hd⟩

end Sys2Proof.Machine
end

section
/-! Proofs of the statements about status, control writes, reset values, phases and the stop cause. -/

namespace Sys2Proof.Machine

open Sys2Proof.Safety

/-- Settles O8: of a control write only the START bit is looked at. -/
theorem onlyBitZeroOfAControlWriteCounts : Obligations.OnlyBitZeroOfAControlWriteCounts := by
  intro s v v' hv
  simp only [hostTurn_writeDec_ctrl, hostTurn_writeEnc_ctrl, hv, true_and]
  intro hz
  simp only [hz, Bool.false_eq_true, if_false, and_self]

/-- Settles O40, field by field. -/
theorem theFieldsOfDecStatus : Obligations.TheFieldsOfDecStatus := by
  intro d
  obtain ⟨hbusy, hdone, hstop, hhigh⟩ := d.status_fields
  refine ⟨by rw [hbusy, Dec.busy_iff], by rw [hdone, Dec.isDone_iff], ?_, hhigh⟩
  rw [hstop]
  cases d.stop <;> rfl

/-- Settles O41, field by field. -/
theorem theFieldsOfEncStatus : Obligations.TheFieldsOfEncStatus := by
  intro s v
  obtain ⟨hbusy, hdone, hhigh⟩ := s.enc.status_fields
  exact ⟨by rw [hbusy, Enc.busy_iff], by rw [hdone, Enc.isDone_iff], hhigh, rfl, fun e he => Enc.status_of_phase he⟩

/-- Settles O47: the table of R37, row by row. -/
theorem theResetValues : Obligations.TheResetValues := by
  refine ⟨rfl, by decide, rfl, fun r => ?_, rfl, rfl, rfl, by decide, fun r => ?_, fun a => ⟨rfl, rfl, rfl, rfl⟩⟩
  · cases r <;> decide
  · cases r <;> decide

/-- Settles O36: what each unit's step leaves is a function of that unit (`State.decNext`, `State.encNext`). -/
theorem theUnitsShareNothing : Obligations.TheUnitsShareNothing := by
  intro s
  refine ⟨s.decNext, s.encNext, decTurn_eq s, encTurn_eq s, ?_, ?_⟩
  · rw [encTurn_eq, State.encNext_setDec]
  · rw [decTurn_eq, State.decNext_setEnc]

/-- A move of ENC that changes the phase is the one that ends the encode. -/
theorem EncMove.phase {s : State} {e : Enc} (h : EncMove s e) :
    e.phase = s.enc.phase ∨ (s.enc.phase = .group ∧ e.phase = .done ∧ s.enc.i = s.enc.n) := by
  cases h with
  | still => exact .inl rfl
  | finish hp hi => exact .inr ⟨hp, rfl, hi⟩
  | emit => exact .inl rfl

/-- An access of the host that changes the phase of ENC is a START or a reset. -/
theorem HostEnc.phase {s : State} {op : HostOp} {e : Enc} (h : HostEnc s op e) :
    e.phase = s.enc.phase ∨ (op = .reset ∧ e.phase = .idle) ∨
    (s.enc.busy = false ∧ e.phase = .group ∧ ∃ v, op = .writeEnc .ctrl v ∧ v.getLsbD 0 = true) := by
  cases h with
  | start v hv hb => exact .inr (.inr ⟨hb, rfl, v, rfl, hv⟩)
  | reset => exact .inr (.inl ⟨rfl, rfl⟩)
  | same | configure | observe | showI | showOlen | writePix | writeOut => exact .inl rfl

/-- Settles O26, over what a step of the block can be. -/
theorem encPhasesFollowTheTransitions : Obligations.EncPhasesFollowTheTransitions := by
  intro s t hstep hne
  rcases step_next hstep with ⟨-, d, rfl, -⟩ | ⟨e, rfl, hm⟩ | ⟨op, hop, ha⟩
  · exact absurd rfl hne
  · exact .inr (.inr (hm.phase.resolve_left hne))
  · rcases ha.hostEnc.phase.resolve_left hne with ⟨rfl, hi⟩ | ⟨hb, hg, v, rfl, hv⟩
    · exact .inl ⟨hop, hi⟩
    · exact .inr (.inl ⟨(Enc.not_busy_iff _).1 hb, hg, v, hop, hv⟩)

/-! ## One pixel written: the step of RUN, LIT and PAD -/

/-- The common tail of R92 and R93: the pixel count reached, the group finished, or neither. -/
theorem Dec.afterGroupPixel_cases (d d' : Dec) :
    (d.cnt.toNat + 1 = d.total ∧
      d.afterGroupPixel d' = { d' with rem := d.rem - 1, stop := .count, phase := .done }) ∨
    (d.cnt.toNat + 1 ≠ d.total ∧ d.rem - 1 = 0 ∧ d.afterGroupPixel d' = { d' with rem := d.rem - 1, phase := .fetch }) ∨
    (d.cnt.toNat + 1 ≠ d.total ∧ d.rem - 1 ≠ 0 ∧ d.afterGroupPixel d' = { d' with rem := d.rem - 1 }) := by
  unfold Dec.afterGroupPixel
  by_cases hn : d.cnt.toNat + 1 = d.total
  · exact .inl ⟨hn, if_pos hn⟩
  · by_cases hr : d.rem - 1 = 0
    · exact .inr (.inl ⟨hn, hr, by rw [if_neg hn, if_pos hr]⟩)
    · exact .inr (.inr ⟨hn, hr, by rw [if_neg hn, if_neg hr]⟩)

/-- It touches `rem`, the stop cause and the phase alone. -/
theorem Dec.afterGroupPixel_frame (d d' : Dec) :
    ∃ c p, d.afterGroupPixel d' = { d' with rem := d.rem - 1, stop := c, phase := p } := by
  rcases d.afterGroupPixel_cases d' with ⟨-, h⟩ | ⟨-, -, h⟩ | ⟨-, -, h⟩ <;> exact ⟨_, _, h⟩

theorem padStep_cases (d : Dec) :
    (d.cnt.toNat + 1 = d.total ∧ padStep d = { d.emit Pixel.black with phase := .done }) ∨
    (d.cnt.toNat + 1 ≠ d.total ∧ padStep d = d.emit Pixel.black) := by
  unfold padStep
  by_cases hn : d.cnt.toNat + 1 = d.total
  · exact .inl ⟨hn, if_pos hn⟩
  · exact .inr ⟨hn, if_neg hn⟩

theorem padStep_frame (d : Dec) : ∃ p, padStep d = { d.emit Pixel.black with phase := p } := by
  rcases padStep_cases d with ⟨-, h⟩ | ⟨-, h⟩ <;> exact ⟨_, h⟩

/-! ## The stop cause (R14, R33) -/

theorem Dec.afterGroupPixel_stop (d d' : Dec) :
    (d.afterGroupPixel d').stop = d'.stop ∨
      ((d.afterGroupPixel d').stop = .count ∧ (d.afterGroupPixel d').phase = .done) := by
  rcases d.afterGroupPixel_cases d' with ⟨-, h⟩ | ⟨-, -, h⟩ | ⟨-, -, h⟩ <;> simp [h]

/-- A move of DEC that changes the stop cause ends the decode loop. -/
theorem DecMove.stop {s : State} {d : Dec} (h : DecMove s d) :
    d.stop = s.dec.stop ∨
    ((s.dec.phase = .fetch ∨ s.dec.phase = .run ∨ s.dec.phase = .lit) ∧ d.stop ≠ .none ∧
      (d.phase = .pad ∨ d.phase = .done)) := by
  cases h with
  | still | takeRun | takeLit => exact .inl rfl
  | count hp => exact .inr ⟨.inl hp, nofun, .inr rfl⟩
  | eob hp | shortRun hp | shortLit hp => exact .inr ⟨.inl hp, nofun, .inl rfl⟩
  | runPixel hp =>
    rcases s.dec.afterGroupPixel_stop (s.dec.emit s.dec.smp) with h | ⟨hc, hd⟩
    · exact .inl h
    · exact .inr ⟨.inr (.inl hp), by rw [runStep, hc]; nofun, .inr hd⟩
  | litPixel hp =>
    rcases s.dec.afterGroupPixel_stop ((s.dec.emit (s.sampleAt s.dec.pos.toNat)).advance 3) with h | ⟨hc, hd⟩
    · exact .inl h
    · exact .inr ⟨.inr (.inr hp), by rw [litStep, hc]; nofun, .inr hd⟩
  | padPixel =>
    obtain ⟨p, h⟩ := padStep_frame s.dec
    exact .inl (by simp [h])

/-- An access of the host that changes the stop cause is a START or a reset. -/
theorem HostDec.stop {s : State} {op : HostOp} {d : Dec} (h : HostDec s op d) :
    d.stop = s.dec.stop ∨ (d.stop = .none ∧ (d.phase = .fetch ∨ d.phase = .idle)) := by
  cases h with
  | start => exact .inr ⟨rfl, .inl rfl⟩
  | reset => exact .inr ⟨rfl, .inr rfl⟩
  | same | configure | observe | showPos | showCnt | writeSrc | writeDst => exact .inl rfl

/-- Settles O27, over what a step of the block can be. -/
theorem theStopCauseIsLatched : Obligations.TheStopCauseIsLatched := by
  intro s t hstep hne
  rcases step_next hstep with ⟨-, d, rfl, hm⟩ | ⟨e, rfl, -⟩ | ⟨op, -, ha⟩
  · exact .inl (hm.stop.resolve_left hne)
  · exact absurd rfl hne
  · exact .inr (ha.hostDec.stop.resolve_left hne)

end Sys2Proof.Machine
end

section
/-! The invariant of unit DEC (R21): what a step of the unit does to its cursors and to DST, and that every step of the unit
and every access of the host keeps the invariant. -/

namespace Sys2Proof.Machine

open Sys2Proof.Safety

/-! ## Registers that do not wrap (R22) -/

theorem toNat_add_of_le {a n b : Word64} (h : a.toNat + n.toNat ≤ b.toNat) : (a + n).toNat = a.toNat + n.toNat := by
  have := b.isLt
  rw [BitVec.toNat_add, Nat.mod_eq_of_lt (by omega)]

/-- `N` is below `2^64` (R15). -/
theorem Dec.total_lt (d : Dec) : d.total < 2 ^ 64 :=
  calc d.total < 2 ^ 32 * 2 ^ 32 := Nat.mul_lt_mul'' d.w.isLt d.h.isLt
    _ = 2 ^ 64 := by norm_num

theorem Dec.cnt_add_one {d : Dec} (h : d.cnt.toNat < d.total) : (d.cnt + 1).toNat = d.cnt.toNat + 1 := by
  have := d.total_lt
  rw [BitVec.toNat_add, Nat.mod_eq_of_lt (by simp; omega)]
  rfl

/-- The values held so far and the one left lie below the value advanced to. -/
theorem held_le_of_advance {held : List Word64} {now next : Word64} (h : ∀ v ∈ held, v ≤ now) (hle : now ≤ next) :
    ∀ v ∈ now :: held, v ≤ next := by
  intro v hv
  rcases List.mem_cons.1 hv with rfl | hv
  · exact hle
  · exact BitVec.le_trans (h v hv) hle

/-! ## The invariant in two parts -/

/-- What R21 says of each phase. -/
def Dec.PhaseOk (d : Dec) : Prop :=
  match d.phase with
  | .idle => (d.pos = 0 ∧ d.cnt = 0 ∧ d.rem = 0 ∧ d.smp = Pixel.black ∧ d.stop = .none) ∧ d.inFlight = false
  | .fetch => d.rem = 0 ∧ d.stop = .none
  | .run => 1 ≤ d.rem.toNat ∧ d.rem.toNat ≤ 128 ∧ d.cnt.toNat < d.total ∧ d.stop = .none
  | .lit => 1 ≤ d.rem.toNat ∧ d.rem.toNat ≤ 128 ∧ d.cnt.toNat < d.total ∧ d.stop = .none ∧
      d.pos.toNat + 3 * d.rem.toNat ≤ d.len.toNat
  | .pad => d.cnt.toNat < d.total ∧ (d.stop = .eob ∨ d.stop = .shortRun ∨ d.stop = .shortLit)
  | .done => d.stop ≠ .none

/-- What holds of a unit that is BUSY, whatever its phase. -/
structure Dec.Running (caps : Caps) (d : Dec) : Prop where
  pos_le : d.pos.toNat ≤ d.len.toNat
  cnt_le : d.cnt.toNat ≤ d.total
  duties : d.fits caps = true ∧ reaches caps.srcShared d.len.toNat = false
  started : d.inFlight = true
  atStart : d.lenAtStart = d.len
  posSeen : d.posSeen ≤ d.pos
  cntSeen : d.cntSeen ≤ d.cnt
  posHeld : ∀ v ∈ d.posHeld, v ≤ d.pos
  cntHeld : ∀ v ∈ d.cntHeld, v ≤ d.cnt

section

variable {d : Dec}

theorem Dec.phaseOk_idle (h : d.phase = .idle) : d.PhaseOk ↔
    (d.pos = 0 ∧ d.cnt = 0 ∧ d.rem = 0 ∧ d.smp = Pixel.black ∧ d.stop = .none) ∧ d.inFlight = false := by
  simp only [Dec.PhaseOk, h]

theorem Dec.phaseOk_fetch (h : d.phase = .fetch) : d.PhaseOk ↔ d.rem = 0 ∧ d.stop = .none := by
  simp only [Dec.PhaseOk, h]

theorem Dec.phaseOk_run (h : d.phase = .run) : d.PhaseOk ↔
    1 ≤ d.rem.toNat ∧ d.rem.toNat ≤ 128 ∧ d.cnt.toNat < d.total ∧ d.stop = .none := by
  simp only [Dec.PhaseOk, h]

theorem Dec.phaseOk_lit (h : d.phase = .lit) : d.PhaseOk ↔
    1 ≤ d.rem.toNat ∧ d.rem.toNat ≤ 128 ∧ d.cnt.toNat < d.total ∧ d.stop = .none ∧
      d.pos.toNat + 3 * d.rem.toNat ≤ d.len.toNat := by
  simp only [Dec.PhaseOk, h]

theorem Dec.phaseOk_pad (h : d.phase = .pad) : d.PhaseOk ↔
    d.cnt.toNat < d.total ∧ (d.stop = .eob ∨ d.stop = .shortRun ∨ d.stop = .shortLit) := by
  simp only [Dec.PhaseOk, h]

theorem Dec.phaseOk_done (h : d.phase = .done) : d.PhaseOk ↔ d.stop ≠ .none := by
  simp only [Dec.PhaseOk, h]

end

end Sys2Proof.Machine

namespace Sys2Proof.Safety

open Sys2Proof.Machine

theorem DecInv.phaseOk {s : State} (h : DecInv s) : s.dec.PhaseOk := by
  cases hp : s.dec.phase with
  | idle => exact (Dec.phaseOk_idle hp).2 ⟨h.idle hp, h.unstarted hp⟩
  | fetch => exact (Dec.phaseOk_fetch hp).2 (h.fetch hp)
  | run => exact (Dec.phaseOk_run hp).2 (h.run hp)
  | lit => exact (Dec.phaseOk_lit hp).2 (h.lit hp)
  | pad => exact (Dec.phaseOk_pad hp).2 (h.pad hp)
  | done => exact (Dec.phaseOk_done hp).2 (h.done hp)

theorem DecInv.running {s : State} (h : DecInv s) (hb : s.dec.busy = true) : s.dec.Running s.caps :=
  ⟨h.pos_le hb, h.cnt_le hb, h.duties hb, h.started hb, h.atStart hb, (h.seen hb).1, (h.seen hb).2, (h.held hb).1,
    (h.held hb).2⟩

theorem DecInv.of_parts {s : State} (hp : s.dec.PhaseOk) (hr : s.dec.busy = true → s.dec.Running s.caps) : DecInv s where
  pos_le hb := (hr hb).pos_le
  cnt_le hb := (hr hb).cnt_le
  fetch h := (Dec.phaseOk_fetch h).1 hp
  run h := (Dec.phaseOk_run h).1 hp
  lit h := (Dec.phaseOk_lit h).1 hp
  pad h := (Dec.phaseOk_pad h).1 hp
  done h := (Dec.phaseOk_done h).1 hp
  idle h := ((Dec.phaseOk_idle h).1 hp).1
  unstarted h := ((Dec.phaseOk_idle h).1 hp).2
  duties hb := (hr hb).duties
  started hb := (hr hb).started
  atStart hb := (hr hb).atStart
  seen hb := ⟨(hr hb).posSeen, (hr hb).cntSeen⟩
  held hb := ⟨(hr hb).posHeld, (hr hb).cntHeld⟩

/-- The invariant of DEC speaks of DEC and the capacities alone. -/
theorem DecInv.congr {s t : State} (h : DecInv s) (hd : t.dec = s.dec) (hc : t.caps = s.caps) : DecInv t :=
  .of_parts (hd ▸ h.phaseOk) (fun hb => by rw [hd] at hb ⊢; rw [hc]; exact h.running hb)

end Sys2Proof.Safety

namespace Sys2Proof.Machine

open Sys2Proof.Safety

/-! ## What a move of DEC does -/

/-- Only the working registers and DST change. -/
theorem DecMove.onlyDecWorks {s : State} {d : Dec} (h : DecMove s d) : OnlyDecWorks s (s.setDec d) := by
  cases h with
  | still | count | eob | shortRun | takeRun | shortLit | takeLit => constructor <;> rfl
  | runPixel =>
    obtain ⟨c, p, h⟩ := s.dec.afterGroupPixel_frame (s.dec.emit s.dec.smp)
    rw [runStep, h]
    constructor <;> rfl
  | litPixel =>
    obtain ⟨c, p, h⟩ := s.dec.afterGroupPixel_frame ((s.dec.emit (s.sampleAt s.dec.pos.toNat)).advance 3)
    rw [litStep, h]
    constructor <;> rfl
  | padPixel =>
    obtain ⟨p, h⟩ := padStep_frame s.dec
    rw [h]
    constructor <;> rfl

theorem DecMove.total {s : State} {d : Dec} (h : DecMove s d) : d.total = s.dec.total := by
  have hf := h.onlyDecWorks
  simp only [Dec.total, show d.w = s.dec.w from hf.w, show d.h = s.dec.h from hf.h]

/-- A unit that is BUSY after a step was BUSY before it. -/
theorem DecMove.busy {s : State} {d : Dec} (h : DecMove s d) (hb : d.busy = true) : s.dec.busy = true := by
  cases h with
  | still => exact hb
  | count hp | eob hp | shortRun hp | takeRun hp | shortLit hp | takeLit hp | runPixel hp | litPixel hp | padPixel hp =>
    simp [Dec.busy_iff, hp]

/-- A unit that is not BUSY has no step (R95). -/
theorem DecMove.eq_of_not_busy {s : State} {d : Dec} (h : DecMove s d) (hb : s.dec.busy = false) : d = s.dec := by
  rw [h.eq_decNext]
  rcases (Dec.not_busy_iff _).1 hb with hp | hp <;> simp [State.decNext, hp]

/-- The cursor stays, or advances within the block (R17). -/
theorem DecMove.pos {s : State} {d : Dec} (h : DecMove s d) (hi : DecInv s) :
    (d.pos = s.dec.pos ∧ d.posHeld = s.dec.posHeld) ∨
    ∃ n : Word64, d.pos = s.dec.pos + n ∧ s.dec.pos.toNat + n.toNat ≤ s.dec.len.toNat ∧
      d.posHeld = s.dec.pos :: s.dec.posHeld := by
  cases h with
  | still | count | eob => exact .inl ⟨rfl, rfl⟩
  | shortRun hp hc hl | shortLit hp hc hl | takeLit hp hc hl => exact .inr ⟨1, rfl, hl, rfl⟩
  | takeRun hp hc hl hf ha => exact .inr ⟨4, rfl, by simp; omega, rfl⟩
  | runPixel =>
    obtain ⟨c, p, h⟩ := s.dec.afterGroupPixel_frame (s.dec.emit s.dec.smp)
    rw [runStep, h]
    exact .inl ⟨rfl, rfl⟩
  | litPixel hp =>
    obtain ⟨c, p, h⟩ := s.dec.afterGroupPixel_frame ((s.dec.emit (s.sampleAt s.dec.pos.toNat)).advance 3)
    obtain ⟨hr, -, -, -, hle⟩ := hi.lit hp
    rw [litStep, h]
    exact .inr ⟨3, rfl, by simp; omega, rfl⟩
  | padPixel =>
    obtain ⟨p, h⟩ := padStep_frame s.dec
    rw [h]
    exact .inl ⟨rfl, rfl⟩

/-- No pixel is written, or one at `DEC_CNT`, below `N`, and counted (R18, R46). -/
theorem DecMove.pixel {s : State} {d : Dec} (h : DecMove s d) (hi : DecInv s) :
    (d.cnt = s.dec.cnt ∧ d.dst = s.dec.dst ∧ d.cntHeld = s.dec.cntHeld) ∨
    (s.dec.cnt.toNat < s.dec.total ∧ d.cnt = s.dec.cnt + 1 ∧ d.cntHeld = s.dec.cnt :: s.dec.cntHeld ∧
      ∃ px, d.dst = s.dec.dst.write s.dec.cnt.toNat px) := by
  cases h with
  | still | count | eob | shortRun | takeRun | shortLit | takeLit => exact .inl ⟨rfl, rfl, rfl⟩
  | runPixel hp =>
    obtain ⟨c, p, h⟩ := s.dec.afterGroupPixel_frame (s.dec.emit s.dec.smp)
    obtain ⟨-, -, hlt, -⟩ := hi.run hp
    rw [runStep, h]
    exact .inr ⟨hlt, rfl, rfl, _, rfl⟩
  | litPixel hp =>
    obtain ⟨c, p, h⟩ := s.dec.afterGroupPixel_frame ((s.dec.emit (s.sampleAt s.dec.pos.toNat)).advance 3)
    obtain ⟨-, -, hlt, -⟩ := hi.lit hp
    rw [litStep, h]
    exact .inr ⟨hlt, rfl, rfl, _, rfl⟩
  | padPixel hp =>
    obtain ⟨p, h⟩ := padStep_frame s.dec
    rw [h]
    exact .inr ⟨(hi.pad hp).1, rfl, rfl, _, rfl⟩

theorem Dec.afterGroupPixel_cnt (d d' : Dec) : (d.afterGroupPixel d').cnt = d'.cnt := by
  obtain ⟨c, p, h⟩ := d.afterGroupPixel_frame d'
  rw [h]

theorem Dec.cnt_of_afterGroupPixel_done {d d' : Dec} (h : (d.afterGroupPixel d').phase = .done)
    (hp : d'.phase ≠ .done) : d.cnt.toNat + 1 = d.total := by
  rcases d.afterGroupPixel_cases d' with ⟨hn, -⟩ | ⟨-, -, h'⟩ | ⟨-, -, h'⟩
  · exact hn
  · rw [h'] at h
    cases h
  · rw [h'] at h
    exact absurd h hp

theorem DecMove.pos_bounds {s : State} {d : Dec} (h : DecMove s d) (hi : DecInv s) (hb : s.dec.busy = true) :
    s.dec.pos.toNat ≤ d.pos.toNat ∧ d.pos.toNat ≤ s.dec.len.toNat := by
  rcases h.pos hi with ⟨hp, -⟩ | ⟨n, hp, hle, -⟩
  · rw [hp]
    exact ⟨Nat.le_refl _, hi.pos_le hb⟩
  · rw [hp, toNat_add_of_le hle]
    exact ⟨Nat.le_add_right _ _, hle⟩

theorem DecMove.cnt_bounds {s : State} {d : Dec} (h : DecMove s d) (hi : DecInv s) (hb : s.dec.busy = true) :
    s.dec.cnt.toNat ≤ d.cnt.toNat ∧ d.cnt.toNat ≤ s.dec.total := by
  rcases h.pixel hi with ⟨hc, -⟩ | ⟨hlt, hc, -⟩
  · rw [hc]
    exact ⟨Nat.le_refl _, hi.cnt_le hb⟩
  · rw [hc, Dec.cnt_add_one hlt]
    exact ⟨Nat.le_succ _, hlt⟩

/-- DONE is entered with the pixel count reached. -/
theorem DecMove.cnt_of_done {s : State} {d : Dec} (h : DecMove s d) (hi : DecInv s) (hb : s.dec.busy = true)
    (hd : d.phase = .done) : d.cnt.toNat = s.dec.total := by
  cases h with
  | still hn => exact absurd (hn.symm.trans hb) nofun
  | count hp hc => exact hc
  | eob | shortRun | takeRun | shortLit | takeLit => cases hd
  | runPixel hp =>
    obtain ⟨-, -, hlt, -⟩ := hi.run hp
    have hn := Dec.cnt_of_afterGroupPixel_done hd (by simp [hp])
    rw [runStep, Dec.afterGroupPixel_cnt, Dec.emit_cnt, Dec.cnt_add_one hlt, hn]
  | litPixel hp =>
    obtain ⟨-, -, hlt, -⟩ := hi.lit hp
    have hn := Dec.cnt_of_afterGroupPixel_done hd (by simp [hp])
    rw [litStep, Dec.afterGroupPixel_cnt, Dec.advance_cnt, Dec.emit_cnt, Dec.cnt_add_one hlt, hn]
  | padPixel hp =>
    obtain ⟨hlt, -⟩ := hi.pad hp
    rcases padStep_cases s.dec with ⟨hn, h⟩ | ⟨-, h⟩
    · rw [h, ← hn]
      exact Dec.cnt_add_one hlt
    · rw [h, Dec.emit_phase, hp] at hd
      cases hd

/-! ## A move of DEC keeps the invariant -/

theorem groupLen_toNat (c : Byte) : (BitVec.ofNat 8 (groupLen c)).toNat = groupLen c := by
  have := groupLen_le c
  simp only [Config.maxGroup] at this
  rw [BitVec.toNat_ofNat, Nat.mod_eq_of_lt (by omega)]

theorem rem_sub_one {r : BitVec 8} (h : 1 ≤ r.toNat) : (r - 1).toNat = r.toNat - 1 :=
  BitVec.toNat_sub_of_le (by simpa [BitVec.le_def] using h)

/-- `rem` counted down and not yet 0 (R19). -/
theorem rem_sub_one_bounds {r : BitVec 8} (h1 : 1 ≤ r.toNat) (h128 : r.toNat ≤ 128) (hr : r - 1 ≠ 0) :
    1 ≤ (r - 1).toNat ∧ (r - 1).toNat ≤ 128 := by
  have h0 : (r - 1).toNat ≠ 0 := fun h0 => hr (BitVec.eq_of_toNat_eq h0)
  rw [rem_sub_one h1] at h0 ⊢
  omega

theorem Dec.cnt_add_one_lt {d : Dec} (h : d.cnt.toNat < d.total) (hn : d.cnt.toNat + 1 ≠ d.total) :
    (d.cnt + 1).toNat < d.total := by
  rw [Dec.cnt_add_one h]
  omega

theorem DecMove.phaseOk {s : State} {d : Dec} (h : DecMove s d) (hi : DecInv s) : d.PhaseOk := by
  have hcnt : s.dec.phase = .fetch → s.dec.cnt.toNat ≤ s.dec.total := fun hp => hi.cnt_le (by simp [Dec.busy_iff, hp])
  cases h with
  | still => exact hi.phaseOk
  | count => exact nofun
  | eob hp hc => exact ⟨Nat.lt_of_le_of_ne (hcnt hp) hc, .inl rfl⟩
  | shortRun hp hc => exact ⟨Nat.lt_of_le_of_ne (hcnt hp) hc, .inr (.inl rfl)⟩
  | shortLit hp hc => exact ⟨Nat.lt_of_le_of_ne (hcnt hp) hc, .inr (.inr rfl)⟩
  | takeRun hp hc =>
    refine (Dec.phaseOk_run rfl).2 ⟨?_, ?_, Nat.lt_of_le_of_ne (hcnt hp) hc, (hi.fetch hp).2⟩
    · exact (groupLen_toNat _).symm ▸ groupLen_pos _
    · exact (groupLen_toNat _).symm ▸ groupLen_le _
  | takeLit hp hc hl hf ha =>
    have hpos : (s.dec.pos + 1).toNat = s.dec.pos.toNat + 1 := toNat_add_of_le hl
    refine (Dec.phaseOk_lit rfl).2 ⟨?_, ?_, Nat.lt_of_le_of_ne (hcnt hp) hc, (hi.fetch hp).2, ?_⟩
    · exact (groupLen_toNat _).symm ▸ groupLen_pos _
    · exact (groupLen_toNat _).symm ▸ groupLen_le _
    · rw [takeLit_pos, takeLit_len, takeLit_rem, groupLen_toNat, hpos]
      omega
  | runPixel hp =>
    obtain ⟨h1, h128, hlt, hs⟩ := hi.run hp
    rcases s.dec.afterGroupPixel_cases (s.dec.emit s.dec.smp) with ⟨-, h⟩ | ⟨-, hr, h⟩ | ⟨hn, hr, h⟩
    · rw [runStep, h]
      exact (Dec.phaseOk_done rfl).2 nofun
    · rw [runStep, h]
      exact (Dec.phaseOk_fetch rfl).2 ⟨hr, hs⟩
    · obtain ⟨hr1, hr128⟩ := rem_sub_one_bounds h1 h128 hr
      rw [runStep, h]
      exact (Dec.phaseOk_run (by exact hp)).2 ⟨hr1, hr128, Dec.cnt_add_one_lt hlt hn, hs⟩
  | litPixel hp =>
    obtain ⟨h1, h128, hlt, hs, hle⟩ := hi.lit hp
    rcases s.dec.afterGroupPixel_cases ((s.dec.emit (s.sampleAt s.dec.pos.toNat)).advance 3) with
      ⟨-, h⟩ | ⟨-, hr, h⟩ | ⟨hn, hr, h⟩
    · rw [litStep, h]
      exact (Dec.phaseOk_done rfl).2 nofun
    · rw [litStep, h]
      exact (Dec.phaseOk_fetch rfl).2 ⟨hr, hs⟩
    · obtain ⟨hr1, hr128⟩ := rem_sub_one_bounds h1 h128 hr
      have hpos : (s.dec.pos + 3).toNat + 3 * (s.dec.rem - 1).toNat ≤ s.dec.len.toNat := by
        have h3 : (s.dec.pos + 3).toNat = s.dec.pos.toNat + 3 := toNat_add_of_le (b := s.dec.len) (by simp; omega)
        rw [h3, rem_sub_one h1]
        omega
      rw [litStep, h]
      exact (Dec.phaseOk_lit (by exact hp)).2 ⟨hr1, hr128, Dec.cnt_add_one_lt hlt hn, hs, hpos⟩
  | padPixel hp =>
    obtain ⟨hlt, hs⟩ := hi.pad hp
    rcases padStep_cases s.dec with ⟨-, h⟩ | ⟨hn, h⟩
    · rw [h]
      refine (Dec.phaseOk_done rfl).2 ?_
      rcases hs with hs | hs | hs <;> simp [hs]
    · rw [h]
      exact (Dec.phaseOk_pad (by exact hp)).2 ⟨Dec.cnt_add_one_lt hlt hn, hs⟩

theorem DecMove.running {s : State} {d : Dec} (h : DecMove s d) (hi : DecInv s) (hb : s.dec.busy = true) :
    d.Running s.caps := by
  have hr := hi.running hb
  have hf := h.onlyDecWorks
  obtain ⟨hpos, hpos'⟩ := h.pos_bounds hi hb
  obtain ⟨hcnt, hcnt'⟩ := h.cnt_bounds hi hb
  have hlen : d.len = s.dec.len := hf.len
  refine ⟨hlen ▸ hpos', h.total ▸ hcnt', ?_, ?_, ?_, ?_, ?_, ?_, ?_⟩
  · simpa only [Dec.fits, hlen, h.total] using hr.duties
  · exact hf.inFlight.trans hr.started
  · exact (hf.lenAtStart.trans hr.atStart).trans hlen.symm
  · exact BitVec.le_trans (BitVec.le_of_eq hf.posSeen) (BitVec.le_trans hr.posSeen hpos)
  · exact BitVec.le_trans (BitVec.le_of_eq hf.cntSeen) (BitVec.le_trans hr.cntSeen hcnt)
  · rcases h.pos hi with ⟨hp, hh⟩ | ⟨n, -, -, hh⟩
    · rw [hp, hh]
      exact hr.posHeld
    · rw [hh]
      exact held_le_of_advance hr.posHeld hpos
  · rcases h.pixel hi with ⟨hc, -, hh⟩ | ⟨-, -, hh, -⟩
    · rw [hc, hh]
      exact hr.cntHeld
    · rw [hh]
      exact held_le_of_advance hr.cntHeld hcnt

theorem DecMove.decInv {s : State} {d : Dec} (h : DecMove s d) (hi : DecInv s) : DecInv (s.setDec d) :=
  .of_parts (h.phaseOk hi) (fun hb => h.running hi (h.busy hb))

/-- DST is written below its capacity (R164 item 4). -/
theorem DecMove.dst_ok {s : State} {d : Dec} (h : DecMove s d) (hi : DecInv s) (hb : s.dec.busy = true) (hm : MemInv s) :
    d.dst.wf = true ∧ d.dst.below s.caps.dstCap = true := by
  obtain ⟨-, hcap⟩ : s.dec.len.toNat ≤ s.caps.srcCap ∧ s.dec.total ≤ s.caps.dstCap := by
    simpa [Dec.fits] using (hi.duties hb).1
  rcases h.pixel hi with ⟨-, hd, -⟩ | ⟨hlt, -, -, px, hd⟩
  · exact hd ▸ ⟨hm.dst, hm.dstBelow⟩
  · exact hd ▸ ⟨Memory.wf_write _ _ hm.dst, Memory.below_write _ hm.dstBelow (Nat.lt_of_lt_of_le hlt hcap)⟩

theorem DecMove.memInv {s : State} {d : Dec} (h : DecMove s d) (hi : DecInv s) (hm : MemInv s) :
    MemInv (s.setDec d) := by
  cases hb : s.dec.busy with
  | false => exact h.eq_of_not_busy hb ▸ hm
  | true =>
    have hsrc : d.src = s.dec.src := h.onlyDecWorks.src
    obtain ⟨hwf, hbelow⟩ := h.dst_ok hi hb hm
    exact ⟨hsrc ▸ hm.src, hwf, hm.pix, hm.out, hsrc ▸ hm.srcBelow, hbelow, hm.pixBelow, hm.outBelow⟩

/-! ## An access of the host keeps the invariant -/

theorem Dec.PhaseOk.configure {d : Dec} (h : d.PhaseOk) (hb : d.busy = false) (w hh : Word32) (len : Word64) :
    Dec.PhaseOk { d with w := w, h := hh, len := len } := by
  rcases (Dec.not_busy_iff d).1 hb with hp | hp
  · exact (Dec.phaseOk_idle (by exact hp)).2 ((Dec.phaseOk_idle hp).1 h)
  · exact (Dec.phaseOk_done (by exact hp)).2 ((Dec.phaseOk_done hp).1 h)

theorem HostDec.decInv {s t : State} {op : HostOp} (h : HostDec s op t.dec) (hc : t.caps = s.caps) (hi : DecInv s) :
    DecInv t := by
  suffices H : ∀ d, HostDec s op d → d.PhaseOk ∧ (d.busy = true → d.Running s.caps) from
    .of_parts (H _ h).1 (hc ▸ (H _ h).2)
  have hp := hi.phaseOk
  have hr := hi.running
  intro d h
  cases h with
  | same => exact ⟨hp, hr⟩
  | start v hv hb hs hf =>
    exact ⟨⟨rfl, rfl⟩, fun _ => ⟨Nat.zero_le _, Nat.zero_le _, ⟨hf, hs⟩, rfl, rfl, BitVec.le_refl _, BitVec.le_refl _,
      nofun, nofun⟩⟩
  | configure r v w hh len hb => exact ⟨hp.configure hb w hh len, fun hb' => absurd (hb.symm.trans hb') nofun⟩
  | observe hd =>
    refine ⟨?_, fun hb => ?_⟩
    · exact (Dec.phaseOk_done (by exact hd)).2 ((Dec.phaseOk_done hd).1 hp)
    · simp [Dec.busy, hd] at hb
  | showPos v hb hv =>
    have hle := progressValue_between s.draws (hr hb).posSeen (hr hb).posHeld
    obtain ⟨h1, h2, h3, h4, h5, -, h7, h8, h9⟩ := hr hb
    exact ⟨hp, fun _ => ⟨h1, h2, h3, h4, h5, hv ▸ hle.2, h7, h8, h9⟩⟩
  | showCnt v hb hv =>
    have hle := progressValue_between s.draws (hr hb).cntSeen (hr hb).cntHeld
    obtain ⟨h1, h2, h3, h4, h5, h6, -, h8, h9⟩ := hr hb
    exact ⟨hp, fun _ => ⟨h1, h2, h3, h4, h5, h6, hv ▸ hle.2, h8, h9⟩⟩
  | writeSrc a v ha hh =>
    refine ⟨hp, fun hb => ?_⟩
    have hb' : s.dec.busy = true := hb
    simp [Dec.inputHeld, hb'] at hh
  | writeDst k v hk hn => exact ⟨hp, fun hb => absurd (hn.symm.trans (hr hb).started) nofun⟩
  | reset => exact ⟨⟨⟨rfl, rfl, rfl, rfl, rfl⟩, rfl⟩, nofun⟩

/-! ## The statements -/

/-- Settles O28: a move's bounds on the cursors, and the invariant it keeps for the stop cause. -/
theorem theDecodersCursorsStayInBounds : Obligations.TheDecodersCursorsStayInBounds := by
  intro s t hi hb ht
  obtain ⟨d, rfl, hm⟩ := decTurn_next ht
  obtain ⟨hpos, hpos'⟩ := hm.pos_bounds hi.dec hb
  obtain ⟨hcnt, hcnt'⟩ := hm.cnt_bounds hi.dec hb
  exact ⟨hpos, hpos', hcnt, hcnt', fun hd => ⟨hm.cnt_of_done hi.dec hb hd, (hm.decInv hi.dec).done hd⟩⟩

/-- Settles O29: a move writes no pixel, or one at `DEC_CNT`. -/
theorem theDecoderWritesEachPixelOnceInOrder : Obligations.TheDecoderWritesEachPixelOnceInOrder := by
  intro s t hi ht
  obtain ⟨d, rfl, hm⟩ := decTurn_next ht
  rcases hm.pixel hi.dec with ⟨hc, hd, -⟩ | ⟨hlt, hc, -, px, hd⟩
  · exact .inl ⟨hc, hd⟩
  · refine .inr ⟨hlt, by rw [State.setDec_dec, hc, Dec.cnt_add_one hlt], fun k hk => ?_⟩
    rw [dstPixel_write s (s.setDec d) _ px hd rfl, if_neg hk]

end Sys2Proof.Machine
end

section
/-! The reference encoder (R111 to R115): what its two counting loops answer, that the group it forms depends on the pixels
of the group alone, and how the list of groups splits at a group boundary. -/

namespace Sys2Proof.Machine

/-! ## Counting up while a condition holds -/

/-- Count up from `c` while `p` holds of the count, `fuel` rounds at most: the shape of the two inner loops of R111. -/
def countUp (p : Nat → Prop) [DecidablePred p] : (fuel c : Nat) → Nat
  | 0, c => c
  | fuel + 1, c => if p c then countUp p fuel (c + 1) else c

section

variable {p q : Nat → Prop} [DecidablePred p] [DecidablePred q]

theorem le_countUp (fuel c : Nat) : c ≤ countUp p fuel c := by
  induction fuel generalizing c with
  | zero => exact Nat.le_refl c
  | succ fuel ih =>
    unfold countUp
    split
    · exact Nat.le_of_succ_le (ih (c + 1))
    · exact Nat.le_refl c

theorem countUp_le {bound : Nat} (hp : ∀ k, p k → k < bound) (fuel : Nat) {c : Nat} (hc : c ≤ bound) :
    countUp p fuel c ≤ bound := by
  induction fuel generalizing c with
  | zero => exact hc
  | succ fuel ih =>
    unfold countUp
    split
    · exact ih (hp c ‹_›)
    · exact hc

/-- A stronger condition that still holds up to the answer gives the same answer. -/
theorem countUp_congr (hqp : ∀ k, q k → p k) (fuel c : Nat) (hpq : ∀ k, k < countUp p fuel c → p k → q k) :
    countUp q fuel c = countUp p fuel c := by
  induction fuel generalizing c with
  | zero => rfl
  | succ fuel ih =>
    by_cases hp : p c
    · have hlt : c < countUp p (fuel + 1) c := by
        simp only [countUp, if_pos hp]
        exact le_countUp fuel (c + 1)
      have hq : q c := hpq c hlt hp
      simp only [countUp, if_pos hp] at hpq
      simp only [countUp, if_pos hp, if_pos hq]
      exact ih (c + 1) hpq
    · have hq : ¬ q c := fun h => hp (hqp c h)
      simp only [countUp, if_neg hp, if_neg hq]

end

/-! ## Run count and literal length -/

/-- The condition of the run loop (R112). -/
abbrev RunGoesOn (pix : Nat → Pixel) (n i c : Nat) : Prop := c < Config.maxGroup ∧ i + c < n ∧ pix (i + c) = pix i

/-- The condition of the literal loop (R114). -/
abbrev LitGoesOn (pix : Nat → Pixel) (n i l : Nat) : Prop :=
  l < Config.maxGroup ∧ i + l < n ∧ (pix (i + l) ≠ pix (i + l - 1) ∨ l = 1)

theorem runCountFrom_eq_countUp (pix : Nat → Pixel) (n i fuel c : Nat) :
    runCountFrom pix n i fuel c = countUp (RunGoesOn pix n i) fuel c := by
  induction fuel generalizing c with
  | zero => rfl
  | succ fuel ih => simp only [runCountFrom, countUp, ih]

theorem litLengthFrom_eq_countUp (pix : Nat → Pixel) (n i fuel l : Nat) :
    litLengthFrom pix n i fuel l = countUp (LitGoesOn pix n i) fuel l := by
  induction fuel generalizing l with
  | zero => rfl
  | succ fuel ih => simp only [litLengthFrom, countUp, ih]

section

variable {pix pix' : Nat → Pixel} {m n i : Nat}

theorem runCount_pos : 1 ≤ runCount pix n i := by
  rw [runCount, runCountFrom_eq_countUp]
  exact le_countUp _ _

theorem runCount_le : runCount pix n i ≤ Config.maxGroup := by
  rw [runCount, runCountFrom_eq_countUp]
  exact countUp_le (fun k h => h.1) _ (by decide)

theorem add_runCount_le (hi : i < n) : i + runCount pix n i ≤ n := by
  rw [runCount, runCountFrom_eq_countUp]
  have := countUp_le (p := RunGoesOn pix n i) (bound := n - i) (fun k h => by have := h.2.1; omega) Config.maxGroup
    (c := 1) (by omega)
  omega

theorem litLength_pos : 1 ≤ litLength pix n i := by
  rw [litLength, litLengthFrom_eq_countUp]
  exact le_countUp _ _

theorem litLength_le : litLength pix n i ≤ Config.maxGroup := by
  rw [litLength, litLengthFrom_eq_countUp]
  exact countUp_le (fun k h => h.1) _ (by decide)

theorem add_litLength_le (hi : i < n) : i + litLength pix n i ≤ n := by
  rw [litLength, litLengthFrom_eq_countUp]
  have := countUp_le (p := LitGoesOn pix n i) (bound := n - i) (fun k h => by have := h.2.1; omega) Config.maxGroup
    (c := 1) (by omega)
  omega

/-- The run count depends on the pixels it counts alone. -/
theorem runCount_congr (hpix : ∀ k, k < m → pix' k = pix k) (hmn : m ≤ n) (hle : i + runCount pix n i ≤ m) :
    runCount pix' m i = runCount pix n i := by
  have hi : pix' i = pix i := hpix i (by have := runCount_pos (pix := pix) (n := n) (i := i); omega)
  simp only [runCount, runCountFrom_eq_countUp] at hle ⊢
  refine countUp_congr (fun k hq => ?_) _ _ (fun k hk hp => ?_)
  · obtain ⟨hcap, hlt, heq⟩ := hq
    exact ⟨hcap, by omega, by rw [← hpix _ hlt, ← hi, heq]⟩
  · obtain ⟨hcap, -, heq⟩ := hp
    have hlt : i + k < m := by omega
    exact ⟨hcap, hlt, by rw [hpix _ hlt, hi, heq]⟩

/-- So does the literal length. -/
theorem litLength_congr (hpix : ∀ k, k < m → pix' k = pix k) (hmn : m ≤ n) (hle : i + litLength pix n i ≤ m) :
    litLength pix' m i = litLength pix n i := by
  simp only [litLength, litLengthFrom_eq_countUp] at hle ⊢
  refine countUp_congr (fun k hq => ?_) _ _ (fun k hk hp => ?_)
  · obtain ⟨hcap, hlt, hne⟩ := hq
    rw [hpix _ hlt, hpix _ (by omega)] at hne
    exact ⟨hcap, by omega, hne⟩
  · obtain ⟨hcap, -, hne⟩ := hp
    have hlt : i + k < m := by omega
    rw [← hpix _ hlt, ← hpix _ (by omega : i + k - 1 < m)] at hne
    exact ⟨hcap, hlt, hne⟩

/-! ## The group at a pixel -/

theorem groupAt_of_run (h : 2 ≤ runCount pix n i) : groupAt pix n i = .run (runCount pix n i) (pix i) := if_pos h

theorem groupAt_of_lit (h : ¬ 2 ≤ runCount pix n i) :
    groupAt pix n i = .lit ((List.range' i (litLength pix n i)).map pix) := if_neg h

theorem groupAt_pixels_of_lit (h : ¬ 2 ≤ runCount pix n i) : (groupAt pix n i).pixels = litLength pix n i := by
  simp [groupAt_of_lit h, Instr.pixels]

theorem groupAt_pixels_pos : 1 ≤ (groupAt pix n i).pixels := by
  by_cases h : 2 ≤ runCount pix n i
  · rw [groupAt_of_run h]
    exact runCount_pos
  · rw [groupAt_pixels_of_lit h]
    exact litLength_pos

theorem add_groupAt_pixels_le (hi : i < n) : i + (groupAt pix n i).pixels ≤ n := by
  by_cases h : 2 ≤ runCount pix n i
  · rw [groupAt_of_run h]
    exact add_runCount_le hi
  · rw [groupAt_pixels_of_lit h]
    exact add_litLength_le hi

/-- A group takes at most 4 bytes a pixel (R124). -/
theorem encodeGroup_groupAt_length_le : (encodeGroup (groupAt pix n i)).length ≤ 4 * (groupAt pix n i).pixels := by
  by_cases h : 2 ≤ runCount pix n i
  · rw [groupAt_of_run h, encodeGroup_run_length, Instr.pixels]
    omega
  · have := litLength_pos (pix := pix) (n := n) (i := i)
    simp only [groupAt_of_lit h, encodeGroup_lit_length, Instr.pixels, List.length_map, List.length_range']
    omega

/-- The group depends on its own pixels alone: it is formed in the same way where the sequence ends after it. -/
theorem groupAt_congr (hpix : ∀ k, k < m → pix' k = pix k) (hmn : m ≤ n) (hle : i + (groupAt pix n i).pixels ≤ m) :
    groupAt pix' m i = groupAt pix n i := by
  by_cases h : 2 ≤ runCount pix n i
  · rw [groupAt_of_run h] at hle ⊢
    have hrun := runCount_congr hpix hmn hle
    rw [groupAt_of_run (hrun ▸ h), hrun, hpix i (by simp only [Instr.pixels] at hle; omega)]
  · rw [groupAt_pixels_of_lit h] at hle
    have hlen := litLength_congr hpix hmn hle
    have hrun : runCount pix' m i = runCount pix n i := by
      have := litLength_pos (pix := pix) (n := n) (i := i)
      exact runCount_congr hpix hmn (by omega)
    rw [groupAt_of_lit h, groupAt_of_lit (hrun ▸ h), hlen]
    refine congrArg Instr.lit (List.map_congr_left fun k hk => hpix k ?_)
    rw [List.mem_range'_1] at hk
    omega

/-! ## The list of groups -/

theorem groupsFrom_of_lt (fuel : Nat) (hi : i < n) :
    groupsFrom pix n (fuel + 1) i = groupAt pix n i :: groupsFrom pix n fuel (i + (groupAt pix n i).pixels) :=
  if_pos hi

theorem groupsFrom_of_le (fuel : Nat) (hi : n ≤ i) : groupsFrom pix n fuel i = [] := by
  cases fuel with
  | zero => rfl
  | succ fuel => exact if_neg (by omega)

/-- What a list of groups that begins with `g` says of `g` and of the rest. -/
theorem groupsFrom_eq_cons {fuel : Nat} {g : Instr} {gs : List Instr} (h : groupsFrom pix n fuel i = g :: gs) :
    ∃ fuel', fuel = fuel' + 1 ∧ i < n ∧ g = groupAt pix n i ∧ gs = groupsFrom pix n fuel' (i + g.pixels) := by
  cases fuel with
  | zero => cases h
  | succ fuel =>
    by_cases hi : i < n
    · rw [groupsFrom_of_lt fuel hi] at h
      cases h
      exact ⟨fuel, rfl, hi, rfl, rfl⟩
    · rw [groupsFrom_of_le _ (by omega)] at h
      cases h

/-- After some of the groups, the others are the groups from the pixel reached on. -/
theorem groupsFrom_drop {fuel : Nat} {before after : List Instr} (h : groupsFrom pix n fuel i = before ++ after)
    (hfuel : n ≤ i + fuel) : ∃ fuel', n ≤ i + (before.map Instr.pixels).sum + fuel' ∧
      after = groupsFrom pix n fuel' (i + (before.map Instr.pixels).sum) := by
  induction before generalizing fuel i with
  | nil => exact ⟨fuel, hfuel, h.symm⟩
  | cons g before ih =>
    obtain ⟨fuel', rfl, hi, hg, hgs⟩ := groupsFrom_eq_cons h
    have hpos : 1 ≤ g.pixels := hg ▸ groupAt_pixels_pos
    obtain ⟨fuel'', hfuel'', hafter⟩ := ih hgs.symm (by omega)
    rw [List.map_cons, List.sum_cons, ← Nat.add_assoc]
    exact ⟨fuel'', hfuel'', hafter⟩

/-- Some of the groups are the groups of the pixels they cover: a sequence cut at a group boundary is encoded as before. -/
theorem groupsFrom_take {fuel fuel' : Nat} {before after : List Instr}
    (h : groupsFrom pix n fuel i = before ++ after) (hm : i + (before.map Instr.pixels).sum = m) (hmn : m ≤ n)
    (hpix : ∀ k, k < m → pix' k = pix k) (hfuel : m ≤ i + fuel') : groupsFrom pix' m fuel' i = before := by
  induction before generalizing fuel fuel' i with
  | nil => exact groupsFrom_of_le fuel' (by simpa using hm.ge)
  | cons g before ih =>
    obtain ⟨_, rfl, hi, hg, hgs⟩ := groupsFrom_eq_cons h
    rw [List.map_cons, List.sum_cons, ← Nat.add_assoc] at hm
    have hpos : 1 ≤ g.pixels := hg ▸ groupAt_pixels_pos
    have hg' : groupAt pix' m i = g := (groupAt_congr hpix hmn (by rw [← hg]; omega)).trans hg.symm
    obtain ⟨fuel', rfl⟩ : ∃ k, fuel' = k + 1 := ⟨fuel' - 1, by omega⟩
    rw [groupsFrom_of_lt fuel' (by omega), hg', ih hgs.symm hm (by omega)]

theorem exists_groupAt_of_mem_groupsFrom {fuel : Nat} {g : Instr} (h : g ∈ groupsFrom pix n fuel i) :
    ∃ j, j < n ∧ g = groupAt pix n j := by
  induction fuel generalizing i with
  | zero => cases h
  | succ fuel ih =>
    by_cases hi : i < n
    · rw [groupsFrom_of_lt fuel hi, List.mem_cons] at h
      rcases h with h | h
      · exact ⟨i, hi, h⟩
      · exact ih h
    · rw [groupsFrom_of_le _ (by omega)] at h
      cases h

end

/-- At most 4 bytes a pixel, over any groups of an encoding (R124). -/
theorem flatMap_encodeGroup_length_le {gs : List Instr} (h : ∀ g ∈ gs, (encodeGroup g).length ≤ 4 * g.pixels) :
    (gs.flatMap encodeGroup).length ≤ 4 * (gs.map Instr.pixels).sum := by
  induction gs with
  | nil => exact Nat.le_refl 0
  | cons g gs ih =>
    have hg := h g (List.mem_cons_self ..)
    have hgs := ih fun g' hg' => h g' (List.mem_cons_of_mem g hg')
    simp only [List.flatMap_cons, List.length_append, List.map_cons, List.sum_cons]
    omega

/-! ## The encoding of a sequence -/

theorem encodeGroup_length_le_of_mem {ps : List Pixel} {g : Instr} (h : g ∈ encodeGroups ps) :
    (encodeGroup g).length ≤ 4 * g.pixels := by
  obtain ⟨j, -, rfl⟩ := exists_groupAt_of_mem_groupsFrom h
  exact encodeGroup_groupAt_length_le

@[simp] theorem State.pixPixels_length (s : State) (n : Nat) : (s.pixPixels n).length = n := by
  simp [State.pixPixels]

theorem pixelOf_pixPixels (s : State) {n k : Nat} (h : k < n) : pixelOf (s.pixPixels n) k = s.pixPixel k := by
  simp [pixelOf, State.pixPixels, h]

/-- The groups that cover the first `i` pixels of PIX are the encoding of those pixels. -/
theorem encodeGroups_pixPixels_take {s : State} {n i : Nat} {before after : List Instr}
    (h : encodeGroups (s.pixPixels n) = before ++ after) (hi : (before.map Instr.pixels).sum = i) (hin : i ≤ n) :
    encodeGroups (s.pixPixels i) = before := by
  unfold encodeGroups at h ⊢
  rw [State.pixPixels_length] at h ⊢
  refine groupsFrom_take h (by omega) hin (fun k hk => ?_) (by omega)
  rw [pixelOf_pixPixels s hk, pixelOf_pixPixels s (by omega)]

/-- The group after those that cover the first `i` pixels of PIX is the one formed at pixel `i`. -/
theorem encodeGroups_pixPixels_next {s : State} {n i : Nat} {before after : List Instr}
    (h : encodeGroups (s.pixPixels n) = before ++ after) (hi : (before.map Instr.pixels).sum = i) (hin : i < n) :
    ∃ rest, after = groupAt s.pixPixel n i :: rest := by
  unfold encodeGroups at h
  rw [State.pixPixels_length] at h
  obtain ⟨fuel, hfuel, hafter⟩ := groupsFrom_drop h (by omega)
  rw [Nat.zero_add, hi] at hfuel hafter
  obtain ⟨fuel, rfl⟩ : ∃ k, fuel = k + 1 := ⟨fuel - 1, by omega⟩
  have hg : groupAt (pixelOf (s.pixPixels n)) n i = groupAt s.pixPixel n i :=
    groupAt_congr (fun k hk => pixelOf_pixPixels s hk) (Nat.le_refl n) (add_groupAt_pixels_le hin)
  rw [groupsFrom_of_lt fuel hin, hg] at hafter
  exact ⟨_, hafter⟩

end Sys2Proof.Machine
end

section
/-! The invariant of unit ENC (R30), and that every step of the block keeps the whole invariant. -/

/-! ## Consecutive elements written -/

namespace Sys2Proof.Machine

open Sys2Proof.Safety

/-- Consecutive elements read back after they were written, whatever the unwritten elements are. -/
theorem Memory.map_read_writeList {α : Type} (m : Memory α) (a : Nat) (vs : List α) (free : Nat → α) :
    (List.range' a vs.length).map (fun k => ((m.writeList a vs).read k).getD (free k)) = vs := by
  refine List.ext_getElem (by simp) fun j hj hj' => ?_
  simp [Memory.read_writeList, hj']

/-- A group emitted at `OUT[a..)` is what lies there, after the bytes that were there before. -/
theorem outBytes_writeList {s t : State} {a : Nat} {vs : List Byte} (h : t.enc.out = s.enc.out.writeList a vs)
    (he : t.epoch = s.epoch) : t.outBytes (a + vs.length) = s.outBytes a ++ vs := by
  have hbefore : (List.range' 0 a).map t.outByte = (List.range' 0 a).map s.outByte :=
    List.map_congr_left fun k hk => by
      rw [List.mem_range'_1] at hk
      rw [outByte_writeList s t a vs h he, dif_neg (by omega)]
  have hafter : (List.range' a vs.length).map t.outByte = vs := by
    have := Memory.map_read_writeList s.enc.out a vs (Config.unspecifiedByte .out t.epoch)
    rwa [← h] at this
  rw [State.outBytes, ← List.range'_append_1, List.map_append, Nat.zero_add, hbefore, hafter]
  rfl

@[simp] theorem State.outBytes_length (s : State) (n : Nat) : (s.outBytes n).length = n := by
  simp [State.outBytes]

end Sys2Proof.Machine

namespace Sys2Proof.Safety

open Sys2Proof.Machine

/-- The invariant of ENC speaks of ENC, the capacities and the unwritten contents alone. -/
theorem EncInv.congr {s t : State} (h : EncInv s) (he : t.enc = s.enc) (hc : t.caps = s.caps)
    (hep : t.epoch = s.epoch) : EncInv t := by
  cases s
  cases t
  cases he
  cases hc
  cases hep
  exact ⟨h.i_le, h.written, h.boundary, h.idle, h.duties, h.started, h.unstarted, h.atStart, h.consumed, h.seen, h.held⟩

/-- Of a unit that is not BUSY, the invariant says what has been written until DONE is observed, and what IDLE means. -/
theorem EncInv.of_not_busy {s : State} (hb : s.enc.busy = false)
    (written : s.enc.inFlight = true → s.outBytes s.enc.olen.toNat = encodePixels (s.pixPixels s.enc.i.toNat))
    (consumed : s.enc.inFlight = true → s.enc.i.toNat ≤ s.enc.nAtStart.toNat)
    (idle : s.enc.phase = .idle → (s.enc.i = 0 ∧ s.enc.olen = 0) ∧ s.enc.inFlight = false) : EncInv s := by
  have hn : ¬ s.enc.busy = true := by simp [hb]
  exact ⟨fun h => absurd h hn, written, fun h => absurd h hn, fun h => (idle h).1, fun h => absurd h hn,
    fun h => absurd h hn, fun h => (idle h).2, fun h => absurd h hn, consumed, fun h => absurd h hn,
    fun h => absurd h hn⟩

/-- While ENC is BUSY it has written at most 4 bytes a pixel consumed (R124). -/
theorem EncInv.olen_le {s : State} (h : EncInv s) (hb : s.enc.busy = true) :
    s.enc.olen.toNat ≤ 4 * s.enc.i.toNat := by
  obtain ⟨before, after, hgs, hi, hout⟩ := h.boundary hb
  have hlen := congrArg List.length hout
  rw [State.outBytes_length] at hlen
  rw [← hlen, ← hi]
  exact flatMap_encodeGroup_length_le fun g hg => encodeGroup_length_le_of_mem (hgs ▸ List.mem_append_left after hg)

end Sys2Proof.Safety

namespace Sys2Proof.Machine

open Sys2Proof.Safety

/-! ## A move of ENC keeps the invariant -/

/-- What the invariant says of the group that the next GROUP step emits: the cursors do not wrap and stay in their bounds,
and the group is the next one of the whole encoding. -/
structure NextGroupFits (s : State) : Prop where
  i_add : (s.enc.i + BitVec.ofNat 64 s.nextGroup.pixels).toNat = s.enc.i.toNat + s.nextGroup.pixels
  i_le : s.enc.i.toNat + s.nextGroup.pixels ≤ s.enc.n.toNat
  olen_add : (s.enc.olen + BitVec.ofNat 64 (encodeGroup s.nextGroup).length).toNat =
    s.enc.olen.toNat + (encodeGroup s.nextGroup).length
  olen_le : s.enc.olen.toNat + (encodeGroup s.nextGroup).length ≤ s.caps.outCap

theorem toNat_add_ofNat {a : Word64} {n : Nat} (h : a.toNat + n < 2 ^ 64) :
    (a + BitVec.ofNat 64 n).toNat = a.toNat + n := by
  rw [BitVec.toNat_add, BitVec.toNat_ofNat, Nat.mod_eq_of_lt (by omega : n < 2 ^ 64), Nat.mod_eq_of_lt h]

theorem nextGroupFits {s : State} (h : EncInv s) (hb : s.enc.busy = true) (hne : s.enc.i ≠ s.enc.n) :
    NextGroupFits s := by
  have hlt : s.enc.i.toNat < s.enc.n.toNat := Nat.lt_of_le_of_ne (h.i_le hb) (fun he => hne (BitVec.eq_of_toNat_eq he))
  have hi : s.enc.i.toNat + s.nextGroup.pixels ≤ s.enc.n.toNat := add_groupAt_pixels_le hlt
  have hsize : (encodeGroup s.nextGroup).length ≤ 4 * s.nextGroup.pixels := encodeGroup_groupAt_length_le
  have holen := h.olen_le hb
  obtain ⟨hcap, hmax⟩ : 4 * s.enc.n.toNat ≤ s.caps.outCap ∧ 4 * s.enc.n.toNat ≤ Config.maxCount := by
    have := (h.duties hb).1
    simp only [Enc.fits, Bool.and_eq_true, decide_eq_true_eq, Nat.le_min] at this
    exact this.2
  simp only [Config.maxCount] at hmax
  exact ⟨toNat_add_ofNat (by omega), hi, toNat_add_ofNat (by omega), by omega⟩

/-- After a group is emitted the cursor stands at the next group boundary. -/
theorem boundary_emitGroup {s : State} (h : EncInv s) (hb : s.enc.busy = true) (hne : s.enc.i ≠ s.enc.n) :
    ∃ before after, encodeGroups (s.pixPixels s.enc.n.toNat) = before ++ after ∧
      (before.map Instr.pixels).sum = s.enc.i.toNat + s.nextGroup.pixels ∧
      before.flatMap encodeGroup = s.outBytes s.enc.olen.toNat ++ encodeGroup s.nextGroup := by
  have hlt : s.enc.i.toNat < s.enc.n.toNat := Nat.lt_of_le_of_ne (h.i_le hb) (fun he => hne (BitVec.eq_of_toNat_eq he))
  obtain ⟨before, after, hgs, hi, hout⟩ := h.boundary hb
  obtain ⟨rest, rfl⟩ := encodeGroups_pixPixels_next hgs hi hlt
  exact ⟨before ++ [s.nextGroup], rest, by rw [hgs, List.append_assoc]; rfl, by simp [hi], by simp [hout]⟩

theorem encInv_emitGroup {s : State} (h : EncInv s) (hb : s.enc.busy = true) (hne : s.enc.i ≠ s.enc.n) :
    EncInv (s.setEnc (s.enc.emitGroup s.nextGroup)) := by
  obtain ⟨hi, hile, holen, -⟩ := nextGroupFits h hb hne
  obtain ⟨before, after, hgs, hsum, hbytes⟩ := boundary_emitGroup h hb hne
  have hout : (s.setEnc (s.enc.emitGroup s.nextGroup)).outBytes (s.enc.emitGroup s.nextGroup).olen.toNat =
      before.flatMap encodeGroup := by
    rw [Enc.emitGroup_olen, holen, hbytes]
    exact outBytes_writeList rfl rfl
  have hwritten : before.flatMap encodeGroup = encodePixels (s.pixPixels (s.enc.emitGroup s.nextGroup).i.toNat) := by
    rw [Enc.emitGroup_i, hi, encodePixels, encodeGroups_pixPixels_take hgs hsum hile]
  have hi_le : s.enc.i ≤ s.enc.i + BitVec.ofNat 64 s.nextGroup.pixels := by
    rw [BitVec.le_def, hi]
    exact Nat.le_add_right _ _
  have holen_le : s.enc.olen ≤ s.enc.olen + BitVec.ofNat 64 (encodeGroup s.nextGroup).length := by
    rw [BitVec.le_def, holen]
    exact Nat.le_add_right _ _
  have hphase : s.enc.phase ≠ .idle := by simp [(Enc.busy_iff _).1 hb]
  exact {
    i_le := fun _ => hi.trans_le hile
    written := fun _ => hout.trans hwritten
    boundary := fun _ => ⟨before, after, hgs, hsum.trans hi.symm, hout.symm⟩
    idle := fun hp => absurd hp hphase
    duties := fun _ => h.duties hb
    started := fun _ => h.started hb
    unstarted := fun hp => absurd hp hphase
    atStart := fun _ => h.atStart hb
    consumed := fun _ => (hi.trans_le hile).trans (BitVec.le_of_eq (h.atStart hb).symm)
    seen := fun _ => ⟨BitVec.le_trans (h.seen hb).1 hi_le, BitVec.le_trans (h.seen hb).2 holen_le⟩
    held := fun _ => ⟨held_le_of_advance (h.held hb).1 hi_le, held_le_of_advance (h.held hb).2 holen_le⟩ }

theorem EncMove.encInv {s : State} {e : Enc} (h : EncMove s e) (hi : EncInv s) : EncInv (s.setEnc e) := by
  cases h with
  | still => exact hi
  | finish => exact .of_not_busy rfl hi.written hi.consumed nofun
  | emit hp hne => exact encInv_emitGroup hi ((Enc.busy_iff _).2 hp) hne

/-- OUT is written below its capacity (R27, R124). -/
theorem EncMove.memInv {s : State} {e : Enc} (h : EncMove s e) (hi : EncInv s) (hm : MemInv s) :
    MemInv (s.setEnc e) := by
  cases h with
  | still | finish => exact ⟨hm.src, hm.dst, hm.pix, hm.out, hm.srcBelow, hm.dstBelow, hm.pixBelow, hm.outBelow⟩
  | emit hp hne =>
    have hle := (nextGroupFits hi ((Enc.busy_iff _).2 hp) hne).olen_le
    exact ⟨hm.src, hm.dst, hm.pix, Memory.wf_writeList _ _ hm.out, hm.srcBelow, hm.dstBelow, hm.pixBelow,
      Memory.below_writeList _ _ hm.outBelow hle⟩

/-! ## An access of the host keeps the invariant -/

/-- A START begins at the first group, with nothing written. -/
theorem encInv_start {s : State} (hr : reaches s.caps.pixShared s.enc.n.toNat = false)
    (hf : s.enc.fits s.caps = true) : EncInv (s.setEnc s.enc.start) where
  i_le _ := Nat.zero_le _
  written _ := rfl
  boundary _ := ⟨[], _, rfl, rfl, rfl⟩
  idle := nofun
  duties _ := ⟨hf, hr⟩
  started _ := rfl
  unstarted := nofun
  atStart _ := rfl
  consumed _ := Nat.zero_le _
  seen _ := ⟨BitVec.le_refl _, BitVec.le_refl _⟩
  held _ := ⟨nofun, nofun⟩

/-- A pixel written past those consumed leaves those consumed (R164 item 1). -/
theorem pixPixels_writePix {s : State} {n k : Nat} (v : Pixel) (hk : n ≤ k) :
    (s.setEnc { s.enc with pix := s.enc.pix.write k v }).pixPixels n = s.pixPixels n := by
  refine List.map_congr_left fun j hj => ?_
  rw [List.mem_range'_1] at hj
  simp only [State.pixPixel, State.setEnc_enc, State.setEnc_epoch, Memory.read_write_other _ v (by omega : j ≠ k)]

theorem encInv_writePix {s : State} {k : Nat} {v : Pixel} (h : s.enc.inputHeld k = false) (hi : EncInv s) :
    EncInv (s.setEnc { s.enc with pix := s.enc.pix.write k v }) := by
  simp only [Enc.inputHeld, Bool.or_eq_false_iff, Bool.and_eq_false_iff, decide_eq_false_iff_not] at h
  obtain ⟨hb, hk⟩ := h
  refine .of_not_busy hb (fun hf => ?_) hi.consumed (fun hp => ⟨hi.idle hp, hi.unstarted hp⟩)
  have hf' : s.enc.inFlight = true := hf
  have hle : s.enc.i.toNat ≤ k := by
    have := hi.consumed hf'
    have := hk.resolve_left (by simp [hf'])
    omega
  exact (hi.written hf').trans (congrArg encodePixels (pixPixels_writePix v hle).symm)

theorem HostEnc.encInv {s : State} {op : HostOp} {e : Enc} (h : HostEnc s op e) (hi : EncInv s) (hop : op ≠ .reset) :
    EncInv (s.setEnc e) := by
  cases h with
  | same => exact hi
  | start v hv hb hr hf => exact encInv_start hr hf
  | configure v n hb => exact .of_not_busy hb hi.written hi.consumed (fun hp => ⟨hi.idle hp, hi.unstarted hp⟩)
  | observe hp =>
    refine .of_not_busy ((Enc.not_busy_iff _).2 (.inr hp)) nofun nofun (fun hp' => ?_)
    exact absurd (hp.symm.trans hp') nofun
  | showI v hb hv =>
    have hle := progressValue_between s.draws (hi.seen hb).1 (hi.held hb).1
    exact ⟨hi.i_le, hi.written, hi.boundary, hi.idle, hi.duties, hi.started, hi.unstarted, hi.atStart, hi.consumed,
      fun _ => ⟨hv ▸ hle.2, (hi.seen hb).2⟩, hi.held⟩
  | showOlen v hb hv =>
    have hle := progressValue_between s.draws (hi.seen hb).2 (hi.held hb).2
    exact ⟨hi.i_le, hi.written, hi.boundary, hi.idle, hi.duties, hi.started, hi.unstarted, hi.atStart, hi.consumed,
      fun _ => ⟨(hi.seen hb).1, hv ▸ hle.2⟩, hi.held⟩
  | writePix k v hk hh => exact encInv_writePix hh hi
  | writeOut a v ha hf =>
    have hb : s.enc.busy = false := by
      cases hb : s.enc.busy with
      | false => rfl
      | true => exact absurd (hf.symm.trans (hi.started hb)) nofun
    have hn : ¬ s.enc.inFlight = true := by simp [hf]
    exact .of_not_busy hb (fun h => absurd h hn) (fun h => absurd h hn) (fun hp => ⟨hi.idle hp, hi.unstarted hp⟩)
  | reset => exact absurd rfl hop

theorem HostAccess.encInv {op : HostOp} {s t : State} (h : HostAccess op s t) (hi : EncInv s) : EncInv t := by
  cases h with
  | dec => exact hi.congr rfl rfl rfl
  | enc e n r hop he => exact (he.encInv hi hop).congr rfl rfl rfl
  | reset => exact .of_not_busy rfl nofun nofun (fun _ => ⟨⟨rfl, rfl⟩, rfl⟩)

theorem HostAccess.memInv {op : HostOp} {s t : State} (h : HostAccess op s t) (hm : MemInv s) : MemInv t := by
  obtain ⟨hsrc, hdst, hpix, hout, hsrcB, hdstB, hpixB, houtB⟩ := hm
  cases h with
  | dec d n r hop hd =>
    cases hd with
    | reset => exact absurd rfl hop
    | writeSrc a v ha =>
      exact ⟨Memory.wf_write a v hsrc, hdst, hpix, hout, Memory.below_write v hsrcB ha, hdstB, hpixB, houtB⟩
    | writeDst k v hk =>
      exact ⟨hsrc, Memory.wf_write k v hdst, hpix, hout, hsrcB, Memory.below_write v hdstB hk, hpixB, houtB⟩
    | same | start | configure | observe | showPos | showCnt =>
      exact ⟨hsrc, hdst, hpix, hout, hsrcB, hdstB, hpixB, houtB⟩
  | enc e n r hop he =>
    cases he with
    | reset => exact absurd rfl hop
    | writePix k v hk =>
      exact ⟨hsrc, hdst, Memory.wf_write k v hpix, hout, hsrcB, hdstB, Memory.below_write v hpixB hk, houtB⟩
    | writeOut a v ha =>
      exact ⟨hsrc, hdst, hpix, Memory.wf_write a v hout, hsrcB, hdstB, hpixB, Memory.below_write v houtB ha⟩
    | same | start | configure | observe | showI | showOlen =>
      exact ⟨hsrc, hdst, hpix, hout, hsrcB, hdstB, hpixB, houtB⟩
  | reset => exact ⟨rfl, rfl, rfl, rfl, rfl, rfl, rfl, rfl⟩

/-! ## The whole invariant -/

theorem DecMove.inv {s : State} {d : Dec} (h : DecMove s d) (hi : Inv s) : Inv (s.setDec d) :=
  ⟨h.decInv hi.dec, hi.enc.congr rfl rfl rfl, h.memInv hi.dec hi.mem⟩

theorem EncMove.inv {s : State} {e : Enc} (h : EncMove s e) (hi : Inv s) : Inv (s.setEnc e) :=
  ⟨hi.dec.congr rfl rfl, h.encInv hi.enc, h.memInv hi.enc hi.mem⟩

theorem HostAccess.inv {op : HostOp} {s t : State} (h : HostAccess op s t) (hi : Inv s) : Inv t :=
  ⟨h.hostDec.decInv h.frame.1 hi.dec, h.encInv hi.enc, h.memInv hi.mem⟩

/-- Taking a turn off the agenda touches neither unit. -/
theorem inv_popped {s : State} (hi : Inv s) : Inv (popped s) :=
  ⟨hi.dec.congr rfl rfl, hi.enc.congr rfl rfl rfl,
    ⟨hi.mem.src, hi.mem.dst, hi.mem.pix, hi.mem.out, hi.mem.srcBelow, hi.mem.dstBelow, hi.mem.pixBelow,
      hi.mem.outBelow⟩⟩

/-- Settles O49: both units are IDLE and every space is empty. -/
theorem theInvariantHoldsAfterReset : Obligations.TheInvariantHoldsAfterReset where
  dec := .of_parts ⟨⟨rfl, rfl, rfl, rfl, rfl⟩, rfl⟩ nofun
  enc := .of_not_busy rfl nofun nofun (fun _ => ⟨⟨rfl, rfl⟩, rfl⟩)
  mem := reset_memories_wf

/-- Settles O50: a step is a move of DEC, a move of ENC, or an access of the host, and each keeps the invariant. -/
theorem everyStepKeepsTheInvariant : Obligations.EveryStepKeepsTheInvariant := by
  intro s t hi hstep
  have hp := inv_popped hi
  rcases step_next hstep with ⟨-, d, rfl, hm⟩ | ⟨e, rfl, hm⟩ | ⟨op, -, ha⟩
  · exact hm.inv hp
  · exact hm.inv hp
  · exact ha.inv hp

end Sys2Proof.Machine
end

section
/-! A table word laid by `withFetchWord` is what the next step runs (log 10). -/

namespace Sys2Proof.Machine

open Sys2Proof.Safety

/-! ## A group decodes in the same way whatever follows it -/

theorem takeSamples_append {n : Nat} {bs rest : List Byte} {ps : List Pixel} (h : takeSamples n bs = some (ps, rest))
    (more : List Byte) : takeSamples n (bs ++ more) = some (ps, rest ++ more) := by
  obtain ⟨rfl, rfl⟩ := takeSamples_eq_some h
  rw [List.append_assoc, takeSamples_flatMap]

theorem decodeGroup_append {bs rest : List Byte} {i : Instr} (h : decodeGroup bs = .instr i rest) (more : List Byte) :
    decodeGroup (bs ++ more) = .instr i (rest ++ more) := by
  cases bs with
  | nil => cases h
  | cons c bs =>
    rcases decodeGroup_cons c bs with ⟨-, -, hd⟩ | ⟨hf, b, g, r, rest', rfl, hd⟩ | ⟨-, -, hd⟩ | ⟨hf, ps, rest', ht, hd⟩
    · cases hd.symm.trans h
    · cases hd.symm.trans h
      simp [decodeGroup, hf]
    · cases hd.symm.trans h
    · cases hd.symm.trans h
      simp [decodeGroup, hf, takeSamples_append ht more]

/-- What a byte stream decodes to is a group (R60). -/
theorem isGroup_of_decodeGroup {bs rest : List Byte} {i : Instr} (h : decodeGroup bs = .instr i rest) :
    i.isGroup = true := by
  cases bs with
  | nil => cases h
  | cons c bs =>
    rcases decodeGroup_cons c bs with ⟨-, -, hd⟩ | ⟨-, b, g, r, rest', -, hd⟩ | ⟨-, -, hd⟩ | ⟨-, ps, rest', -, hd⟩
    · cases hd.symm.trans h
    · cases hd.symm.trans h; rfl
    · cases hd.symm.trans h
    · cases hd.symm.trans h; rfl

/-! ## The bytes of a table word under the cursor -/

theorem groupBytes_le (c : Byte) : groupBytes c ≤ Config.maxGroupBytes := by
  have := groupLen_le c
  simp only [groupBytes, Config.maxGroupBytes, Config.maxGroup] at *
  split <;> omega

theorem tableBytes_length_le (nbits w : Nat) : (tableBytes nbits w).length ≤ Config.maxGroupBytes := by
  simpa [tableBytes] using groupBytes_le _

/-- A decoder with a pixel still wanted: the unit itself, or one pixel of one where none is (log 10). -/
def Dec.wanting (d : Dec) : Dec := if d.cnt.toNat < d.total then d else { d with cnt := 0, w := 1, h := 1 }

theorem Dec.wanting_cnt_lt (d : Dec) : d.wanting.cnt.toNat < d.wanting.total := by
  unfold Dec.wanting
  split
  · assumption
  · exact Nat.zero_lt_one

theorem Dec.wanting_src (d : Dec) : d.wanting.src = d.src := by
  unfold Dec.wanting
  split <;> rfl

section

variable (d : Dec) (bytes : List Byte)

theorem Dec.placeGroup_cnt_lt : (d.placeGroup bytes).cnt.toNat < (d.placeGroup bytes).total := d.wanting_cnt_lt

/-- The bytes stand in SRC from the cursor on. -/
theorem Dec.placeGroup_src : (d.placeGroup bytes).src = d.src.writeList (d.placeGroup bytes).pos.toNat bytes :=
  congrArg (fun m => Memory.writeList m (d.placeGroup bytes).pos.toNat bytes) d.wanting_src

/-- The cursor leaves room for the bytes below `2^64`. -/
theorem Dec.placeGroup_pos_add_le (h : bytes.length ≤ Config.maxGroupBytes) :
    (d.placeGroup bytes).pos.toNat + bytes.length ≤ Config.maxCount := by
  change (if d.pos.toNat + bytes.length ≤ Config.maxCount then d.pos else 0).toNat + bytes.length ≤ Config.maxCount
  split
  · assumption
  · exact (Nat.zero_add _).trans_le (h.trans (by decide))

/-- `DEC_LEN` reaches past the bytes. -/
theorem Dec.placeGroup_len (h : bytes.length ≤ Config.maxGroupBytes) :
    (d.placeGroup bytes).pos.toNat + bytes.length ≤ (d.placeGroup bytes).len.toNat := by
  have hroom := d.placeGroup_pos_add_le bytes h
  have hlen : (d.placeGroup bytes).len =
    BitVec.ofNat 64 (max d.wanting.len.toNat ((d.placeGroup bytes).pos.toNat + bytes.length)) := rfl
  have := d.wanting.len.isLt
  simp only [Config.maxCount] at hroom
  rw [hlen, BitVec.toNat_ofNat, Nat.mod_eq_of_lt (by omega)]
  exact Nat.le_max_right ..

end

/-- Bytes written from the cursor on, and within `DEC_LEN`, are the first of the bytes that FETCH decodes. -/
theorem groupWindow_of_writeList {s : State} {m : Memory Byte} {bytes : List Byte}
    (hsrc : s.dec.src = m.writeList s.dec.pos.toNat bytes) (hmax : bytes.length ≤ Config.maxGroupBytes)
    (hlen : s.dec.pos.toNat + bytes.length ≤ s.dec.len.toNat) : ∃ more, s.groupWindow = bytes ++ more := by
  obtain ⟨k, hk⟩ : ∃ k, min Config.maxGroupBytes (s.dec.len.toNat - s.dec.pos.toNat) = bytes.length + k :=
    Nat.exists_eq_add_of_le (Nat.le_min.2 ⟨hmax, by omega⟩)
  have hbytes : (List.range' s.dec.pos.toNat bytes.length).map s.srcByte = bytes := by
    have := Memory.map_read_writeList m s.dec.pos.toNat bytes (Config.unspecifiedByte .src s.epoch)
    rwa [← hsrc] at this
  rw [State.groupWindow, hk, State.srcBytes, ← List.range'_append_1, List.map_append, hbytes]
  exact ⟨_, rfl⟩

/-! ## The step -/

/-- What FETCH does with pixels still wanted and an instruction under the cursor. -/
theorem fetchTurn_of_decode {s : State} {i : Instr} {rest : List Byte} (hc : s.dec.cnt.toNat ≠ s.dec.total)
    (h : decode (.stream s.groupWindow) = .instr i rest) : fetchTurn s = exec i s := by
  rw [fetchTurn, if_neg hc, h]

theorem decTurn_placeGroup {s : State} {bytes rest : List Byte} {i : Instr} (h : decodeGroup bytes = .instr i rest)
    (hmax : bytes.length ≤ Config.maxGroupBytes) :
    decTurn (s.setDec (s.dec.placeGroup bytes)) = exec i (s.setDec (s.dec.placeGroup bytes)) := by
  obtain ⟨more, hw⟩ := groupWindow_of_writeList (s := s.setDec (s.dec.placeGroup bytes))
    (s.dec.placeGroup_src bytes) hmax (s.dec.placeGroup_len bytes hmax)
  have hd : decode (.stream (s.setDec (s.dec.placeGroup bytes)).groupWindow) = .instr i (rest ++ more) :=
    hw ▸ decodeGroup_append h more
  exact fetchTurn_of_decode (Nat.ne_of_lt (s.dec.placeGroup_cnt_lt bytes)) hd

theorem withFetchWord_of_start {s : State} {nbits w : Nat} (h : tableIsStart nbits w = true) :
    s.withFetchWord nbits w = { s with agenda := .host (.writeDec .ctrl 1) :: s.agenda } := if_pos h

theorem withFetchWord_of_group {s : State} {nbits w : Nat} (h : tableIsStart nbits w = false) :
    s.withFetchWord nbits w =
      { s with dec := s.dec.placeGroup (tableBytes nbits w), agenda := .decTurn :: s.agenda } := by
  simp only [State.withFetchWord, State.placeWord, h, Bool.false_eq_true, if_false]

/-- What a table word decodes to: DEC.START, or the group its bytes open. -/
theorem decodeTableWord_eq_some {nbits w : Nat} {i : Instr} (h : decodeTableWord nbits w = some i) :
    (tableIsStart nbits w = true ∧ i = .decStart) ∨
    (tableIsStart nbits w = false ∧ ∃ rest, decodeGroup (tableBytes nbits w) = .instr i rest) := by
  unfold decodeTableWord tableFetched at h
  cases hs : tableIsStart nbits w with
  | true =>
    rw [hs] at h
    exact .inl ⟨rfl, (Option.some.inj h).symm⟩
  | false =>
    simp only [hs, Bool.false_eq_true, if_false, decode] at h
    cases hd : decodeGroup (tableBytes nbits w) with
    | instr j rest =>
      rw [hd] at h
      cases h
      exact .inr ⟨rfl, rest, rfl⟩
    | reject r =>
      rw [hd] at h
      cases h

/-- Settles O21: a placed START is the host's next access, a placed group lies under the cursor of a decoder whose turn it
is. -/
theorem theNextStepRunsAPlacedWord : Obligations.TheNextStepRunsAPlacedWord := by
  intro s nbits w i h
  rcases decodeTableWord_eq_some h with ⟨hs, rfl⟩ | ⟨hs, rest, hd⟩
  · rw [withFetchWord_of_start hs]
    exact ⟨(hostTurn_writeDec_ctrl s 1).trans (if_pos rfl), nofun, fun _ => rfl⟩
  · have hg := isGroup_of_decodeGroup hd
    rw [withFetchWord_of_group hs]
    exact ⟨decTurn_placeGroup hd (tableBytes_length_le nbits w),
      fun _ => ⟨rfl, s.dec.placeGroup_cnt_lt _, rfl⟩, fun hn => absurd (hg.symm.trans hn) nofun⟩

end Sys2Proof.Machine
end

section
/-! Proofs of the statements about the four memory spaces (R40 to R54): the packed pixel, the host's reads and writes of one
element, and what a unit's step depends on. -/

namespace Sys2Proof.Machine

open Sys2Proof.Safety

/-! ## The packed view of a pixel (R41) -/

theorem toNat_append_eq_add {m n : Nat} (x : BitVec m) (y : BitVec n) : (x ++ y).toNat = x.toNat * 2 ^ n + y.toNat := by
  rw [BitVec.toNat_append, ← Nat.shiftLeft_add_eq_or_of_lt y.isLt, Nat.shiftLeft_eq]

theorem pix24_toNat (p : Pixel) : (pix24 p).toNat = p.r.toNat * 2 ^ 16 + p.g.toNat * 2 ^ 8 + p.b.toNat := by
  have h : (pix24 p).toNat = (p.r.toNat * 2 ^ 8 + p.g.toNat) * 2 ^ 8 + p.b.toNat :=
    (toNat_append_eq_add (p.r ++ p.g) p.b).trans (by rw [toNat_append_eq_add])
  rw [h, Nat.add_mul, Nat.mul_assoc, ← Nat.pow_add]

theorem pix24_red (p : Pixel) : (pix24 p).extractLsb' 16 8 = p.r :=
  (BitVec.extractLsb'_append_eq_of_le (xhi := p.r ++ p.g) (xlo := p.b) (by decide)).trans BitVec.extractLsb'_append_eq_left

theorem pix24_green (p : Pixel) : (pix24 p).extractLsb' 8 8 = p.g :=
  calc (pix24 p).extractLsb' 8 8 = (p.r ++ p.g).extractLsb' 0 8 :=
        BitVec.extractLsb'_append_eq_of_le (xhi := p.r ++ p.g) (xlo := p.b) (by decide)
    _ = p.g.extractLsb' 0 8 := BitVec.extractLsb'_append_eq_of_add_le (by decide)
    _ = p.g := BitVec.extractLsb'_eq_self

theorem pix24_blue (p : Pixel) : (pix24 p).extractLsb' 0 8 = p.b :=
  (BitVec.extractLsb'_append_eq_of_add_le (xhi := p.r ++ p.g) (xlo := p.b) (by decide)).trans BitVec.extractLsb'_eq_self

/-- Settles O7: the three fields give the sample's bytes and the pixel back. -/
theorem thePackedPixelIsLittleEndianInTheStream : Obligations.ThePackedPixelIsLittleEndianInTheStream := by
  intro p
  refine ⟨pix24_toNat p, pix24_red p, pix24_green p, pix24_blue p, ?_, ?_⟩
  · rw [pix24_red, pix24_green, pix24_blue, sampleBytes]
  · rw [ofPix24, pix24_red, pix24_green, pix24_blue]

/-! ## One element written (R45) -/

/-- Writing one element changes that element alone, whatever the unwritten ones read as. -/
theorem Memory.getD_read_write {α : Type} (m : Memory α) (k : Nat) (v : α) (free : Nat → α) (j : Nat) :
    ((m.write k v).read j).getD (free j) = if j = k then v else (m.read j).getD (free j) := by
  rw [Memory.read_write]
  split <;> rfl

theorem Dec.inputHeld_eq_false {d : Dec} {a : Nat} (hb : d.busy = false)
    (hf : d.inFlight = true → d.lenAtStart.toNat ≤ a) : d.inputHeld a = false := by
  simpa [Dec.inputHeld, hb] using hf

theorem Enc.inputHeld_eq_false {e : Enc} {k : Nat} (hb : e.busy = false)
    (hf : e.inFlight = true → e.nAtStart.toNat ≤ k) : e.inputHeld k = false := by
  simpa [Enc.inputHeld, hb] using hf

/-! ## The host's accesses that complete (R40, R45, R50, R167) -/

section

variable {s : State} {a k : Nat}

theorem hostTurn_writeSrc (ha : a < s.caps.srcCap) (hh : s.dec.inputHeld a = false) (v : Byte) :
    hostTurn (.writeSrc a v) s = .next (s.setDec { s.dec with src := s.dec.src.write a v }) := by
  simp only [hostTurn, hostWriteSrc, Nat.not_le.2 ha, hh, if_false, Bool.false_eq_true]

theorem hostTurn_writeDst (hk : k < s.caps.dstCap) (hf : s.dec.inFlight = false) (v : Pixel) :
    hostTurn (.writeDst k v) s = .next (s.setDec { s.dec with dst := s.dec.dst.write k v }) := by
  simp only [hostTurn, hostWriteDst, Nat.not_le.2 hk, hf, if_false, Bool.false_eq_true]

theorem hostTurn_writePix (hk : k < s.caps.pixCap) (hh : s.enc.inputHeld k = false) (v : Pixel) :
    hostTurn (.writePix k v) s = .next (s.setEnc { s.enc with pix := s.enc.pix.write k v }) := by
  simp only [hostTurn, hostWritePix, Nat.not_le.2 hk, hh, if_false, Bool.false_eq_true]

theorem hostTurn_writeOut (ha : a < s.caps.outCap) (hf : s.enc.inFlight = false) (v : Byte) :
    hostTurn (.writeOut a v) s = .next (s.setEnc { s.enc with out := s.enc.out.write a v }) := by
  simp only [hostTurn, hostWriteOut, Nat.not_le.2 ha, hf, if_false, Bool.false_eq_true]

theorem hostTurn_readSrc (ha : a < s.caps.srcCap) :
    hostTurn (.readSrc a) s = .next (s.answer (.byte (s.srcByte a))) :=
  if_neg (Nat.not_le.2 ha)

theorem hostTurn_readPix (hk : k < s.caps.pixCap) :
    hostTurn (.readPix k) s = .next (s.answer (.pixel (s.pixPixel k))) :=
  if_neg (Nat.not_le.2 hk)

/-- With no operation in flight the host reads the element. -/
theorem hostTurn_readDst (hk : k < s.caps.dstCap) (hf : s.dec.inFlight = false) :
    hostTurn (.readDst k) s = .next (s.answer (.pixel (s.dstPixel k))) := by
  simp only [hostTurn, hostReadDst, Nat.not_le.2 hk, hf, if_false, Bool.false_eq_true]

theorem hostTurn_readOut (ha : a < s.caps.outCap) (hf : s.enc.inFlight = false) :
    hostTurn (.readOut a) s = .next (s.answer (.byte (s.outByte a))) := by
  simp only [hostTurn, hostReadOut, Nat.not_le.2 ha, hf, if_false, Bool.false_eq_true]

/-- With one in flight it reads a free value (U6). -/
theorem hostTurn_readDst_inFlight (hk : k < s.caps.dstCap) (hf : s.dec.inFlight = true) :
    hostTurn (.readDst k) s = .next { s with draws := s.draws + 1, reply := .pixel (Config.earlyPixel s.draws) } := by
  simp only [hostTurn, hostReadDst, Nat.not_le.2 hk, hf, if_false, if_true]

theorem hostTurn_readOut_inFlight (ha : a < s.caps.outCap) (hf : s.enc.inFlight = true) :
    hostTurn (.readOut a) s = .next { s with draws := s.draws + 1, reply := .byte (Config.earlyByte s.draws) } := by
  simp only [hostTurn, hostReadOut, Nat.not_le.2 ha, hf, if_false, if_true]

/-- Reading STATUS in DONE ends the time in flight (R50, R164). -/
theorem hostTurn_readDec_status_of_done (hd : s.dec.phase = .done) :
    hostTurn (.readDec .status) s =
      .next ((s.setDec { s.dec with inFlight := false }).answer (.word (s.dec.status.setWidth 64))) := by
  have h : s.dec.statusRead = { s.dec with inFlight := false } := if_pos ((Dec.isDone_iff _).2 hd)
  rw [← h]
  rfl

theorem hostTurn_readEnc_status_of_done (hd : s.enc.phase = .done) :
    hostTurn (.readEnc .status) s =
      .next ((s.setEnc { s.enc with inFlight := false }).answer (.word (s.enc.status.setWidth 64))) := by
  have h : s.enc.statusRead = { s.enc with inFlight := false } := if_pos ((Enc.isDone_iff _).2 hd)
  rw [← h]
  rfl

end

/-- Settles O9: each access completes with one memory write, or with the reply alone. -/
theorem aHostWriteChangesOneElement : Obligations.AHostWriteChangesOneElement := by
  refine ⟨fun s a v ha hb hf => ?_, fun s k v hk hf => ?_, fun s k v hk hb hf => ?_, fun s a v ha hf => ?_,
    fun s a ha => hostTurn_readSrc ha, fun s k hk => hostTurn_readPix hk⟩
  · exact ⟨_, hostTurn_writeSrc ha (Dec.inputHeld_eq_false hb hf) v, Memory.getD_read_write _ _ _ _, rfl⟩
  · exact ⟨_, hostTurn_writeDst hk hf v, Memory.getD_read_write _ _ _ _, rfl⟩
  · exact ⟨_, hostTurn_writePix hk (Enc.inputHeld_eq_false hb hf) v, Memory.getD_read_write _ _ _ _, rfl⟩
  · exact ⟨_, hostTurn_writeOut ha hf v, Memory.getD_read_write _ _ _ _, rfl⟩

/-- Settles O46: in DONE the STATUS read ends the time in flight and the next read shows the element; in flight the read
shows a free value, drawn by a number that the contents do not enter. -/
theorem outputsReadAsTheResultOnceDoneIsObserved : Obligations.OutputsReadAsTheResultOnceDoneIsObserved := by
  intro s k
  refine ⟨fun hd hk => ?_, fun hd hk => ?_, fun hf hk m => ?_, fun hf hk m => ?_⟩
  · exact ⟨_, _, hostTurn_readDec_status_of_done hd, rfl, hostTurn_readDst hk rfl, rfl, rfl⟩
  · exact ⟨_, _, hostTurn_readEnc_status_of_done hd, rfl, hostTurn_readOut hk rfl, rfl, rfl⟩
  · exact ⟨_, _, hostTurn_readDst_inFlight hk hf, hostTurn_readDst_inFlight hk hf, rfl⟩
  · exact ⟨_, _, hostTurn_readOut_inFlight hk hf, hostTurn_readOut_inFlight hk hf, rfl⟩

/-! ## What a unit's step depends on (R54, R150) -/

theorem State.decNext_congr {s t : State} (hd : s.dec = t.dec) (hep : s.epoch = t.epoch) : s.decNext = t.decNext := by
  cases s
  cases t
  cases hd
  cases hep
  rfl

theorem State.encNext_congr {s t : State} (he : s.enc = t.enc) (hep : s.epoch = t.epoch) : s.encNext = t.encNext := by
  cases s
  cases t
  cases he
  cases hep
  rfl

/-- Settles O37: what each unit's step leaves is a function of that unit and the epoch. -/
theorem aUnitsStepDependsOnThatUnitAlone : Obligations.AUnitsStepDependsOnThatUnitAlone := by
  intro s t hep
  refine ⟨fun hd => ⟨s.decNext, decTurn_eq s, ?_⟩, fun he => ⟨s.encNext, encTurn_eq s, ?_⟩⟩
  · rw [State.decNext_congr hd hep, decTurn_eq]
  · rw [State.encNext_congr he hep, encTurn_eq]

/-! ## Input spaces past their length (R46) -/

theorem State.sampleAt_congr {s t : State} {n a : Nat} (h : ∀ b, b < n → t.srcByte b = s.srcByte b) (ha : a + 2 < n) :
    t.sampleAt a = s.sampleAt a := by
  simp only [State.sampleAt, h a (by omega), h (a + 1) (by omega), h (a + 2) ha]

/-- The common tail of R92 and R93 does not look at SRC. -/
theorem Dec.afterGroupPixel_withSrc (d d' : Dec) (m : Memory Byte) :
    Dec.afterGroupPixel { d with src := m } { d' with src := m } = { d.afterGroupPixel d' with src := m } := by
  unfold Dec.afterGroupPixel
  simp only [apply_ite (fun e : Dec => { e with src := m })]
  rfl

theorem padStep_withSrc (d : Dec) (m : Memory Byte) : padStep { d with src := m } = { padStep d with src := m } := by
  unfold padStep
  simp only [apply_ite (fun e : Dec => { e with src := m })]
  rfl

/-- A decoder whose SRC differs at or past `DEC_LEN` alone makes the same move. -/
theorem DecMove.withSrc {s : State} {d : Dec} {m : Memory Byte} (h : DecMove s d) (hi : DecInv s)
    (hm : ∀ a, a < s.dec.len.toNat → (s.setDec { s.dec with src := m }).srcByte a = s.srcByte a) :
    DecMove (s.setDec { s.dec with src := m }) { d with src := m } := by
  cases h with
  | still hb => exact .still hb
  | count hp hc => exact .count hp hc
  | eob hp hc he => exact .eob hp hc he
  | shortRun hp hc hl hf ha =>
    rw [← hm _ hl] at hf
    exact .shortRun hp hc hl hf ha
  | takeRun hp hc hl hf ha =>
    rw [← State.sampleAt_congr hm (by omega)]
    rw [← hm _ hl] at hf ⊢
    exact .takeRun hp hc hl hf ha
  | shortLit hp hc hl hf ha =>
    rw [← hm _ hl] at hf ha
    exact .shortLit hp hc hl hf ha
  | takeLit hp hc hl hf ha =>
    rw [← hm _ hl] at hf ha ⊢
    exact .takeLit hp hc hl hf ha
  | runPixel hp =>
    rw [runStep, ← Dec.afterGroupPixel_withSrc]
    exact .runPixel hp
  | litPixel hp =>
    obtain ⟨hrem, -, -, -, hlen⟩ := hi.lit hp
    rw [litStep, ← Dec.afterGroupPixel_withSrc, ← State.sampleAt_congr hm (by omega)]
    exact .litPixel hp
  | padPixel hp =>
    rw [← padStep_withSrc]
    exact .padPixel hp

/-- The moves of ENC are deterministic. -/
theorem EncMove.eq_encNext {s : State} {e : Enc} (h : EncMove s e) : e = s.encNext := by
  cases h with
  | still hb => rcases (Enc.not_busy_iff _).1 hb with hp | hp <;> simp [State.encNext, hp]
  | finish hp hi => simp [State.encNext, hp, hi]
  | emit hp hi => simp [State.encNext, hp, hi]

/-- An encoder whose PIX differs at or past `ENC_N` alone makes the same move. -/
theorem EncMove.withPix {s : State} {e : Enc} {m : Memory Pixel} (h : EncMove s e) (hi : EncInv s)
    (hm : ∀ k, k < s.enc.n.toNat → (s.setEnc { s.enc with pix := m }).pixPixel k = s.pixPixel k) :
    EncMove (s.setEnc { s.enc with pix := m }) { e with pix := m } := by
  cases h with
  | still hb => exact .still hb
  | finish hp he => exact .finish hp he
  | emit hp hne =>
    have hle : s.enc.i.toNat ≤ s.enc.n.toNat := hi.i_le ((Enc.busy_iff _).2 hp)
    have hlt : s.enc.i.toNat < s.enc.n.toNat := Nat.lt_of_le_of_ne hle fun he => hne (BitVec.eq_of_toNat_eq he)
    have hg : (s.setEnc { s.enc with pix := m }).nextGroup = s.nextGroup :=
      groupAt_congr hm (Nat.le_refl _) (add_groupAt_pixels_le hlt)
    rw [← hg]
    exact .emit hp hne

/-- Settles O30: with the invariant, every element a move reads lies below the length. -/
theorem noUnitReadsPastItsInput : Obligations.NoUnitReadsPastItsInput := by
  refine ⟨fun s a v hi ha => ?_, fun s k v hi hk => ?_⟩
  · obtain ⟨d, hd, hmove⟩ := decTurn_move s
    have hsame := hmove.withSrc (m := s.dec.src.write a v) hi.dec fun b hb =>
      (Memory.getD_read_write _ _ _ _ b).trans (if_neg (by omega))
    exact ⟨d, hd, by rw [decTurn_eq, ← hsame.eq_decNext, State.setDec_setDec]⟩
  · obtain ⟨e, he, hmove⟩ := encTurn_next (encTurn_eq s)
    have hsame := hmove.withPix (m := s.enc.pix.write k v) hi.enc fun j hj =>
      (Memory.getD_read_write _ _ _ _ j).trans (if_neg (by omega))
    exact ⟨e, by rw [encTurn_eq, he], by rw [encTurn_eq, ← hsame.eq_encNext, State.setEnc_setEnc]⟩

end Sys2Proof.Machine
end

section
/-! Proofs of the statements about the encoding (R60 to R73): the control byte as a number, decode and encode as inverses
of each other, and what the decode loop can add to its output. -/

namespace Sys2Proof

/-- Settles O1: the words are closed, so the decoder is run on each. -/
theorem specWordsDecodeToTheirInstructions : Obligations.SpecWordsDecodeToTheirInstructions := by
  unfold Obligations.SpecWordsDecodeToTheirInstructions
  decide

/-! ## The control byte as a number (R61 to R64) -/

theorem lengthOk_iff (len : Nat) : lengthOk len = true ↔ 1 ≤ len ∧ len ≤ 128 :=
  Bool.and_eq_true_iff.trans (and_congr decide_eq_true_iff decide_eq_true_iff)

theorem lengthOk_groupLen (c : Byte) : lengthOk (groupLen c) = true :=
  (lengthOk_iff _).2 ⟨groupLen_pos c, groupLen_le c⟩

theorem runFlag_eq_decide (c : Byte) : runFlag c = decide (0x80 ≤ c.toNat) :=
  (BitVec.msb_eq_getLsbD_last c).symm.trans (BitVec.msb_eq_decide c)

theorem groupLen_eq_mod (c : Byte) : groupLen c = c.toNat % 128 + 1 := by
  simp [groupLen, lm1]

/-- Bit 7 masked out is bit 7 alone. -/
theorem and_0x80 (c : Byte) : c &&& 0x80 = if runFlag c then 0x80 else 0x00 := BitVec.and_twoPow c 7

section

variable {len : Nat} (h : lengthOk len = true)
include h

theorem litByte_toNat : (BitVec.ofNat 8 (len - 1)).toNat = len - 1 := by
  obtain ⟨-, hle⟩ := (lengthOk_iff len).1 h
  exact (BitVec.toNat_ofNat ..).trans (Nat.mod_eq_of_lt (by omega))

theorem runByte_toNat : (0x80#8 ||| BitVec.ofNat 8 (len - 1)).toNat = 0x7F + len := by
  obtain ⟨hpos, hle⟩ := (lengthOk_iff len).1 h
  have hlt : len - 1 < 2 ^ 7 := by omega
  calc (0x80#8 ||| BitVec.ofNat 8 (len - 1)).toNat = 2 ^ 7 * 1 ||| (len - 1) := by
        rw [BitVec.toNat_or, litByte_toNat h]
        rfl
    _ = 2 ^ 7 * 1 + (len - 1) := (Nat.two_pow_add_eq_or_of_lt hlt 1).symm
    _ = 0x7F + len := by omega

theorem runFlag_runByte : runFlag (0x80#8 ||| BitVec.ofNat 8 (len - 1)) = true := by
  obtain ⟨hpos, -⟩ := (lengthOk_iff len).1 h
  rw [runFlag_eq_decide, runByte_toNat h, decide_eq_true_eq]
  omega

theorem groupLen_runByte : groupLen (0x80#8 ||| BitVec.ofNat 8 (len - 1)) = len := by
  obtain ⟨hpos, hle⟩ := (lengthOk_iff len).1 h
  rw [groupLen_eq_mod, runByte_toNat h]
  omega

theorem runFlag_litByte : runFlag (BitVec.ofNat 8 (len - 1)) = false := by
  obtain ⟨-, hle⟩ := (lengthOk_iff len).1 h
  rw [runFlag_eq_decide, litByte_toNat h, decide_eq_false_iff_not]
  omega

theorem groupLen_litByte : groupLen (BitVec.ofNat 8 (len - 1)) = len := by
  obtain ⟨hpos, hle⟩ := (lengthOk_iff len).1 h
  rw [groupLen_eq_mod, litByte_toNat h]
  omega

end

/-- Flag and length field determine the control byte. -/
theorem runByte_groupLen {c : Byte} (hf : runFlag c = true) : 0x80#8 ||| BitVec.ofNat 8 (groupLen c - 1) = c := by
  refine BitVec.eq_of_toNat_eq ((runByte_toNat (lengthOk_groupLen c)).trans ?_)
  rw [runFlag_eq_decide, decide_eq_true_eq] at hf
  rw [groupLen_eq_mod]
  omega

theorem litByte_groupLen {c : Byte} (hf : runFlag c = false) : BitVec.ofNat 8 (groupLen c - 1) = c := by
  refine BitVec.eq_of_toNat_eq ((litByte_toNat (lengthOk_groupLen c)).trans ?_)
  rw [runFlag_eq_decide, decide_eq_false_iff_not] at hf
  rw [groupLen_eq_mod]
  omega

/-! ## Decode after encode -/

theorem decodeGroup_encodeGroup {i : Instr} (hwf : i.wf = true) (hg : i.isGroup = true) (rest : List Byte) :
    decodeGroup (encodeGroup i ++ rest) = .instr i rest := by
  cases i with
  | run len px => simp [encodeGroup, decodeGroup, sampleBytes, runFlag_runByte hwf, groupLen_runByte hwf]
  | lit ps => simp [encodeGroup, decodeGroup, runFlag_litByte hwf, groupLen_litByte hwf, takeSamples_flatMap]
  | decStart => cases hg
  | encStart => cases hg

theorem encode_of_isGroup {i : Instr} (hg : i.isGroup = true) : encode i = .stream (encodeGroup i) := by
  cases i with
  | run len px => rfl
  | lit ps => rfl
  | decStart => cases hg
  | encStart => cases hg

/-- The two commands, written with their value 1 (R13, R25). -/
theorem decode_encode_of_not_isGroup {i : Instr} (hg : i.isGroup = false) : decode (encode i) = .instr i [] := by
  cases i with
  | run len px => cases hg
  | lit ps => cases hg
  | decStart => rfl
  | encStart => rfl

/-- Settles O2: a group through its bytes, a command through its control write. -/
theorem decodingInvertsEncoding : Obligations.DecodingInvertsEncoding := by
  intro i hwf
  refine ⟨?_, fun hg rest => decodeGroup_encodeGroup hwf hg rest⟩
  cases hg : i.isGroup with
  | true =>
    rw [encode_of_isGroup hg, ← List.append_nil (encodeGroup i)]
    exact decodeGroup_encodeGroup hwf hg []
  | false => exact decode_encode_of_not_isGroup hg

/-! ## Encode after decode -/

/-- Settles O3: of the four ways a group's decoding can go, the two that answer an instruction give the bytes back. -/
theorem encodingInvertsDecoding : Obligations.EncodingInvertsDecoding := by
  intro bs i rest h
  cases bs with
  | nil => cases h
  | cons c bs =>
    rcases decodeGroup_cons c bs with ⟨-, -, hd⟩ | ⟨hf, b, g, r, rest', rfl, hd⟩ | ⟨-, -, hd⟩ | ⟨hf, ps, rest', ht, hd⟩
    · cases hd.symm.trans h
    · cases hd.symm.trans h
      exact ⟨lengthOk_groupLen c, rfl, congrArg (· :: b :: g :: r :: rest) (runByte_groupLen hf)⟩
    · cases hd.symm.trans h
    · cases hd.symm.trans h
      obtain ⟨hlen, rfl⟩ := takeSamples_eq_some ht
      refine ⟨(congrArg lengthOk hlen).trans (lengthOk_groupLen c), rfl, ?_⟩
      rw [encodeGroup, hlen, litByte_groupLen hf, List.cons_append]

/-! ## The control byte and its group (R66, R67) -/

theorem groupBytes_of_run {c : Byte} (hf : runFlag c = true) : groupBytes c = 4 := if_pos hf

theorem groupBytes_of_lit {c : Byte} (hf : runFlag c = false) : groupBytes c = 1 + 3 * groupLen c := by
  simp [groupBytes, hf]

/-- Settles O4: with the payload there, neither short rejection is left. -/
theorem everyControlByteIsLegal : Obligations.EveryControlByteIsLegal := by
  intro c bs hbytes
  have hmask := and_0x80 c
  have hlen := groupLen_eq_mod c
  have hrun := runFlag_eq_decide c
  rcases decodeGroup_cons c bs with ⟨hf, hs, -⟩ | ⟨hf, b, g, r, rest, rfl, hd⟩ | ⟨hf, hs, -⟩ | ⟨hf, ps, rest, ht, hd⟩
  · rw [groupBytes_of_run hf] at hbytes
    omega
  · have hc : 0x80 ≤ c.toNat := by simpa [hf] using hrun
    refine .inr ⟨hc, hmask.trans (if_pos hf), sampleOf b g r, rest, ?_, rfl⟩
    rw [show c.toNat - 0x7F = groupLen c by omega]
    exact hd
  · rw [groupBytes_of_lit hf] at hbytes
    omega
  · have hc : c.toNat < 0x80 := by simpa [hf] using hrun
    obtain ⟨hps, rfl⟩ := takeSamples_eq_some ht
    refine .inl ⟨by omega, hmask.trans (by simp [hf]), ps, rest, hd, by omega, ?_⟩
    rw [List.length_append, flatMap_sampleBytes_length]
    omega

theorem four_le_groupBytes (c : Byte) : 4 ≤ groupBytes c := by
  have := groupLen_pos c
  unfold groupBytes
  split <;> omega

/-- Settles O6: the control byte carries the group's flag and length, and with them its size. -/
theorem theControlByteTellsTheGroupsLength : Obligations.TheControlByteTellsTheGroupsLength := by
  intro i c payload hwf henc
  suffices h : groupBytes c = 1 + payload.length ∧ groupLen c = i.pixels ∧
      (runFlag c = true ↔ ∃ len px, i = .run len px) by
    obtain ⟨hbytes, hlen, hflag⟩ := h
    exact ⟨hbytes, four_le_groupBytes c, Machine.groupBytes_le c, hlen, hflag⟩
  cases i with
  | run len px =>
    cases henc
    have hf := runFlag_runByte hwf
    exact ⟨groupBytes_of_run hf, groupLen_runByte hwf, iff_of_true hf ⟨len, px, rfl⟩⟩
  | lit ps =>
    cases henc
    have hf := runFlag_litByte hwf
    refine ⟨?_, groupLen_litByte hwf, iff_of_false (Bool.eq_false_iff.1 hf) nofun⟩
    rw [groupBytes_of_lit hf, groupLen_litByte hwf, flatMap_sampleBytes_length]
  | decStart => cases henc
  | encStart => cases henc

end Sys2Proof

namespace Sys2Proof.Machine

/-! ## What the decode loop adds (R81) -/

/-- The output of the decode loop keeps whatever is kept by adding samples of the block, no more than are wanted. -/
theorem decodeLoop_out_keeps {block : List Byte} {total : Nat} {P : List Pixel → Prop}
    (hadd : ∀ out ps, P out → ps.length ≤ total - out.length → (∀ p ∈ ps, ∃ a, p = blockSample block a) → P (out ++ ps))
    (fuel : Nat) {out : List Pixel} (pos : Nat) (h : P out) : P (decodeLoop block total fuel out pos).out := by
  induction fuel generalizing out pos with
  | zero => exact h
  | succ fuel ih =>
    have hrun : ∀ len a, P (out ++ List.replicate (min len (total - out.length)) (blockSample block a)) := fun len a =>
      hadd _ _ h (by simp) fun p hp => ⟨a, List.eq_of_mem_replicate hp⟩
    have hlit : ∀ len (f : Nat → Nat),
        P (out ++ (List.range' 0 (min len (total - out.length))).map fun j => blockSample block (f j)) := fun len f =>
      hadd _ _ h (by simp) fun p hp => by
        obtain ⟨j, -, rfl⟩ := List.mem_map.1 hp
        exact ⟨f j, rfl⟩
    simp only [decodeLoop]
    split
    · exact h
    · split
      · exact h
      · split
        · split
          · exact h
          · exact ih _ (hrun _ _)
        · split
          · exact h
          · exact ih _ (hlit _ _)

/-! ## Zero padding (R71) -/

theorem blockSample_replicate_zero (m a : Nat) : blockSample (List.replicate m 0) a = Pixel.black := by
  have h : ∀ b, byteAt (List.replicate m 0) b = 0 := fun b => by simp [byteAt]
  rw [blockSample, h, h, h, sampleOf, Pixel.black]

/-- At most `n` pixels, each of them BLACK. -/
def BlackUpTo (n : Nat) (out : List Pixel) : Prop := out.length ≤ n ∧ ∀ p ∈ out, p = Pixel.black

theorem BlackUpTo.append {n : Nat} {out ps : List Pixel} (h : BlackUpTo n out) (hlen : ps.length ≤ n - out.length)
    (hps : ∀ p ∈ ps, p = Pixel.black) : BlackUpTo n (out ++ ps) := by
  obtain ⟨hle, hout⟩ := h
  exact ⟨by rw [List.length_append]; omega, fun p hp => (List.mem_append.1 hp).elim (hout p) (hps p)⟩

/-- Filled up with BLACK (R88) it is BLACK throughout. -/
theorem BlackUpTo.fill {n : Nat} {out : List Pixel} (h : BlackUpTo n out) :
    out ++ List.replicate (n - out.length) Pixel.black = List.replicate n Pixel.black := by
  obtain ⟨hle, hout⟩ := h
  calc out ++ List.replicate (n - out.length) Pixel.black
      = List.replicate out.length Pixel.black ++ List.replicate (n - out.length) Pixel.black := by
        rw [← List.eq_replicate_of_mem hout]
    _ = List.replicate n Pixel.black := by rw [List.replicate_append_replicate, Nat.add_sub_cancel' hle]

theorem decodeLoop_replicate_zero (m n fuel pos : Nat) :
    BlackUpTo n (decodeLoop (List.replicate m 0) n fuel [] pos).out :=
  decodeLoop_out_keeps (fun _ ps hout hlen hps => hout.append hlen fun p hp => by
      obtain ⟨a, rfl⟩ := hps p hp
      exact blockSample_replicate_zero m a)
    fuel pos ⟨Nat.zero_le n, nofun⟩

/-- Settles O54: what the loop decodes from zeros is BLACK, and so is what finalization adds. -/
theorem zeroPaddingDecodesToBlack : Obligations.ZeroPaddingDecodesToBlack :=
  fun m n => (decodeLoop_replicate_zero m n (n + 1) 0).fill

end Sys2Proof.Machine
end

section
/-! Proofs of the statements about one step of unit DEC (R85 to R97): what the step does in each phase, the transition table
and the measure. -/

namespace Sys2Proof.Machine

open Sys2Proof.Safety

/-- Settles O5: of the four ways a group's decoding can go, the two that answer an instruction have the payload. -/
theorem onlyShortBytesAreRejected : Obligations.OnlyShortBytesAreRejected := by
  intro c bs
  refine ⟨rfl, ?_⟩
  rcases decodeGroup_cons c bs with ⟨hf, hl, hd⟩ | ⟨hf, b, g, r, rest, rfl, hd⟩ | ⟨hf, hl, hd⟩ | ⟨hf, ps, rest, ht, hd⟩
  · simp [decode, hd, hf, hl]
  · simp [decode, hd, hf]
  · simp [decode, hd, hf, hl]
  · have hlen : 3 * groupLen c ≤ bs.length := by simpa [ht] using takeSamples_isSome (groupLen c) bs
    simp [decode, hd, hf, hlen]

/-! ## The groups as instructions (R82, R83) -/

section

variable {s : State}

theorem exec_run_of_fetch (hp : s.dec.phase = .fetch) (len : Nat) (px : Pixel) :
    exec (.run len px) s = .next (s.setDec (takeRun len px s.dec)) := by
  simp only [exec, execRun, hp]

theorem exec_lit_of_fetch (hp : s.dec.phase = .fetch) (samples : List Pixel) :
    exec (.lit samples) s = .next (s.setDec (takeLit samples.length s.dec)) := by
  simp only [exec, execLit, hp]

theorem exec_run_of_run (hp : s.dec.phase = .run) (len : Nat) (px : Pixel) :
    exec (.run len px) s = .next (s.setDec (runStep s.dec)) := by
  simp only [exec, execRun, hp]

theorem exec_lit_of_lit (hp : s.dec.phase = .lit) (samples : List Pixel) :
    exec (.lit samples) s = .next (s.setDec (litStep (s.sampleAt s.dec.pos.toNat) s.dec)) := by
  simp only [exec, execLit, hp]

/-- A move is the step the unit takes. -/
theorem DecMove.decTurn {d : Dec} (h : DecMove s d) : decTurn s = .next (s.setDec d) := by
  rw [decTurn_eq, h.eq_decNext]

end

/-- Settles O11: the two arms of `exec` in FETCH. -/
theorem groupsAreTakenUpAtAGroupBoundary : Obligations.GroupsAreTakenUpAtAGroupBoundary :=
  fun _ hp => ⟨exec_run_of_fetch hp, exec_lit_of_fetch hp⟩

/-! ## One pixel of a group (R92, R93) -/

section

variable (d d' : Dec)

@[simp] theorem Dec.afterGroupPixel_rem : (d.afterGroupPixel d').rem = d.rem - 1 := by
  obtain ⟨c, p, h⟩ := d.afterGroupPixel_frame d'
  rw [h]

@[simp] theorem Dec.afterGroupPixel_pos : (d.afterGroupPixel d').pos = d'.pos := by
  obtain ⟨c, p, h⟩ := d.afterGroupPixel_frame d'
  rw [h]

@[simp] theorem Dec.afterGroupPixel_smp : (d.afterGroupPixel d').smp = d'.smp := by
  obtain ⟨c, p, h⟩ := d.afterGroupPixel_frame d'
  rw [h]

@[simp] theorem Dec.afterGroupPixel_dst : (d.afterGroupPixel d').dst = d'.dst := by
  obtain ⟨c, p, h⟩ := d.afterGroupPixel_frame d'
  rw [h]

variable {d}

theorem Dec.afterGroupPixel_of_full (hn : d.cnt.toNat + 1 = d.total) :
    (d.afterGroupPixel d').stop = .count ∧ (d.afterGroupPixel d').phase = .done := by
  rw [Dec.afterGroupPixel, if_pos hn]
  exact ⟨rfl, rfl⟩

theorem Dec.afterGroupPixel_of_not_full (hn : d.cnt.toNat + 1 ≠ d.total) :
    (d.afterGroupPixel d').stop = d'.stop ∧
      (d.afterGroupPixel d').phase = if d.rem - 1 = 0 then .fetch else d'.phase := by
  rw [Dec.afterGroupPixel, if_neg hn]
  split <;> exact ⟨rfl, rfl⟩

end

/-- Settles O12: the pixel by the write to DST, the end of the step by R92's three cases. -/
theorem theRunStepWritesOneCopyOfTheSample : Obligations.TheRunStepWritesOneCopyOfTheSample := by
  intro s len px hp
  have hdst := dstPixel_write s (s.setDec (runStep s.dec)) _ _ (Dec.afterGroupPixel_dst _ _) rfl
  refine ⟨_, exec_run_of_run hp len px, (DecMove.runPixel hp).onlyDecWorks, (hdst _).trans (if_pos rfl),
    fun k hk => (hdst k).trans (if_neg hk), Dec.afterGroupPixel_cnt _ _, Dec.afterGroupPixel_rem _ _,
    Dec.afterGroupPixel_pos _ _, Dec.afterGroupPixel_smp _ _, Dec.afterGroupPixel_of_full _, ?_⟩
  rw [← hp]
  exact Dec.afterGroupPixel_of_not_full (s.dec.emit s.dec.smp)

/-- Settles O13: in the same way, the pixel being the sample under the cursor. -/
theorem theLitStepReadsAndWritesOneSample : Obligations.TheLitStepReadsAndWritesOneSample := by
  intro s samples hp
  have hdst := dstPixel_write s (s.setDec (litStep (s.sampleAt s.dec.pos.toNat) s.dec)) _ _
    (Dec.afterGroupPixel_dst _ _) rfl
  refine ⟨_, exec_lit_of_lit hp samples, (DecMove.litPixel hp).onlyDecWorks, (hdst _).trans (if_pos rfl),
    fun k hk => (hdst k).trans (if_neg hk), Dec.afterGroupPixel_pos _ _, Dec.afterGroupPixel_cnt _ _,
    Dec.afterGroupPixel_rem _ _, Dec.afterGroupPixel_smp _ _, Dec.afterGroupPixel_of_full _, ?_⟩
  rw [← hp]
  exact Dec.afterGroupPixel_of_not_full ((s.dec.emit (s.sampleAt s.dec.pos.toNat)).advance 3)

/-! ## FETCH, PAD, IDLE and DONE (R91, R94, R95) -/

/-- Settles O22: each case is the move of that name. -/
theorem theFetchStepHasSixCases : Obligations.TheFetchStepHasSixCases := by
  intro s hp
  refine ⟨fun hc => (DecMove.count hp hc).decTurn, fun hc he => (DecMove.eob hp hc he).decTurn, ?_⟩
  rintro hc hl c len avail rfl rfl rfl
  exact ⟨fun hf ha => (DecMove.shortRun hp hc hl hf ha).decTurn, fun hf ha => (DecMove.takeRun hp hc hl hf ha).decTurn,
    fun hf ha => (DecMove.shortLit hp hc hl hf ha).decTurn, fun hf ha => (DecMove.takeLit hp hc hl hf ha).decTurn⟩

section

variable (d : Dec)

@[simp] theorem padStep_stop : (padStep d).stop = d.stop := by
  obtain ⟨p, h⟩ := padStep_frame d
  rw [h]
  rfl

@[simp] theorem padStep_pos : (padStep d).pos = d.pos := by
  obtain ⟨p, h⟩ := padStep_frame d
  rw [h]
  rfl

@[simp] theorem padStep_cnt : (padStep d).cnt = d.cnt + 1 := by
  obtain ⟨p, h⟩ := padStep_frame d
  rw [h]
  rfl

@[simp] theorem padStep_rem : (padStep d).rem = d.rem := by
  obtain ⟨p, h⟩ := padStep_frame d
  rw [h]
  rfl

@[simp] theorem padStep_smp : (padStep d).smp = d.smp := by
  obtain ⟨p, h⟩ := padStep_frame d
  rw [h]
  rfl

@[simp] theorem padStep_dst : (padStep d).dst = d.dst.write d.cnt.toNat Pixel.black := by
  obtain ⟨p, h⟩ := padStep_frame d
  rw [h]
  rfl

end

theorem padStep_phase {d : Dec} (hp : d.phase = .pad) :
    (padStep d).phase = if d.cnt.toNat + 1 = d.total then .done else .pad := by
  rw [← hp]
  unfold padStep
  split <;> rfl

/-- Settles O23: the PAD step is one BLACK pixel emitted, but for the phase. -/
theorem thePadStepWritesOneBlackPixel : Obligations.ThePadStepWritesOneBlackPixel := by
  intro s hp
  have hdst := dstPixel_write s (s.setDec (padStep s.dec)) _ _ (padStep_dst _) rfl
  exact ⟨_, (DecMove.padPixel hp).decTurn, (DecMove.padPixel hp).onlyDecWorks, (hdst _).trans (if_pos rfl),
    fun k hk => (hdst k).trans (if_neg hk), padStep_cnt _, padStep_pos _, padStep_stop _, padStep_rem _, padStep_smp _,
    padStep_phase hp⟩

/-- Settles O24: a unit that is not BUSY has no move, and with an empty agenda no other turn is taken. -/
theorem anIdleOrDoneUnitDoesNothing : Obligations.AnIdleOrDoneUnitDoesNothing := by
  intro s
  refine ⟨fun hp => (DecMove.still ((Dec.not_busy_iff _).2 hp)).decTurn, fun hp => ?_, fun hd he ha => ?_⟩
  · rcases encTurn_move s with ⟨-, h⟩ | ⟨hg, -⟩ | ⟨hg, -⟩
    · exact h
    · simp [hg] at hp
    · simp [hg] at hp
  · simp only [step, nextTurn, ha, idleTurn, hd, he, Bool.false_eq_true, if_false]

/-! ## Whose turn it is -/

/-- A step of the block that is DEC's (R10; log 5). -/
theorem step_eq_decTurn {s : State} (h : DecNext s) (hb : s.dec.busy = true) : step s = decTurn (popped s) := by
  rcases step_cases s with ⟨e, rest, ha, hs⟩ | ⟨ha, -, hs⟩ | ⟨-, hd, -⟩ | ⟨-, hd, -⟩
  · obtain rfl : e = .decTurn := by simpa [DecNext, ha] using h
    rw [hs, popped, ha]
    rfl
  · rw [hs, popped_of_empty ha]
  · exact absurd (hd.symm.trans hb) nofun
  · exact absurd (hd.symm.trans hb) nofun

/-- Settles O19: the step is DEC's, and in FETCH the window decodes to the group. -/
theorem aStepRunsTheGroupUnderTheCursor : Obligations.AStepRunsTheGroupUnderTheCursor := by
  intro s hn
  have hstep := fun hp => step_eq_decTurn hn ((Dec.busy_iff s.dec).2 hp)
  refine ⟨fun i rest hp hc hd => ?_, fun hp => ?_, fun hp => ?_⟩
  · have hfetch : decTurn (popped s) = fetchTurn (popped s) := by simp only [decTurn, popped, hp]
    rw [hstep (.inl hp), hfetch]
    exact fetchTurn_of_decode (s := popped s) hc hd
  · rw [hstep (.inr (.inl hp))]
    simp only [decTurn, popped, hp]
  · rw [hstep (.inr (.inr (.inl hp)))]
    simp only [decTurn, popped, hp]
    rfl

/-! ## The transition table (R90) -/

theorem Dec.afterGroupPixel_phase (d d' : Dec) :
    (d.afterGroupPixel d').phase = .done ∨ (d.afterGroupPixel d').phase = .fetch ∨
      (d.afterGroupPixel d').phase = d'.phase := by
  rcases d.afterGroupPixel_cases d' with ⟨-, h⟩ | ⟨-, -, h⟩ | ⟨-, -, h⟩ <;> simp [h]

/-- The moves of DEC that change the phase. -/
theorem DecMove.phase {s : State} {d : Dec} (h : DecMove s d) : d.phase = s.dec.phase ∨ (s.dec.phase, d.phase) ∈
    [(DecPhase.fetch, DecPhase.done), (.fetch, .pad), (.fetch, .run), (.fetch, .lit), (.run, .done), (.run, .fetch),
      (.lit, .done), (.lit, .fetch), (.pad, .done)] := by
  cases h with
  | still => exact .inl rfl
  | count hp | eob hp | shortRun hp | takeRun hp | shortLit hp | takeLit hp => simp [hp]
  | runPixel hp =>
    rcases s.dec.afterGroupPixel_phase (s.dec.emit s.dec.smp) with h | h | h
    · exact .inr (by rw [runStep, h, hp]; decide)
    · exact .inr (by rw [runStep, h, hp]; decide)
    · exact .inl h
  | litPixel hp =>
    rcases s.dec.afterGroupPixel_phase ((s.dec.emit (s.sampleAt s.dec.pos.toNat)).advance 3) with h | h | h
    · exact .inr (by rw [litStep, h, hp]; decide)
    · exact .inr (by rw [litStep, h, hp]; decide)
    · exact .inl h
  | padPixel hp =>
    rcases padStep_cases s.dec with ⟨-, h⟩ | ⟨-, h⟩
    · simp [h, hp]
    · exact .inl (by rw [h, Dec.emit_phase])

/-- An access of the host that changes the phase of DEC is a START or a reset. -/
theorem HostDec.phase {s : State} {op : HostOp} {d : Dec} (h : HostDec s op d) :
    d.phase = s.dec.phase ∨ (op = .reset ∧ d.phase = .idle) ∨
    (s.dec.busy = false ∧ d.phase = .fetch ∧ ∃ v, op = .writeDec .ctrl v ∧ v.getLsbD 0 = true) := by
  cases h with
  | start v hv hb => exact .inr (.inr ⟨hb, rfl, v, rfl, hv⟩)
  | reset => exact .inr (.inl ⟨rfl, rfl⟩)
  | same | configure | observe | showPos | showCnt | writeSrc | writeDst => exact .inl rfl

/-- Settles O25, over what a step of the block can be. -/
theorem decPhasesFollowTheTransitionTable : Obligations.DecPhasesFollowTheTransitionTable := by
  intro s t hstep hne
  rcases step_next hstep with ⟨hn, d, rfl, hm⟩ | ⟨e, rfl, -⟩ | ⟨op, hop, ha⟩
  · exact .inr (.inr ⟨hn, hm.phase.resolve_left hne⟩)
  · exact absurd rfl hne
  · rcases ha.hostDec.phase.resolve_left hne with ⟨rfl, hi⟩ | ⟨hb, hf, v, rfl, hv⟩
    · exact .inl ⟨hop, hi⟩
    · exact .inr (.inl ⟨(Dec.not_busy_iff _).1 hb, hf, v, hop, hv⟩)

/-! ## The measure (R97) -/

/-- A step of a running decode leaves FETCH, or counts a pixel. -/
theorem DecMove.leaves_fetch_or_counts {s : State} {d : Dec} (h : DecMove s d) (hb : s.dec.busy = true) :
    (s.dec.phase = .fetch ∧ d.phase ≠ .fetch ∧ d.cnt = s.dec.cnt) ∨ d.cnt = s.dec.cnt + 1 := by
  cases h with
  | still hn => exact absurd (hn.symm.trans hb) nofun
  | count hp | eob hp | shortRun hp | takeRun hp | shortLit hp | takeLit hp => exact .inl ⟨hp, nofun, rfl⟩
  | runPixel | litPixel => exact .inr (Dec.afterGroupPixel_cnt _ _)
  | padPixel => exact .inr (padStep_cnt _)

/-- Settles O31: with the invariant a pixel is counted below `N` only. -/
theorem theDecodersMeasureDecreases : Obligations.TheDecodersMeasureDecreases := by
  intro s t hi hb ht
  obtain ⟨d, rfl, hm⟩ := decTurn_next ht
  rw [State.setDec_dec, hm.total]
  rcases hm.leaves_fetch_or_counts hb with ⟨hp, hne, hc⟩ | hc
  · exact .inr ⟨by rw [hc], hp, hne⟩
  · rcases hm.pixel hi.dec with ⟨hc', -⟩ | ⟨hlt, -⟩
    · exact absurd (hc.symm.trans hc') (by simp)
    · rw [hc, Dec.cnt_add_one hlt]
      exact .inl (by omega)

end Sys2Proof.Machine
end

section
/-! Proofs of the statements about the decode function (R80 to R88, R98): its loop as a relation without fuel, and what the
result is and depends on. -/

namespace Sys2Proof.Machine

/-! ## The decode loop without fuel (R81) -/

/-- The pixels the group at `pos` gives with `done` pixels produced: its length, cut off at `N`. -/
def groupShare (block : List Byte) (total done pos : Nat) : Nat := min (groupLen (byteAt block pos)) (total - done)

/-- The first `k` samples from `pos` on. -/
def blockSamples (block : List Byte) (pos k : Nat) : List Pixel :=
  (List.range' 0 k).map fun j => blockSample block (pos + 3 * j)

@[simp] theorem blockSamples_length (block : List Byte) (pos k : Nat) : (blockSamples block pos k).length = k := by
  simp [blockSamples]

/-- The loop of R81 from `out` and `pos` on ends in `r`: the four stops, and one round for a RUN or a LIT. -/
inductive Decodes (block : List Byte) (total : Nat) : List Pixel → Nat → DecodeResult → Prop where
  | count {out pos} : out.length = total → Decodes block total out pos ⟨out, pos, .count⟩
  | eob {out pos} : out.length ≠ total → block.length ≤ pos → Decodes block total out pos ⟨out, pos, .eob⟩
  | shortRun {out pos} : out.length ≠ total → pos < block.length → runFlag (byteAt block pos) = true →
      block.length - (pos + 1) < 3 → Decodes block total out pos ⟨out, pos + 1, .shortRun⟩
  | run {out pos r} : out.length ≠ total → pos < block.length → runFlag (byteAt block pos) = true →
      3 ≤ block.length - (pos + 1) →
      Decodes block total
        (out ++ List.replicate (groupShare block total out.length pos) (blockSample block (pos + 1))) (pos + 4) r →
      Decodes block total out pos r
  | shortLit {out pos} : out.length ≠ total → pos < block.length → runFlag (byteAt block pos) = false →
      block.length - (pos + 1) < 3 * groupLen (byteAt block pos) →
      Decodes block total out pos ⟨out, pos + 1, .shortLit⟩
  | lit {out pos r} : out.length ≠ total → pos < block.length → runFlag (byteAt block pos) = false →
      3 * groupLen (byteAt block pos) ≤ block.length - (pos + 1) →
      Decodes block total (out ++ blockSamples block (pos + 1) (groupShare block total out.length pos))
        (pos + 1 + 3 * groupShare block total out.length pos) r →
      Decodes block total out pos r

section

variable {block : List Byte} {total : Nat}

theorem groupShare_pos {done : Nat} (h : done < total) (pos : Nat) : 1 ≤ groupShare block total done pos := by
  have := groupLen_pos (byteAt block pos)
  simp only [groupShare]
  omega

theorem groupShare_le_groupLen (done pos : Nat) : groupShare block total done pos ≤ groupLen (byteAt block pos) :=
  Nat.min_le_left _ _

theorem add_groupShare_le {done : Nat} (h : done ≤ total) (pos : Nat) : done + groupShare block total done pos ≤ total := by
  simp only [groupShare]
  omega

/-- With fuel for one round per missing pixel and one more, the loop ends in one of the four stops. -/
theorem decodeLoop_decodes (fuel : Nat) {out : List Pixel} (pos : Nat) (hle : out.length ≤ total)
    (hfuel : total < out.length + fuel) : Decodes block total out pos (decodeLoop block total fuel out pos) := by
  induction fuel generalizing out pos with
  | zero => omega
  | succ fuel ih =>
    simp only [decodeLoop]
    split
    · exact .count ‹_›
    · rename_i hne
      have hpos := groupShare_pos (block := block) (Nat.lt_of_le_of_ne hle hne) pos
      have hadd := add_groupShare_le (block := block) hle pos
      split
      · exact .eob hne ‹_›
      · rename_i hlt
        split
        · split
          · exact .shortRun hne (by omega) ‹_› ‹_›
          · refine .run hne (by omega) ‹_› (by omega) (ih _ ?_ ?_) <;> simp <;> omega
        · rename_i hf
          rw [Bool.not_eq_true] at hf
          split
          · exact .shortLit hne (by omega) hf ‹_›
          · refine .lit hne (by omega) hf (by omega) (ih _ ?_ ?_) <;> simp <;> omega

/-- And that is the only end it can have. -/
theorem Decodes.decodeLoop_eq {out : List Pixel} {pos : Nat} {r : DecodeResult} (h : Decodes block total out pos r)
    {fuel : Nat} (hle : out.length ≤ total) (hfuel : total ≤ out.length + fuel) :
    decodeLoop block total (fuel + 1) out pos = r := by
  induction h generalizing fuel with
  | count hc => simp [decodeLoop, hc]
  | eob hc he => simp [decodeLoop, hc, he]
  | shortRun hc hl hf ha => simp [decodeLoop, hc, hl, hf, ha]
  | shortLit hc hl hf ha => simp [decodeLoop, hc, hl, hf, ha]
  | @run out pos r hc hl hf ha _ ih =>
    have hpos := groupShare_pos (block := block) (Nat.lt_of_le_of_ne hle hc) pos
    obtain ⟨fuel, rfl⟩ := Nat.exists_eq_add_one.2 (by omega : 0 < fuel)
    rw [decodeLoop, if_neg hc, if_neg (Nat.not_le.2 hl)]
    simp only [if_pos hf, if_neg (Nat.not_lt.2 ha)]
    exact ih (by simpa using add_groupShare_le hle pos) (by simp; omega)
  | @lit out pos r hc hl hf ha _ ih =>
    have hpos := groupShare_pos (block := block) (Nat.lt_of_le_of_ne hle hc) pos
    obtain ⟨fuel, rfl⟩ := Nat.exists_eq_add_one.2 (by omega : 0 < fuel)
    rw [decodeLoop, if_neg hc, if_neg (Nat.not_le.2 hl)]
    simp only [hf, Bool.false_eq_true, if_false, if_neg (Nat.not_lt.2 ha)]
    exact ih (by simpa using add_groupShare_le hle pos) (by simp; omega)

/-! ## The decode function (R81, R88) -/

/-- The finalization of R88. -/
def DecodeResult.fill (total : Nat) (r : DecodeResult) : DecodeResult :=
  { r with out := r.out ++ List.replicate (total - r.out.length) Pixel.black }

/-- A decode is the loop from nothing produced at the first byte, then the finalization. -/
theorem exists_decodes (block : List Byte) (total : Nat) :
    ∃ r, r = decodeLoop block total (total + 1) [] 0 ∧ Decodes block total [] 0 r ∧
      decodeBlock block total = r.fill total :=
  ⟨_, rfl, decodeLoop_decodes _ 0 (Nat.zero_le _) (by simp), rfl⟩

theorem Decodes.decodeBlock_eq {r : DecodeResult} (h : Decodes block total [] 0 r) :
    decodeBlock block total = r.fill total := by
  rw [← h.decodeLoop_eq (fuel := total) (Nat.zero_le _) (by simp)]
  rfl

/-! ## What the result is (R80, R98 (a), (b)) -/

section

variable {out : List Pixel} {pos : Nat} {r : DecodeResult}

theorem Decodes.pos_le (h : Decodes block total out pos r) : pos ≤ r.pos := by
  induction h with
  | count | eob => exact Nat.le_refl _
  | shortRun | shortLit => exact Nat.le_succ _
  | run _ _ _ _ _ ih | lit _ _ _ _ _ ih => omega

theorem Decodes.pos_le_length (h : Decodes block total out pos r) (hpos : pos ≤ block.length) :
    r.pos ≤ block.length := by
  induction h with
  | count | eob => exact hpos
  | shortRun _ hl | shortLit _ hl => exact hl
  | run _ hl _ ha _ ih => exact ih (by omega)
  | @lit out pos _ _ hl _ ha _ ih =>
    have := groupShare_le_groupLen (block := block) (total := total) out.length pos
    exact ih (by omega)

theorem Decodes.out_length_le (h : Decodes block total out pos r) (hle : out.length ≤ total) : r.out.length ≤ total := by
  induction h with
  | count | eob | shortRun | shortLit => exact hle
  | run _ _ _ _ _ ih | lit _ _ _ _ _ ih => exact ih (by simpa using add_groupShare_le hle _)

theorem Decodes.cause_ne_none (h : Decodes block total out pos r) : r.cause ≠ .none := by
  induction h with
  | count | eob | shortRun | shortLit => exact nofun
  | run _ _ _ _ _ ih | lit _ _ _ _ _ ih => exact ih

theorem Decodes.cause_eq_count_iff (h : Decodes block total out pos r) : r.cause = .count ↔ r.out.length = total := by
  induction h with
  | count hc => exact iff_of_true rfl hc
  | eob hc | shortRun hc | shortLit hc => exact iff_of_false nofun hc
  | run _ _ _ _ _ ih | lit _ _ _ _ _ ih => exact ih

end

/-- Settles O51: the loop's pixels, then what the finalization adds. -/
theorem decodeGivesExactlyNPixelsBlackAtTheEnd : Obligations.DecodeGivesExactlyNPixelsBlackAtTheEnd := by
  intro block n
  obtain ⟨r, hr, h, hb⟩ := exists_decodes block n
  have hle := h.out_length_le (Nat.zero_le _)
  rw [hb, ← hr]
  refine ⟨?_, h.cause_ne_none, h.pos_le_length (Nat.zero_le _), r.out.length, hle, ?_, ?_, h.cause_eq_count_iff.symm⟩
  · simp [DecodeResult.fill, hle]
  · exact List.take_left
  · exact List.drop_left

/-! ## What the result depends on (R98 (c), (d)) -/

theorem blockSample_congr {block' : List Byte} {bound a : Nat} (h : ∀ b, b < bound → byteAt block' b = byteAt block b)
    (ha : a + 3 ≤ bound) : blockSample block' a = blockSample block a := by
  simp only [blockSample, h a (by omega), h (a + 1) (by omega), h (a + 2) (by omega)]

theorem blockSamples_congr {block' : List Byte} {bound pos k : Nat}
    (h : ∀ b, b < bound → byteAt block' b = byteAt block b) (hk : pos + 3 * k ≤ bound) :
    blockSamples block' pos k = blockSamples block pos k := by
  refine List.map_congr_left fun j hj => blockSample_congr h ?_
  rw [List.mem_range'_1] at hj
  omega

/-- The loop reads nothing at or past its final cursor; the block's length counts only where it stops short of `N`. -/
theorem Decodes.congr {block' : List Byte} {out : List Pixel} {pos : Nat} {r : DecodeResult}
    (h : Decodes block total out pos r) (hlen : block'.length = block.length ∨
      r.cause = .count ∧ block.length ≤ block'.length)
    (hbytes : ∀ a, a < r.pos → byteAt block' a = byteAt block a) : Decodes block' total out pos r := by
  have hle : block.length ≤ block'.length := by omega
  induction h with
  | count hc => exact .count hc
  | eob hc he =>
    obtain hlen := hlen.resolve_right nofun
    exact .eob hc (hlen ▸ he)
  | @shortRun out pos hc hl hf ha =>
    obtain hlen := hlen.resolve_right nofun
    exact .shortRun hc (hlen ▸ hl) (hbytes pos (Nat.lt_succ_self _) ▸ hf) (hlen ▸ ha)
  | @run out pos r hc hl hf ha hnext ih =>
    have hpos := hnext.pos_le
    have hctrl := hbytes pos (by omega)
    refine .run hc (by omega) (hctrl ▸ hf) (by omega) ?_
    rw [groupShare, hctrl, blockSample_congr hbytes (by omega)]
    exact ih hlen hbytes
  | @shortLit out pos hc hl hf ha =>
    obtain hlen := hlen.resolve_right nofun
    have hctrl := hbytes pos (Nat.lt_succ_self _)
    exact .shortLit hc (hlen ▸ hl) (hctrl ▸ hf) (by rw [hctrl, hlen]; exact ha)
  | @lit out pos r hc hl hf ha hnext ih =>
    have hpos := hnext.pos_le
    have hctrl := hbytes pos (by omega)
    refine .lit hc (by omega) (hctrl ▸ hf) (by rw [hctrl]; omega) ?_
    rw [groupShare, hctrl, blockSamples_congr hbytes (by exact hpos)]
    exact ih hlen hbytes

end

/-- Settles O52: the loop of the first block is one of the second. -/
theorem decodeReadsNothingPastItsFinalCursor : Obligations.DecodeReadsNothingPastItsFinalCursor := by
  intro block block' n hlen htake
  obtain ⟨r, -, h, hb⟩ := exists_decodes block n
  rw [hb] at htake ⊢
  refine (h.congr (.inl hlen) fun a ha => ?_).decodeBlock_eq
  have hget := congrArg (fun l => l[a]?.getD 0) htake
  simpa [DecodeResult.fill, ha, byteAt, List.getD_eq_getElem?_getD, List.getElem?_take_of_lt] using hget

/-- Settles O53: after COUNT the longer block has the same loop. -/
theorem afterCountNothingAppendedMatters : Obligations.AfterCountNothingAppendedMatters := by
  intro block more n hcount
  obtain ⟨r, -, h, hb⟩ := exists_decodes block n
  rw [hb] at hcount ⊢
  refine (h.congr (.inr ⟨hcount, by simp⟩) fun a ha => ?_).decodeBlock_eq
  exact List.getD_append _ _ _ _ (Nat.lt_of_lt_of_le ha (h.pos_le_length (Nat.zero_le _)))

end Sys2Proof.Machine
end

section
/-! Proofs of the statements about several steps of unit DEC (R82, R83, R96, R97): a whole group, and a whole decode, which
computes the decode function. -/

namespace Sys2Proof.Machine

open Sys2Proof.Safety

/-! ## Several steps -/

theorem Memory.writeList_append {α : Type} (m : Memory α) (a : Nat) (ps qs : List α) :
    m.writeList a (ps ++ qs) = (m.writeList a ps).writeList (a + ps.length) qs := by
  induction ps generalizing m a with
  | nil => rfl
  | cons p ps ih => simp only [List.cons_append, Memory.writeList, ih, List.length_cons, Nat.add_comm, Nat.add_left_comm]

section

variable {M : Host.Core} {s t : M.State}

theorem run_succ (h : M.step s = .next t) (k : Nat) : M.run (k + 1) s = M.run k t := by
  rw [Host.Core.run, h]

theorem step_of_run_succ {k : Nat} (h : M.run (k + 1) s = .next t) : ∃ u, M.step s = .next u ∧ M.run k u = .next t := by
  rw [Host.Core.run] at h
  split at h
  · exact ⟨_, ‹_›, h⟩
  · cases h
  · cases h

theorem run_add {j : Nat} (h : M.run j s = .next t) (k : Nat) : M.run (j + k) s = M.run k t := by
  induction j generalizing s with
  | zero =>
    cases h
    rw [Nat.zero_add]
  | succ j ih =>
    obtain ⟨u, hs, hu⟩ := step_of_run_succ h
    rw [Nat.add_right_comm, run_succ hs, ih hu]

end

end Sys2Proof.Machine

namespace Sys2Proof.Safety

open Sys2Proof.Machine

theorem OnlyDecWorks.refl (s : State) : OnlyDecWorks s s := by constructor <;> rfl

theorem OnlyDecWorks.trans {s t u : State} (h : OnlyDecWorks s t) (h' : OnlyDecWorks t u) : OnlyDecWorks s u where
  enc := h'.enc.trans h.enc
  caps := h'.caps.trans h.caps
  agenda := h'.agenda.trans h.agenda
  reply := h'.reply.trans h.reply
  draws := h'.draws.trans h.draws
  epoch := h'.epoch.trans h.epoch
  w := h'.w.trans h.w
  h := h'.h.trans h.h
  len := h'.len.trans h.len
  src := h'.src.trans h.src
  inFlight := h'.inFlight.trans h.inFlight
  lenAtStart := h'.lenAtStart.trans h.lenAtStart
  posSeen := h'.posSeen.trans h.posSeen
  cntSeen := h'.cntSeen.trans h.cntSeen

section

variable {s t : State} (h : OnlyDecWorks s t)
include h

theorem OnlyDecWorks.total : t.dec.total = s.dec.total := by rw [Dec.total, h.w, h.h, Dec.total]

theorem OnlyDecWorks.srcByte : t.srcByte = s.srcByte := srcByte_of_src s t h.src h.epoch

theorem OnlyDecWorks.sampleAt : t.sampleAt = s.sampleAt := by
  funext a
  simp only [State.sampleAt, h.srcByte]

theorem OnlyDecWorks.srcBytes : t.srcBytes = s.srcBytes := by
  funext a n
  simp only [State.srcBytes, h.srcByte]

end

end Sys2Proof.Safety

namespace Sys2Proof.Machine

open Sys2Proof.Safety

/-- `k` steps of the block from `s`, all of them DEC's, lead to `t`, and write `ps` to DST from `DEC_CNT` on. -/
structure DecRun (k : Nat) (s : State) (ps : List Pixel) (t : State) : Prop where
  steps : runs k s = .next t
  frame : OnlyDecWorks s t
  cnt : t.dec.cnt.toNat = s.dec.cnt.toNat + ps.length
  dst : t.dec.dst = s.dec.dst.writeList s.dec.cnt.toNat ps

theorem DecRun.trans {j k : Nat} {s t u : State} {ps qs : List Pixel} (h : DecRun j s ps t) (h' : DecRun k t qs u) :
    DecRun (j + k) s (ps ++ qs) u where
  steps := (run_add h.steps k).trans h'.steps
  frame := h.frame.trans h'.frame
  cnt := by rw [h'.cnt, h.cnt, List.length_append, Nat.add_assoc]
  dst := by rw [h'.dst, h.dst, h.cnt, Memory.writeList_append]

theorem DecRun.dstPixel {k : Nat} {s t : State} {ps : List Pixel} (h : DecRun k s ps t) (j : Nat) :
    t.dstPixel j = if hj : s.dec.cnt.toNat ≤ j ∧ j < s.dec.cnt.toNat + ps.length then ps[j - s.dec.cnt.toNat]'(by omega)
      else s.dstPixel j := by
  simp only [State.dstPixel, h.dst, h.frame.epoch, Memory.read_writeList]
  split <;> rfl

section

variable {s : State} {d : Dec} (ha : s.agenda = []) (hb : s.dec.busy = true) (h : DecMove s d)
include ha hb h

/-- With no host access pending, the move of a BUSY decoder is the next step of the block (log 5). -/
theorem DecMove.runs_one : runs 1 s = .next (s.setDec d) := by
  have hstep : step s = .next (s.setDec d) := by rw [step_eq_decTurn (.inl ha) hb, popped_of_empty ha, h.decTurn]
  exact run_succ (M := core) hstep 0

theorem DecMove.quietRun (hc : d.cnt = s.dec.cnt) (hd : d.dst = s.dec.dst) : DecRun 1 s [] (s.setDec d) :=
  ⟨h.runs_one ha hb, h.onlyDecWorks, congrArg BitVec.toNat hc, hd⟩

theorem DecMove.pixelRun {px : Pixel} (hlt : s.dec.cnt.toNat < s.dec.total) (hc : d.cnt = s.dec.cnt + 1)
    (hd : d.dst = s.dec.dst.write s.dec.cnt.toNat px) : DecRun 1 s [px] (s.setDec d) :=
  ⟨h.runs_one ha hb, h.onlyDecWorks, (congrArg BitVec.toNat hc).trans (Dec.cnt_add_one hlt), hd⟩

end

/-! ## Samples in SRC (R42) -/

/-- The first `k` samples of SRC from `a` on. -/
def State.samplesAt (s : State) (a k : Nat) : List Pixel := (List.range k).map fun j => s.sampleAt (a + 3 * j)

@[simp] theorem State.samplesAt_length (s : State) (a k : Nat) : (s.samplesAt a k).length = k := by
  simp [State.samplesAt]

theorem State.samplesAt_succ (s : State) (a k : Nat) :
    s.samplesAt a (k + 1) = s.sampleAt a :: s.samplesAt (a + 3) k := by
  simp [State.samplesAt, List.range_succ_eq_map, Function.comp_def, Nat.mul_succ, Nat.add_assoc, Nat.add_comm 3]

theorem State.srcBytes_eq_cons {s : State} {a n : Nat} {b : Byte} {rest : List Byte} (h : s.srcBytes a n = b :: rest) :
    ∃ m, b = s.srcByte a ∧ s.srcBytes (a + 1) m = rest := by
  cases n with
  | zero => cases h
  | succ n =>
    rw [State.srcBytes_succ] at h
    cases h
    exact ⟨n, rfl, rfl⟩

/-- Samples whose bytes stand at `a` in SRC are the samples there. -/
theorem eq_samplesAt {s : State} {a n : Nat} {ps : List Pixel} {rest : List Byte}
    (h : s.srcBytes a n = ps.flatMap sampleBytes ++ rest) : ps = s.samplesAt a ps.length := by
  induction ps generalizing a n with
  | nil => rfl
  | cons p ps ih =>
    obtain ⟨n₁, hb, h⟩ := State.srcBytes_eq_cons h
    obtain ⟨n₂, hg, h⟩ := State.srcBytes_eq_cons h
    obtain ⟨n₃, hr, h⟩ := State.srcBytes_eq_cons h
    have hp : p = s.sampleAt a := by rw [State.sampleAt, ← hb, ← hg, ← hr, sampleOf_sampleBytes]
    rw [List.length_cons, State.samplesAt_succ, ← hp, ← ih h]

/-! ## The pixels of a group under way (R92, R93) -/

/-- How far the cursor goes for one pixel: a sample in LIT, nothing in RUN. -/
def Dec.stride (d : Dec) : Nat := if d.phase = .lit then 3 else 0

theorem Dec.stride_of_phase {d d' : Dec} (h : d.phase = d'.phase) : d.stride = d'.stride := by simp only [Dec.stride, h]

@[simp] theorem takeRun_stride (len : Nat) (px : Pixel) (d : Dec) : (takeRun len px d).stride = 0 := rfl
@[simp] theorem takeLit_stride (len : Nat) (d : Dec) : (takeLit len d).stride = 3 := rfl

/-- The pixel that the group under way gives after `j` more. -/
def State.pixelAhead (s : State) (j : Nat) : Pixel :=
  if s.dec.phase = .lit then s.sampleAt (s.dec.pos.toNat + 3 * j) else s.dec.smp

/-- The next `k` pixels that the group under way gives. -/
def State.pixelsAhead (s : State) (k : Nat) : List Pixel := (List.range k).map s.pixelAhead

/-- How many pixels the group under way will write: `rem`, cut off at `N`. -/
def Dec.share (d : Dec) : Nat := min d.rem.toNat (d.total - d.cnt.toNat)

/-- A group is under way, with pixels to write, and no host access is pending. -/
structure InGroup (s : State) : Prop where
  agenda : s.agenda = []
  phase : s.dec.phase = .run ∨ s.dec.phase = .lit
  rem_pos : 1 ≤ s.dec.rem.toNat
  cnt_lt : s.dec.cnt.toNat < s.dec.total
  room : s.dec.pos.toNat + s.dec.stride * s.dec.rem.toNat ≤ s.dec.len.toNat

/-- The end of a group begun at the boundary `s`: by the pixel count, or at the next boundary. -/
def GroupEnds (s t : State) : Prop :=
  (t.dec.cnt.toNat = s.dec.total → t.dec.phase = .done ∧ t.dec.stop = .count) ∧
  (t.dec.cnt.toNat ≠ s.dec.total → t.dec.phase = .fetch ∧ t.dec.stop = s.dec.stop)

section

variable {s : State}

theorem InGroup.busy (h : InGroup s) : s.dec.busy = true :=
  (Dec.busy_iff _).2 (h.phase.elim (fun hp => .inr (.inl hp)) (fun hp => .inr (.inr (.inl hp))))

/-- One step of a group under way, from `s` to the unit `d`: a pixel, then R92's three cases. -/
structure GroupStep (s : State) (d : Dec) : Prop where
  run : DecRun 1 s [s.pixelAhead 0] (s.setDec d)
  smp : d.smp = s.dec.smp
  pos : d.pos.toNat = s.dec.pos.toNat + s.dec.stride
  rem : d.rem.toNat = s.dec.rem.toNat - 1
  full : s.dec.cnt.toNat + 1 = s.dec.total → d.phase = .done ∧ d.stop = .count
  last : s.dec.cnt.toNat + 1 ≠ s.dec.total → s.dec.rem.toNat = 1 → d.phase = .fetch ∧ d.stop = s.dec.stop
  more : s.dec.cnt.toNat + 1 ≠ s.dec.total → s.dec.rem.toNat ≠ 1 → d.phase = s.dec.phase ∧ d.stop = s.dec.stop

/-- The common tail of R92 and R93; `d'` holds the registers after the pixel. -/
theorem InGroup.groupStep_of_move (h : InGroup s) {d' : Dec} (hm : DecMove s (s.dec.afterGroupPixel d'))
    (hp : d'.phase = s.dec.phase) (hstop : d'.stop = s.dec.stop) (hsmp : d'.smp = s.dec.smp)
    (hpos : d'.pos.toNat = s.dec.pos.toNat + s.dec.stride) (hcnt : d'.cnt = s.dec.cnt + 1)
    (hdst : d'.dst = s.dec.dst.write s.dec.cnt.toNat (s.pixelAhead 0)) : GroupStep s (s.dec.afterGroupPixel d') := by
  have hrem : s.dec.rem - 1 = 0 ↔ s.dec.rem.toNat = 1 := by
    rw [sub_eq_zero, ← BitVec.toNat_inj]
    rfl
  refine ⟨hm.pixelRun h.agenda h.busy h.cnt_lt ((Dec.afterGroupPixel_cnt _ _).trans hcnt)
    ((Dec.afterGroupPixel_dst _ _).trans hdst), (Dec.afterGroupPixel_smp _ _).trans hsmp,
    (congrArg BitVec.toNat (Dec.afterGroupPixel_pos _ _)).trans hpos,
    (congrArg BitVec.toNat (Dec.afterGroupPixel_rem _ _)).trans (rem_sub_one h.rem_pos),
    fun hn => (Dec.afterGroupPixel_of_full d' hn).symm, fun hn h1 => ?_, fun hn h1 => ?_⟩
  · obtain ⟨hs, hph⟩ := Dec.afterGroupPixel_of_not_full d' hn
    exact ⟨hph.trans (if_pos (hrem.2 h1)), hs.trans hstop⟩
  · obtain ⟨hs, hph⟩ := Dec.afterGroupPixel_of_not_full d' hn
    exact ⟨(hph.trans (if_neg (mt hrem.1 h1))).trans hp, hs.trans hstop⟩

theorem InGroup.step (h : InGroup s) : ∃ d, GroupStep s d := by
  rcases h.phase with hp | hp
  · exact ⟨_, h.groupStep_of_move (.runPixel hp) rfl rfl rfl (by simp [Dec.stride, hp]) rfl
      (by simp [State.pixelAhead, hp])⟩
  · have hpos : (s.dec.pos + 3).toNat = s.dec.pos.toNat + 3 := by
      have hroom := h.room
      have hrem := h.rem_pos
      simp only [Dec.stride, hp, if_true] at hroom
      exact toNat_add_of_le (b := s.dec.len) (by simp; omega)
    exact ⟨_, h.groupStep_of_move (.litPixel hp) rfl rfl rfl (by simpa [Dec.stride, hp] using hpos) rfl
      (by simp [State.pixelAhead, hp])⟩

/-- With pixels left it leaves the same group under way. -/
theorem GroupStep.inGroup {d : Dec} (hd : GroupStep s d) (h : InGroup s) (hn : s.dec.cnt.toNat + 1 ≠ s.dec.total)
    (h1 : s.dec.rem.toNat ≠ 1) : InGroup (s.setDec d) := by
  have hf := hd.run.frame
  have hrem := h.rem_pos
  have hlt := h.cnt_lt
  obtain ⟨hp, -⟩ := hd.more hn h1
  refine ⟨h.agenda, hp ▸ h.phase, by rw [State.setDec_dec, hd.rem]; omega, ?_, ?_⟩
  · rw [hf.total, hd.run.cnt]
    exact Nat.lt_of_le_of_ne hlt hn
  · calc d.pos.toNat + d.stride * d.rem.toNat
        = s.dec.pos.toNat + s.dec.stride * (s.dec.rem.toNat - 1 + 1) := by
          rw [hd.pos, Dec.stride_of_phase hp, hd.rem, Nat.mul_succ]
          omega
      _ ≤ d.len.toNat := by
          rw [Nat.sub_add_cancel hrem, show d.len = s.dec.len from hf.len]
          exact h.room

/-- After a step that leaves the phase, the pixels ahead are the others. -/
theorem pixelsAhead_succ {t : State} (hf : OnlyDecWorks s t) (hp : t.dec.phase = s.dec.phase)
    (hsmp : t.dec.smp = s.dec.smp) (hpos : t.dec.pos.toNat = s.dec.pos.toNat + s.dec.stride) (k : Nat) :
    s.pixelsAhead (k + 1) = [s.pixelAhead 0] ++ t.pixelsAhead k := by
  have hahead : t.pixelAhead = s.pixelAhead ∘ Nat.succ := by
    funext j
    simp only [State.pixelAhead, Function.comp, hp, hsmp, hpos, hf.sampleAt, Dec.stride]
    split
    · congr 1
      omega
    · rfl
  rw [State.pixelsAhead, List.range_succ_eq_map, State.pixelsAhead, hahead, List.map_cons, List.map_map]
  rfl

/-- The steps that finish a group under way. -/
theorem InGroup.finish {k : Nat} (h : InGroup s) (hk : s.dec.share = k + 1) :
    ∃ t, DecRun (k + 1) s (s.pixelsAhead (k + 1)) t ∧ t.dec.smp = s.dec.smp ∧
      t.dec.pos.toNat = s.dec.pos.toNat + s.dec.stride * (k + 1) ∧ t.dec.rem.toNat = s.dec.rem.toNat - (k + 1) ∧
      GroupEnds s t := by
  induction k generalizing s with
  | zero =>
    obtain ⟨d, hd⟩ := h.step
    have hcnt : d.cnt.toNat = s.dec.cnt.toNat + 1 := hd.run.cnt
    have hlt := h.cnt_lt
    rw [Dec.share] at hk
    refine ⟨_, hd.run, hd.smp, by simpa using hd.pos, hd.rem, fun hn => hd.full (hcnt.symm.trans hn), fun hn => ?_⟩
    have hne : s.dec.cnt.toNat + 1 ≠ s.dec.total := fun he => hn (hcnt.trans he)
    exact hd.last hne (by omega)
  | succ k ih =>
    obtain ⟨d, hd⟩ := h.step
    have hcnt : d.cnt.toNat = s.dec.cnt.toNat + 1 := hd.run.cnt
    have htotal : d.total = s.dec.total := hd.run.frame.total
    have hrem : d.rem.toNat = s.dec.rem.toNat - 1 := hd.rem
    rw [Dec.share] at hk
    have hn : s.dec.cnt.toNat + 1 ≠ s.dec.total := by omega
    have h1 : s.dec.rem.toNat ≠ 1 := by omega
    obtain ⟨hp, hstop⟩ := hd.more hn h1
    obtain ⟨t, hrun, hsmp, hpos, hrem', hfull, hrest⟩ := ih (hd.inGroup h hn h1) (by
      rw [State.setDec_dec, Dec.share, hcnt, htotal, hrem]
      omega)
    simp only [State.setDec_dec, hd.pos, Dec.stride_of_phase hp, hrem, htotal, hstop] at hpos hrem' hfull hrest
    refine ⟨t, ?_, hsmp.trans hd.smp, ?_, by omega, hfull, hrest⟩
    · rw [pixelsAhead_succ hd.run.frame hp hd.smp hd.pos, Nat.add_comm (k + 1) 1]
      exact hd.run.trans hrun
    · rw [hpos, Nat.mul_succ _ (k + 1)]
      omega

theorem pixelsAhead_of_run (hp : s.dec.phase = .run) (k : Nat) : s.pixelsAhead k = List.replicate k s.dec.smp := by
  have hahead : s.pixelAhead = fun _ => s.dec.smp := by
    funext j
    simp [State.pixelAhead, hp]
  rw [State.pixelsAhead, hahead, List.map_const', List.length_range]

theorem pixelsAhead_of_lit (hp : s.dec.phase = .lit) (k : Nat) : s.pixelsAhead k = s.samplesAt s.dec.pos.toNat k := by
  have hahead : s.pixelAhead = fun j => s.sampleAt (s.dec.pos.toNat + 3 * j) := by
    funext j
    simp [State.pixelAhead, hp]
  rw [State.pixelsAhead, hahead, State.samplesAt]

end

/-! ## A whole group (R82, R83) -/

/-- From a boundary: the step that takes the group up, then those that finish it. -/
theorem group_run {s : State} {d : Dec} (hm : DecMove s d) (hp : s.dec.phase = .fetch) (hc : d.cnt = s.dec.cnt)
    (hd : d.dst = s.dec.dst) (hstop : d.stop = s.dec.stop) (hin : InGroup (s.setDec d)) :
    ∃ t, DecRun (1 + d.share) s ((s.setDec d).pixelsAhead d.share) t ∧ t.dec.smp = d.smp ∧
      t.dec.pos.toNat = d.pos.toNat + d.stride * d.share ∧ t.dec.rem.toNat = d.rem.toNat - d.share ∧
      GroupEnds s t := by
  have hrem : 1 ≤ d.rem.toNat := hin.rem_pos
  have hlt : d.cnt.toNat < d.total := hin.cnt_lt
  obtain ⟨k, hk⟩ : ∃ k, d.share = k + 1 := Nat.exists_eq_add_one.2 (by rw [Dec.share]; omega)
  obtain ⟨t, hrun, hsmp, hpos, hrem', hfull, hrest⟩ := hin.finish hk
  have ha : s.agenda = [] := hin.agenda
  have hquiet := hm.quietRun ha ((Dec.busy_iff _).2 (.inl hp)) hc hd
  rw [hk]
  simp only [State.setDec_dec, hm.total, hstop] at hfull hrest
  exact ⟨t, hquiet.trans hrun, hsmp, hpos, hrem', hfull, hrest⟩

section

variable {s : State} (ha : s.agenda = []) (hp : s.dec.phase = .fetch) (hc : s.dec.cnt.toNat < s.dec.total)
  (hl : s.dec.pos.toNat < s.dec.len.toNat) {k : Nat}
  (hk : k = min (groupLen (s.srcByte s.dec.pos.toNat)) (s.dec.total - s.dec.cnt.toNat))
include ha hp hc hl hk

/-- R82, from a boundary with the payload there. -/
theorem wholeRun (hf : runFlag (s.srcByte s.dec.pos.toNat) = true) (h3 : 3 ≤ s.dec.len.toNat - (s.dec.pos.toNat + 1)) :
    ∃ t, DecRun (1 + k) s (List.replicate k (s.sampleAt (s.dec.pos.toNat + 1))) t ∧
      t.dec.smp = s.sampleAt (s.dec.pos.toNat + 1) ∧ t.dec.pos.toNat = s.dec.pos.toNat + 4 ∧
      t.dec.rem.toNat = groupLen (s.srcByte s.dec.pos.toNat) - k ∧ GroupEnds s t := by
  have hpos : (s.dec.pos + 4).toNat = s.dec.pos.toNat + 4 := toNat_add_of_le (b := s.dec.len) (by simp; omega)
  have hrem := groupLen_toNat (s.srcByte s.dec.pos.toNat)
  have hin : InGroup (s.setDec
      (takeRun (groupLen (s.srcByte s.dec.pos.toNat)) (s.sampleAt (s.dec.pos.toNat + 1)) s.dec)) := by
    refine ⟨ha, .inl rfl, ?_, hc, ?_⟩
    · exact hrem.symm ▸ groupLen_pos _
    · rw [State.setDec_dec, takeRun_pos, takeRun_len, hpos, takeRun_stride]
      omega
  obtain ⟨t, hrun, hsmp, hpos', hrem', hends⟩ :=
    group_run (.takeRun hp (Nat.ne_of_lt hc) hl hf h3) hp rfl rfl rfl hin
  rw [Dec.share, takeRun_rem, hrem, takeRun_total, takeRun_cnt, ← hk] at hrun hpos' hrem'
  rw [pixelsAhead_of_run rfl] at hrun
  rw [takeRun_pos, hpos, takeRun_stride, Nat.zero_mul] at hpos'
  exact ⟨t, hrun, hsmp, hpos', hrem', hends⟩

/-- R83, from a boundary with the payload there. -/
theorem wholeLit (hf : runFlag (s.srcByte s.dec.pos.toNat) = false)
    (h3 : 3 * groupLen (s.srcByte s.dec.pos.toNat) ≤ s.dec.len.toNat - (s.dec.pos.toNat + 1)) :
    ∃ t, DecRun (1 + k) s (s.samplesAt (s.dec.pos.toNat + 1) k) t ∧
      t.dec.smp = s.dec.smp ∧ t.dec.pos.toNat = s.dec.pos.toNat + 1 + 3 * k ∧
      t.dec.rem.toNat = groupLen (s.srcByte s.dec.pos.toNat) - k ∧ GroupEnds s t := by
  have hpos : (s.dec.pos + 1).toNat = s.dec.pos.toNat + 1 := toNat_add_of_le (b := s.dec.len) hl
  have hrem := groupLen_toNat (s.srcByte s.dec.pos.toNat)
  have hin : InGroup (s.setDec (takeLit (groupLen (s.srcByte s.dec.pos.toNat)) s.dec)) := by
    refine ⟨ha, .inr rfl, ?_, hc, ?_⟩
    · exact hrem.symm ▸ groupLen_pos _
    · rw [State.setDec_dec, takeLit_pos, takeLit_len, takeLit_rem, hpos, hrem, takeLit_stride]
      omega
  obtain ⟨t, hrun, hsmp, hpos', hrem', hends⟩ :=
    group_run (.takeLit hp (Nat.ne_of_lt hc) hl hf h3) hp rfl rfl rfl hin
  rw [Dec.share, takeLit_rem, hrem, takeLit_total, takeLit_cnt, ← hk] at hrun hpos' hrem'
  rw [pixelsAhead_of_lit rfl, State.setDec_dec, takeLit_pos, hpos] at hrun
  rw [takeLit_pos, hpos, takeLit_stride] at hpos'
  exact ⟨t, hrun, hsmp, hpos', hrem', hends⟩

end

/-! ## The group under the cursor -/

/-- What lies under the cursor where the window decodes to a group. -/
theorem decode_groupWindow {s : State} {i : Instr} {rest : List Byte}
    (h : decode (.stream s.groupWindow) = .instr i rest) : s.dec.pos.toNat < s.dec.len.toNat ∧
      ((runFlag (s.srcByte s.dec.pos.toNat) = true ∧ 3 ≤ s.dec.len.toNat - (s.dec.pos.toNat + 1) ∧
        i = .run (groupLen (s.srcByte s.dec.pos.toNat)) (s.sampleAt (s.dec.pos.toNat + 1))) ∨
      (runFlag (s.srcByte s.dec.pos.toNat) = false ∧
        3 * groupLen (s.srcByte s.dec.pos.toNat) ≤ s.dec.len.toNat - (s.dec.pos.toNat + 1) ∧
        i = .lit (s.samplesAt (s.dec.pos.toNat + 1) (groupLen (s.srcByte s.dec.pos.toNat))))) := by
  rcases Nat.lt_or_ge s.dec.pos.toNat s.dec.len.toNat with hl | hl
  · refine ⟨hl, ?_⟩
    rw [decode, s.groupWindow_cons hl] at h
    rcases decodeGroup_cons (s.srcByte s.dec.pos.toNat)
      (s.srcBytes (s.dec.pos.toNat + 1) (min 384 (s.dec.len.toNat - (s.dec.pos.toNat + 1)))) with
      ⟨-, -, hd⟩ | ⟨hf, b, g, r, tail, hb, hd⟩ | ⟨-, -, hd⟩ | ⟨hf, ps, tail, ht, hd⟩
    · cases hd.symm.trans h
    · have hlen := congrArg List.length hb
      simp only [State.srcBytes_length, List.length_cons] at hlen
      cases hd.symm.trans h
      exact .inl ⟨hf, by omega, by rw [State.sampleAt_of_srcBytes hb]⟩
    · cases hd.symm.trans h
    · obtain ⟨hn, hb⟩ := takeSamples_eq_some ht
      have hlen := congrArg List.length hb
      simp only [State.srcBytes_length, List.length_append, flatMap_sampleBytes_length] at hlen
      cases hd.symm.trans h
      exact .inr ⟨hf, by omega, hn ▸ congrArg Instr.lit (eq_samplesAt hb.symm)⟩
  · rw [s.groupWindow_of_end hl] at h
    cases h

/-- Settles O14: the group taken up, then its copies. -/
theorem aWholeRunWritesItsCopies : Obligations.AWholeRunWritesItsCopies := by
  intro s len px rest ha hp hc hd
  obtain ⟨hl, ⟨hf, h3, hi⟩ | ⟨-, -, hi⟩⟩ := decode_groupWindow hd
  · cases hi
    obtain ⟨t, hrun, hsmp, hpos, hrem, hfull, hrest⟩ := wholeRun ha hp hc hl rfl hf h3
    refine ⟨t, hrun.steps, hrun.frame, hpos, hsmp, hrem, by simpa using hrun.cnt, fun j => ?_, hfull, hrest⟩
    rw [hrun.dstPixel]
    simp only [List.length_replicate, List.getElem_replicate, dite_eq_ite]
  · cases hi

/-- Settles O15: the group taken up, then its samples. -/
theorem aWholeLiteralWritesItsSamples : Obligations.AWholeLiteralWritesItsSamples := by
  intro s samples rest ha hp hc hd
  obtain ⟨hl, ⟨-, -, hi⟩ | ⟨hf, h3, hi⟩⟩ := decode_groupWindow hd
  · cases hi
  · cases hi
    rw [State.samplesAt_length]
    obtain ⟨t, hrun, hsmp, hpos, hrem, hfull, hrest⟩ := wholeLit ha hp hc hl rfl hf h3
    refine ⟨t, hrun.steps, hrun.frame, hpos, hsmp, hrem, by simpa using hrun.cnt, fun j hj => ?_, fun j hj => ?_, hfull,
      hrest⟩
    · have hlt : j < groupLen (s.srcByte s.dec.pos.toNat) := Nat.lt_of_lt_of_le hj (Nat.min_le_left _ _)
      rw [hrun.dstPixel, dif_pos (by simpa using hj)]
      simp [State.samplesAt, hlt]
    · rw [hrun.dstPixel, dif_neg (by simp; omega)]

end Sys2Proof.Machine
end

section
/-! Proof of the statement about a whole decode (R96, R97): unit DEC, left undisturbed, computes the decode function. -/

namespace Sys2Proof.Machine

open Sys2Proof.Safety

/-! ## The block that SRC holds -/

section

variable {s : State} {n : Nat}

theorem byteAt_srcBytes {a : Nat} (h : a < n) : byteAt (s.srcBytes 0 n) a = s.srcByte a := by
  simp [byteAt, State.srcBytes, h]

theorem blockSample_srcBytes {a : Nat} (h : a + 3 ≤ n) : blockSample (s.srcBytes 0 n) a = s.sampleAt a := by
  simp only [blockSample, State.sampleAt, byteAt_srcBytes (by omega : a < n), byteAt_srcBytes (by omega : a + 1 < n),
    byteAt_srcBytes (by omega : a + 2 < n)]

theorem blockSamples_srcBytes {a k : Nat} (h : a + 3 * k ≤ n) :
    blockSamples (s.srcBytes 0 n) a k = s.samplesAt a k := by
  rw [blockSamples, State.samplesAt, List.range_eq_range']
  refine List.map_congr_left fun j hj => blockSample_srcBytes ?_
  rw [List.mem_range'_1] at hj
  omega

end

/-- A full loop ends with COUNT (R84). -/
theorem Decodes.eq_of_full {block : List Byte} {total : Nat} {out : List Pixel} {pos : Nat} {r : DecodeResult}
    (h : Decodes block total out pos r) (hfull : out.length = total) : r = ⟨out, pos, .count⟩ := by
  cases h with
  | count => rfl
  | eob hc | shortRun hc | run hc | shortLit hc | lit hc => exact absurd hfull hc

/-! ## The finalization, one pixel a step (R88, R94) -/

theorem padStep_run {s : State} (ha : s.agenda = []) (hp : s.dec.phase = .pad) (hlt : s.dec.cnt.toNat < s.dec.total) :
    DecRun 1 s [Pixel.black] (s.setDec (padStep s.dec)) :=
  (DecMove.padPixel hp).pixelRun ha ((Dec.busy_iff _).2 (.inr (.inr (.inr hp)))) hlt (padStep_cnt _) (padStep_dst _)

theorem pad_run {n : Nat} {s : State} (ha : s.agenda = []) (hp : s.dec.phase = .pad)
    (hn : s.dec.cnt.toNat + (n + 1) = s.dec.total) :
    ∃ t, DecRun (n + 1) s (List.replicate (n + 1) Pixel.black) t ∧ t.dec.phase = .done ∧ t.dec.pos = s.dec.pos ∧
      t.dec.stop = s.dec.stop := by
  induction n generalizing s with
  | zero =>
    exact ⟨_, padStep_run ha hp (by omega), (padStep_phase hp).trans (if_pos hn), padStep_pos _, padStep_stop _⟩
  | succ n ih =>
    have hrun := padStep_run ha hp (by omega)
    have hcnt := hrun.cnt
    obtain ⟨t, hrun', hdone, hpos, hstop⟩ := ih (s := s.setDec (padStep s.dec)) ha
      ((padStep_phase hp).trans (if_neg (by omega))) (by rw [hrun.frame.total, hcnt, List.length_singleton]; omega)
    refine ⟨t, ?_, hdone, hpos.trans (padStep_pos _), hstop.trans (padStep_stop _)⟩
    rw [Nat.add_comm (n + 1) 1, List.replicate_add]
    exact hrun.trans hrun'

/-- The pixels written stand in DST. -/
theorem DecRun.map_dstPixel {k : Nat} {s t : State} {ps : List Pixel} (h : DecRun k s ps t) :
    (List.range' s.dec.cnt.toNat ps.length).map t.dstPixel = ps := by
  unfold State.dstPixel
  rw [h.dst]
  exact Memory.map_read_writeList _ _ _ _

/-! ## From a boundary to the end -/

/-- The decoder stands at a group boundary with `out` produced and the cursor at `pos`, no host access pending. -/
structure AtBoundary (block : List Byte) (total : Nat) (out : List Pixel) (pos : Nat) (s : State) : Prop where
  agenda : s.agenda = []
  phase : s.dec.phase = .fetch
  block_eq : s.srcBytes 0 s.dec.len.toNat = block
  total_eq : s.dec.total = total
  cnt_eq : s.dec.cnt.toNat = out.length
  pos_eq : s.dec.pos.toNat = pos
  out_le : out.length ≤ total

/-- The decoder reaches DONE from `s`, where `out` is produced, with the result `r` and in the steps R97 allows. -/
def Completes (out : List Pixel) (r : DecodeResult) (s : State) : Prop :=
  ∃ k ps t, k ≤ max 1 (2 * (s.dec.total - s.dec.cnt.toNat)) ∧ DecRun k s ps t ∧
    out ++ ps = (r.fill s.dec.total).out ∧ t.dec.phase = .done ∧ t.dec.pos.toNat = r.pos ∧ t.dec.stop = r.cause

section

variable {block : List Byte} {total : Nat} {out : List Pixel} {pos : Nat} {s : State}

section

variable (hs : AtBoundary block total out pos s)
include hs

theorem AtBoundary.busy : s.dec.busy = true := (Dec.busy_iff _).2 (.inl hs.phase)

theorem AtBoundary.wanting (hc : out.length ≠ total) : s.dec.cnt.toNat < s.dec.total := by
  rw [hs.cnt_eq, hs.total_eq]
  exact Nat.lt_of_le_of_ne hs.out_le hc

theorem AtBoundary.len_eq : s.dec.len.toNat = block.length := by rw [← hs.block_eq, State.srcBytes_length]

theorem AtBoundary.pos_lt (hl : pos < block.length) : s.dec.pos.toNat < s.dec.len.toNat := by
  rwa [hs.pos_eq, hs.len_eq]

theorem AtBoundary.avail_eq : s.dec.len.toNat - (s.dec.pos.toNat + 1) = block.length - (pos + 1) := by
  rw [hs.pos_eq, hs.len_eq]

theorem AtBoundary.byteAt_pos (hl : pos < block.length) : byteAt block pos = s.srcByte s.dec.pos.toNat := by
  rw [hs.pos_eq, ← hs.block_eq]
  exact byteAt_srcBytes (hs.len_eq.symm ▸ hl)

theorem AtBoundary.pos_add_one (hl : pos < block.length) : (s.dec.pos + 1).toNat = pos + 1 := by
  rw [← hs.pos_eq]
  exact toNat_add_of_le (b := s.dec.len) (hs.pos_lt hl)

theorem AtBoundary.blockSample_eq {a : Nat} (h : a + 3 ≤ block.length) : blockSample block a = s.sampleAt a := by
  obtain rfl := hs.block_eq
  exact blockSample_srcBytes (by rwa [State.srcBytes_length] at h)

theorem AtBoundary.blockSamples_eq {a k : Nat} (h : a + 3 * k ≤ block.length) :
    blockSamples block a k = s.samplesAt a k := by
  obtain rfl := hs.block_eq
  exact blockSamples_srcBytes (by rwa [State.srcBytes_length] at h)

theorem AtBoundary.groupShare_eq (hl : pos < block.length) : groupShare block total out.length pos =
    min (groupLen (s.srcByte s.dec.pos.toNat)) (s.dec.total - s.dec.cnt.toNat) := by
  rw [groupShare, hs.byteAt_pos hl, hs.total_eq, hs.cnt_eq]

end

theorem fill_out_of_full {c : Stop} (h : out.length = total) : (DecodeResult.fill total ⟨out, pos, c⟩).out = out := by
  simp [DecodeResult.fill, h]

/-- The stop at the pixel count (R84). -/
theorem AtBoundary.completes_count (hs : AtBoundary block total out pos s) (hc : out.length = total) :
    Completes out ⟨out, pos, .count⟩ s := by
  have hm := DecMove.count hs.phase (hs.cnt_eq.trans (hc.trans hs.total_eq.symm))
  refine ⟨1, [], _, Nat.le_max_left _ _, hm.quietRun hs.agenda hs.busy rfl rfl, ?_, rfl, hs.pos_eq, rfl⟩
  rw [hs.total_eq, fill_out_of_full hc, List.append_nil]

/-- A stop short of it (R85 to R87): the finalization follows. -/
theorem AtBoundary.completes_short (hs : AtBoundary block total out pos s) (hc : out.length ≠ total) {d : Dec}
    (hm : DecMove s d) (hp : d.phase = .pad) (hcnt : d.cnt = s.dec.cnt) (hdst : d.dst = s.dec.dst) {pos' : Nat}
    (hpos' : d.pos.toNat = pos') : Completes out ⟨out, pos', d.stop⟩ s := by
  have hlt := Nat.lt_of_le_of_ne hs.out_le hc
  have hquiet := hm.quietRun hs.agenda hs.busy hcnt hdst
  obtain ⟨n, hn⟩ : ∃ n, total - out.length = n + 1 := Nat.exists_eq_add_one.2 (by omega)
  obtain ⟨t, hrun, hdone, hpos, hstop⟩ := pad_run (n := n) (s := s.setDec d) hs.agenda hp (by
    rw [hquiet.frame.total, hs.total_eq, State.setDec_dec, hcnt, hs.cnt_eq]
    omega)
  refine ⟨_, _, t, ?_, hquiet.trans hrun, ?_, hdone, (congrArg BitVec.toNat hpos).trans hpos', hstop⟩
  · rw [hs.total_eq, hs.cnt_eq, hn]
    omega
  · rw [hs.total_eq, DecodeResult.fill, hn, List.nil_append]

/-- A group, and what follows it. -/
theorem AtBoundary.completes_group (hs : AtBoundary block total out pos s) {ps : List Pixel} {t : State} {pos' : Nat}
    {r : DecodeResult} (hrun : DecRun (1 + ps.length) s ps t) (hne : 1 ≤ ps.length) (hle : out.length + ps.length ≤ total)
    (hpos : t.dec.pos.toNat = pos') (hends : GroupEnds s t) (hnext : Decodes block total (out ++ ps) pos' r)
    (ih : AtBoundary block total (out ++ ps) pos' t → Completes (out ++ ps) r t) : Completes out r s := by
  have hcnt : t.dec.cnt.toNat = (out ++ ps).length := by rw [hrun.cnt, hs.cnt_eq, List.length_append]
  have htotal : t.dec.total = total := hrun.frame.total.trans hs.total_eq
  obtain ⟨hfull, hrest⟩ := hends
  rw [hs.total_eq, hcnt] at hfull hrest
  rw [List.length_append] at hcnt
  by_cases hn : (out ++ ps).length = total
  · obtain rfl := hnext.eq_of_full hn
    obtain ⟨hdone, hstop⟩ := hfull hn
    rw [List.length_append] at hn
    refine ⟨_, ps, t, ?_, hrun, ?_, hdone, hpos, hstop⟩
    · rw [hs.total_eq, hs.cnt_eq]
      omega
    · rw [hs.total_eq, fill_out_of_full (by simpa using hn)]
  · obtain ⟨hfetch, -⟩ := hrest hn
    rw [List.length_append] at hn
    obtain ⟨k, qs, u, hk, hrun', hout, hdone, hpos', hstop⟩ := ih
      ⟨hrun.frame.agenda.trans hs.agenda, hfetch, by rw [hrun.frame.srcBytes, hrun.frame.len, hs.block_eq], htotal,
        by rw [hcnt, List.length_append], hpos, by simpa using hle⟩
    refine ⟨_, ps ++ qs, u, ?_, hrun.trans hrun', ?_, hdone, hpos', hstop⟩
    · rw [htotal, hcnt] at hk
      rw [hs.total_eq, hs.cnt_eq]
      omega
    · rw [← List.append_assoc, hout, htotal, hs.total_eq]

/-- From every boundary the decoder ends where the loop of R81 does. -/
theorem Decodes.completes {r : DecodeResult} (h : Decodes block total out pos r) (hs : AtBoundary block total out pos s) :
    Completes out r s := by
  induction h generalizing s with
  | count hc => exact hs.completes_count hc
  | eob hc he =>
    refine hs.completes_short hc (.eob hs.phase (Nat.ne_of_lt (hs.wanting hc)) ?_) rfl rfl rfl hs.pos_eq
    rwa [hs.pos_eq, hs.len_eq]
  | shortRun hc hl hf ha =>
    rw [hs.byteAt_pos hl] at hf
    rw [← hs.avail_eq] at ha
    exact hs.completes_short hc (.shortRun hs.phase (Nat.ne_of_lt (hs.wanting hc)) (hs.pos_lt hl) hf ha) rfl rfl rfl
      (hs.pos_add_one hl)
  | shortLit hc hl hf ha =>
    rw [hs.byteAt_pos hl] at hf ha
    rw [← hs.avail_eq] at ha
    exact hs.completes_short hc (.shortLit hs.phase (Nat.ne_of_lt (hs.wanting hc)) (hs.pos_lt hl) hf ha) rfl rfl rfl
      (hs.pos_add_one hl)
  | @run out pos r hc hl hf ha hnext ih =>
    have hne := groupShare_pos (block := block) (Nat.lt_of_le_of_ne hs.out_le hc) pos
    have hle := add_groupShare_le (block := block) hs.out_le pos
    have hsample := hs.blockSample_eq (a := pos + 1) (by omega)
    rw [hs.byteAt_pos hl] at hf
    obtain ⟨t, hrun, -, hpos, -, hends⟩ := wholeRun hs.agenda hs.phase (hs.wanting hc) (hs.pos_lt hl)
      (hs.groupShare_eq hl) hf (hs.avail_eq ▸ ha)
    rw [hs.pos_eq, ← hsample] at hrun
    exact hs.completes_group (by rwa [List.length_replicate]) (by rwa [List.length_replicate])
      (by rwa [List.length_replicate]) (by rw [hpos, hs.pos_eq]) hends hnext ih
  | @lit out pos r hc hl hf ha hnext ih =>
    have hne := groupShare_pos (block := block) (Nat.lt_of_le_of_ne hs.out_le hc) pos
    have hle := add_groupShare_le (block := block) hs.out_le pos
    have hshare := groupShare_le_groupLen (block := block) (total := total) out.length pos
    have hsamples := hs.blockSamples_eq (a := pos + 1) (k := groupShare block total out.length pos) (by omega)
    rw [hs.byteAt_pos hl] at hf ha
    obtain ⟨t, hrun, -, hpos, -, hends⟩ := wholeLit hs.agenda hs.phase (hs.wanting hc) (hs.pos_lt hl)
      (hs.groupShare_eq hl) hf (hs.avail_eq ▸ ha)
    rw [hs.pos_eq, ← hsamples] at hrun
    exact hs.completes_group (by rwa [blockSamples_length]) (by rwa [blockSamples_length])
      (by rwa [blockSamples_length]) (by rw [hpos, hs.pos_eq]) hends hnext ih

end

/-- Settles O58: a START stands at the first boundary, and the pixels written make up DST from index 0 on. -/
theorem aDecodeComputesTheDecodeFunction : Obligations.ADecodeComputesTheDecodeFunction := by
  intro s u ha hb hu
  obtain ⟨hb', -⟩ | ⟨-, -, -, rfl⟩ := execDecStart_next hu
  · exact absurd (hb.symm.trans hb') nofun
  obtain ⟨r, -, h, hblock⟩ := exists_decodes (s.srcBytes 0 s.dec.len.toNat) s.dec.total
  obtain ⟨k, ps, t, hk, hrun, hout, hdone, hpos, hstop⟩ :=
    h.completes (s := s.setDec s.dec.start) ⟨ha, rfl, rfl, rfl, rfl, rfl, Nat.zero_le _⟩
  change k ≤ max 1 (2 * s.dec.total) at hk
  change ps = (r.fill s.dec.total).out at hout
  have hlen : ps.length = s.dec.total := by
    rw [hout, DecodeResult.fill, List.length_append, List.length_replicate]
    exact Nat.add_sub_cancel' (h.out_length_le (Nat.zero_le _))
  have hcnt : t.dec.cnt.toNat = s.dec.total := by rw [hrun.cnt, hlen]; exact Nat.zero_add _
  rw [hblock, ← hout]
  refine ⟨k, t, by omega, by omega, hrun.steps, hdone, (Dec.not_busy_iff _).2 (.inr hdone), (Dec.isDone_iff _).2 hdone,
    hcnt, ?_, hpos, hstop, fun j hj => ?_, hrun.frame⟩
  · rw [← hlen]
    exact hrun.map_dstPixel
  · rw [hrun.dstPixel, dif_neg (by simpa [hlen] using hj)]
    rfl

end Sys2Proof.Machine
end

section
/-! Proofs of the statements about the reference encoding (R112 to R114, R123, R124): where its two counting loops stop,
what its groups spell and what stands after each, and its size. -/

namespace Sys2Proof.Machine

/-! ## Where counting stops -/

section

variable {p : Nat → Prop} [DecidablePred p] {fuel c : Nat}

/-- The condition holds of every count passed. -/
theorem of_lt_countUp {k : Nat} (hck : c ≤ k) (hk : k < countUp p fuel c) : p k := by
  induction fuel generalizing c with
  | zero => exact absurd hk (Nat.not_lt.2 hck)
  | succ fuel ih =>
    unfold countUp at hk
    split at hk
    · rcases Nat.eq_or_lt_of_le hck with rfl | hlt
      · assumption
      · exact ih hlt hk
    · exact absurd hk (Nat.not_lt.2 hck)

/-- With fuel up to a bound of the condition, counting stops where the condition fails. -/
theorem not_countUp (hp : ∀ k, p k → k < c + fuel) : ¬ p (countUp p fuel c) := by
  induction fuel generalizing c with
  | zero => exact fun h => Nat.lt_irrefl c (hp c h)
  | succ fuel ih =>
    unfold countUp
    split
    · exact ih fun k hk => Nat.lt_of_lt_of_eq (hp k hk) (Nat.add_right_comm c fuel 1)
    · assumption

end

section

variable {pix : Nat → Pixel} {n i : Nat}

theorem runCount_eq_countUp : runCount pix n i = countUp (RunGoesOn pix n i) Config.maxGroup 1 :=
  runCountFrom_eq_countUp ..

theorem litLength_eq_countUp : litLength pix n i = countUp (LitGoesOn pix n i) Config.maxGroup 1 :=
  litLengthFrom_eq_countUp ..

theorem eq_of_lt_runCount {j : Nat} (hj : j < runCount pix n i) : pix (i + j) = pix i := by
  rcases Nat.eq_zero_or_pos j with rfl | hpos
  · rfl
  · rw [runCount_eq_countUp] at hj
    exact (of_lt_countUp hpos hj).2.2

theorem not_runGoesOn_runCount : ¬ RunGoesOn pix n i (runCount pix n i) := by
  rw [runCount_eq_countUp]
  exact not_countUp fun k hk => Nat.lt_add_left 1 hk.1

theorem litGoesOn_of_lt_litLength {k : Nat} (hpos : 1 ≤ k) (hk : k < litLength pix n i) : LitGoesOn pix n i k := by
  rw [litLength_eq_countUp] at hk
  exact of_lt_countUp hpos hk

theorem not_litGoesOn_litLength : ¬ LitGoesOn pix n i (litLength pix n i) := by
  rw [litLength_eq_countUp]
  exact not_countUp fun k hk => Nat.lt_add_left 1 hk.1

/-- A run that ends below the cap and before the end of the sequence ends before another pixel (R112). -/
theorem ne_at_runCount (hcap : runCount pix n i < 128) (hlt : i + runCount pix n i < n) :
    pix (i + runCount pix n i) ≠ pix i :=
  fun heq => not_runGoesOn_runCount ⟨hcap, hlt, heq⟩

/-- No two neighbours in a literal are equal: its first two because no run starts there (R114). -/
theorem ne_of_lt_litLength (hrun : runCount pix n i = 1) {j : Nat} (hj : j + 1 < litLength pix n i) :
    pix (i + j + 1) ≠ pix (i + j) := by
  obtain ⟨-, hlt, hne | h1⟩ := litGoesOn_of_lt_litLength (Nat.le_add_left 1 j) hj
  · exact hne
  · obtain rfl : j = 0 := Nat.succ.inj h1
    have h := ne_at_runCount (pix := pix) (n := n) (i := i)
    rw [hrun] at h
    exact h (by decide) hlt

/-- A literal that ends below the cap and before the end of the sequence has two pixels at least and ends before a pixel
equal to its last (R114). -/
theorem eq_at_litLength (hcap : litLength pix n i < 128) (hlt : i + litLength pix n i < n) :
    litLength pix n i ≠ 1 ∧ pix (i + litLength pix n i) = pix (i + litLength pix n i - 1) := by
  have h := not_litGoesOn_litLength (pix := pix) (n := n) (i := i)
  exact ⟨fun h1 => h ⟨hcap, hlt, .inr h1⟩, not_ne_iff.1 fun hne => h ⟨hcap, hlt, .inl hne⟩⟩

end

/-- Settles O33: a larger count would go on where the loop stopped. -/
theorem theRunCountIsTheLargest : Obligations.TheRunCountIsTheLargest := by
  intro pix n i hi
  refine ⟨⟨runCount_pos, runCount_le, add_runCount_le hi, fun j hj => eq_of_lt_runCount hj⟩, fun c _ hcap hle heq => ?_⟩
  refine Nat.le_of_not_lt fun hlt => ?_
  exact ne_at_runCount (by omega) (by omega) (heq _ hlt)

/-- Settles O34: the literal loop goes on between unequal neighbours, and stops by one of its three conditions. -/
theorem aLiteralEndsWhereTheRuleSays : Obligations.ALiteralEndsWhereTheRuleSays := by
  intro pix n i hi hrun
  have hcap : litLength pix n i ≤ 128 := litLength_le
  have hle := add_litLength_le (pix := pix) hi
  refine ⟨litLength_pos, hcap, hle, fun j hj => ne_of_lt_litLength hrun hj, ?_⟩
  rcases Nat.eq_or_lt_of_le hcap with h | hcap
  · exact .inl h
  · rcases Nat.eq_or_lt_of_le hle with h | hlt
    · exact .inr (.inl h)
    · exact .inr (.inr (eq_at_litLength hcap hlt).2)

/-! ## What the groups spell (R123 (a), (b)) -/

theorem length_spelled (g : Instr) : (spelled g).length = g.pixels := by
  cases g with
  | run len px => exact List.length_replicate
  | lit samples => rfl
  | decStart => rfl
  | encStart => rfl

theorem sum_pixels (gs : List Instr) : (gs.map Instr.pixels).sum = (gs.flatMap spelled).length := by
  simp only [List.length_flatMap, length_spelled]

section

variable {pix : Nat → Pixel} {n i : Nat}

theorem groupAt_eq_run {len : Nat} {px : Pixel} (h : groupAt pix n i = .run len px) :
    2 ≤ len ∧ len = runCount pix n i ∧ px = pix i := by
  by_cases h2 : 2 ≤ runCount pix n i
  · cases (groupAt_of_run h2).symm.trans h
    exact ⟨h2, rfl, rfl⟩
  · cases (groupAt_of_lit h2).symm.trans h

theorem groupAt_eq_lit {samples : List Pixel} (h : groupAt pix n i = .lit samples) :
    runCount pix n i = 1 ∧ samples = (List.range' i (litLength pix n i)).map pix := by
  by_cases h2 : 2 ≤ runCount pix n i
  · cases (groupAt_of_run h2).symm.trans h
  · cases (groupAt_of_lit h2).symm.trans h
    exact ⟨Nat.le_antisymm (Nat.le_of_lt_succ (Nat.lt_of_not_le h2)) runCount_pos, rfl⟩

theorem isGroup_groupAt : (groupAt pix n i).isGroup = true := by
  unfold groupAt
  split <;> rfl

/-- Every group formed has an encoding (R62). -/
theorem wf_groupAt : (groupAt pix n i).wf = true := by
  by_cases h : 2 ≤ runCount pix n i
  · rw [groupAt_of_run h]
    exact (lengthOk_iff _).2 ⟨runCount_pos, runCount_le⟩
  · rw [groupAt_of_lit h]
    refine (lengthOk_iff _).2 ?_
    rw [List.length_map, List.length_range']
    exact ⟨litLength_pos, litLength_le⟩

/-- A group spells the pixels it covers. -/
theorem spelled_groupAt : spelled (groupAt pix n i) = (List.range' i (groupAt pix n i).pixels).map pix := by
  by_cases h : 2 ≤ runCount pix n i
  · rw [groupAt_of_run h]
    refine (List.eq_replicate_iff.2 ⟨by simp [Instr.pixels], fun p hp => ?_⟩).symm
    obtain ⟨k, hk, rfl⟩ := List.mem_map.1 hp
    obtain ⟨hik, hki⟩ := List.mem_range'_1.1 hk
    rw [← Nat.add_sub_cancel' hik]
    exact eq_of_lt_runCount (Nat.sub_lt_left_of_lt_add hik hki)
  · rw [groupAt_pixels_of_lit h, groupAt_of_lit h]
    rfl

/-- The groups from a pixel on spell the pixels from there on. -/
theorem spelled_groupsFrom {fuel : Nat} (hfuel : n ≤ i + fuel) :
    (groupsFrom pix n fuel i).flatMap spelled = (List.range' i (n - i)).map pix := by
  induction fuel generalizing i with
  | zero =>
    rw [Nat.sub_eq_zero_of_le (show n ≤ i from hfuel)]
    rfl
  | succ fuel ih =>
    rcases Nat.lt_or_ge i n with hi | hi
    · have hpos := groupAt_pixels_pos (pix := pix) (n := n) (i := i)
      have hle := add_groupAt_pixels_le (pix := pix) hi
      rw [groupsFrom_of_lt fuel hi, List.flatMap_cons, ih (by omega), spelled_groupAt, ← List.map_append,
        List.range'_append_1]
      congr 2
      omega
    · rw [groupsFrom_of_le _ hi, Nat.sub_eq_zero_of_le hi]
      rfl

/-- If there are any, the first pixel they spell is the one they start at. -/
theorem head_spelled_groupsFrom {fuel : Nat} (h : groupsFrom pix n fuel i ≠ []) :
    i < n ∧ ((groupsFrom pix n fuel i).flatMap spelled).head? = some (pix i) := by
  obtain ⟨g, gs, hgs⟩ := List.exists_cons_of_ne_nil h
  obtain ⟨-, -, hi, hg, -⟩ := groupsFrom_eq_cons hgs
  obtain ⟨k, hk⟩ := Nat.exists_eq_add_one.2 (groupAt_pixels_pos (pix := pix) (n := n) (i := i))
  refine ⟨hi, ?_⟩
  rw [hgs, List.flatMap_cons, hg, spelled_groupAt, hk]
  rfl

end

theorem map_pixelOf (ps : List Pixel) : (List.range' 0 ps.length).map (pixelOf ps) = ps := by
  refine List.ext_getElem (by simp) fun j hj hj' => ?_
  simp [pixelOf, hj']

theorem spelled_encodeGroups (ps : List Pixel) : (encodeGroups ps).flatMap spelled = ps :=
  (spelled_groupsFrom (Nat.le_add_left _ _)).trans (map_pixelOf ps)

theorem sum_pixels_encodeGroups (ps : List Pixel) : ((encodeGroups ps).map Instr.pixels).sum = ps.length := by
  rw [sum_pixels, spelled_encodeGroups]

theorem wf_of_mem_encodeGroups {ps : List Pixel} {g : Instr} (h : g ∈ encodeGroups ps) :
    g.wf = true ∧ g.isGroup = true := by
  obtain ⟨j, -, rfl⟩ := exists_groupAt_of_mem_groupsFrom h
  exact ⟨wf_groupAt, isGroup_groupAt⟩

/-- Each group of an encoding is formed at some pixel, and the groups after it are those from its end on. -/
theorem encodeGroups_split {ps : List Pixel} {before after : List Instr} {g : Instr}
    (h : encodeGroups ps = before ++ g :: after) : ∃ i fuel, g = groupAt (pixelOf ps) ps.length i ∧
      after = groupsFrom (pixelOf ps) ps.length fuel (i + g.pixels) := by
  obtain ⟨_, -, hgs⟩ := groupsFrom_drop h (Nat.le_add_left _ _)
  obtain ⟨fuel, -, -, hg, hafter⟩ := groupsFrom_eq_cons hgs.symm
  exact ⟨_, fuel, hg, hafter⟩

/-- What follows a RUN (R123 (d)). -/
theorem head_after_run {pix : Nat → Pixel} {n i fuel len : Nat} {px : Pixel} (h : groupAt pix n i = .run len px)
    (hcap : len < 128) (hne : groupsFrom pix n fuel (i + len) ≠ []) :
    ((groupsFrom pix n fuel (i + len)).flatMap spelled).head? ≠ some px := by
  obtain ⟨-, rfl, rfl⟩ := groupAt_eq_run h
  obtain ⟨hlt, hhead⟩ := head_spelled_groupsFrom hne
  rw [hhead]
  exact fun heq => ne_at_runCount hcap hlt (Option.some.inj heq)

/-- What follows a LIT (R123 (e), (f)). -/
theorem head_after_lit {pix : Nat → Pixel} {n i fuel : Nat} {samples : List Pixel} (h : groupAt pix n i = .lit samples)
    (hcap : samples.length < 128) (hne : groupsFrom pix n fuel (i + samples.length) ≠ []) :
    samples.length ≠ 1 ∧
      ((groupsFrom pix n fuel (i + samples.length)).flatMap spelled).head? = samples.getLast? := by
  obtain ⟨-, rfl⟩ := groupAt_eq_lit h
  obtain ⟨hlt, hhead⟩ := head_spelled_groupsFrom hne
  rw [hhead]
  simp only [List.length_map, List.length_range'] at hcap hlt ⊢
  obtain ⟨hne1, heq⟩ := eq_at_litLength hcap hlt
  have hpos := litLength_pos (pix := pix) (n := n) (i := i)
  refine ⟨hne1, ?_⟩
  rw [heq, List.getLast?_map, List.getLast?_range', if_neg (by omega)]
  simp

/-- Settles O55: a group of the encoding is formed at a pixel by the run and literal loops, and what follows it starts where
they stop. -/
theorem theReferenceEncodingIsStructured : Obligations.TheReferenceEncodingIsStructured := by
  intro ps
  refine ⟨spelled_encodeGroups ps, sum_pixels_encodeGroups ps, fun before g after h => ?_⟩
  obtain ⟨i, fuel, hg, rfl⟩ := encodeGroups_split h
  refine ⟨hg ▸ isGroup_groupAt, hg ▸ wf_groupAt, ?_, ?_⟩
  · rintro len px rfl
    exact ⟨(groupAt_eq_run hg.symm).1, fun hcap hne => head_after_run hg.symm hcap hne⟩
  · rintro samples rfl
    refine ⟨fun h1 => ?_, fun j p q hp hq => ?_, fun hcap hne => (head_after_lit hg.symm hcap hne).2⟩
    · refine by_contra fun hne => (head_after_lit hg.symm ?_ hne).1 h1
      omega
    · obtain ⟨hrun, rfl⟩ := groupAt_eq_lit hg.symm
      obtain ⟨-, rfl⟩ := List.getElem?_eq_some_iff.1 hp
      obtain ⟨hj, rfl⟩ := List.getElem?_eq_some_iff.1 hq
      rw [List.length_map, List.length_range'] at hj
      simpa [Nat.add_assoc] using (ne_of_lt_litLength hrun hj).symm

/-! ## The size (R124) -/

theorem wf_group_bounds {g : Instr} (hwf : g.wf = true) (hg : g.isGroup = true) :
    4 ≤ (encodeGroup g).length ∧ g.pixels ≤ 128 := by
  cases g with
  | run len px => exact ⟨((Laws.EncodedSize.run len px hwf).1 hg).1, ((lengthOk_iff _).1 hwf).2⟩
  | lit samples => exact ⟨((Laws.EncodedSize.lit samples hwf).1 hg).1, ((lengthOk_iff _).1 hwf).2⟩
  | decStart => cases hg
  | encStart => cases hg

/-- At least 4 bytes for every 128 pixels, over any well-formed groups. -/
theorem le_flatMap_encodeGroup_length {gs : List Instr} (h : ∀ g ∈ gs, g.wf = true ∧ g.isGroup = true) :
    4 * (((gs.map Instr.pixels).sum + 127) / 128) ≤ (gs.flatMap encodeGroup).length := by
  induction gs with
  | nil => exact Nat.le_refl 0
  | cons g gs ih =>
    obtain ⟨hwf, hg⟩ := h g (List.mem_cons_self ..)
    obtain ⟨hbytes, hpixels⟩ := wf_group_bounds hwf hg
    have hgs := ih fun g' hg' => h g' (List.mem_cons_of_mem g hg')
    simp only [List.flatMap_cons, List.length_append, List.map_cons, List.sum_cons]
    omega

theorem encodePixels_length_le (ps : List Pixel) : (encodePixels ps).length ≤ 4 * ps.length := by
  rw [← sum_pixels_encodeGroups ps]
  exact flatMap_encodeGroup_length_le fun g hg => encodeGroup_length_le_of_mem hg

/-- Settles O56: the bounds of each group, added up. -/
theorem theReferenceEncodingIsBoundedInSize : Obligations.TheReferenceEncodingIsBoundedInSize := by
  intro ps
  refine ⟨?_, encodePixels_length_le ps⟩
  rw [← sum_pixels_encodeGroups ps]
  exact le_flatMap_encodeGroup_length fun g hg => wf_of_mem_encodeGroups hg

/-- Settles O35: the invariant says that the output is the encoding of the pixels consumed, and START found room for 4 bytes
a pixel. -/
theorem theEncoderNeverOverflowsItsOutput : Obligations.TheEncoderNeverOverflowsItsOutput := by
  intro s hi
  have hbound : s.enc.inFlight = true → s.enc.olen.toNat ≤ 4 * s.enc.i.toNat := fun hf => by
    have hlen := encodePixels_length_le (s.pixPixels s.enc.i.toNat)
    rwa [← hi.enc.written hf, State.outBytes_length, State.pixPixels_length] at hlen
  refine ⟨hbound, fun hb => ?_⟩
  have hfits := (hi.enc.duties hb).1
  simp only [Enc.fits, Bool.and_eq_true, decide_eq_true_eq, Nat.le_min] at hfits
  obtain ⟨-, hcap, -⟩ := hfits
  calc s.enc.olen.toNat ≤ 4 * s.enc.i.toNat := hbound (hi.enc.started hb)
    _ ≤ 4 * s.enc.n.toNat := Nat.mul_le_mul_left 4 (hi.enc.i_le hb)
    _ ≤ s.caps.outCap := hcap

end Sys2Proof.Machine
end

section
/-! Proof of the round-trip law (R125): the decode loop takes the groups of an encoding one after another. -/

namespace Sys2Proof.Machine

/-! ## Reading what stands after some bytes -/

theorem byteAt_append (pre bs : List Byte) (k : Nat) : byteAt (pre ++ bs) (pre.length + k) = byteAt bs k := by
  simp only [byteAt, List.getD_eq_getElem?_getD, List.getElem?_append_right (Nat.le_add_right _ _),
    Nat.add_sub_cancel_left]

theorem blockSample_append (pre bs : List Byte) (k : Nat) :
    blockSample (pre ++ bs) (pre.length + k) = blockSample bs k := by
  simp only [blockSample, Nat.add_assoc, byteAt_append]

theorem blockSamples_append (pre bs : List Byte) (a k : Nat) :
    blockSamples (pre ++ bs) (pre.length + a) k = blockSamples bs a k := by
  simp only [blockSamples, Nat.add_assoc, blockSample_append]

theorem blockSamples_succ (bs : List Byte) (a k : Nat) :
    blockSamples bs a (k + 1) = blockSample bs a :: blockSamples bs (a + 3) k := by
  simp only [blockSamples, ← List.range_eq_range', List.range_succ_eq_map, List.map_cons, List.map_map]
  exact congrArg (_ :: ·) (List.map_congr_left fun j _ => congrArg (blockSample bs) (by omega))

/-- Samples written out are the samples read there (R42, R65). -/
theorem blockSamples_flatMap (ps : List Pixel) (rest : List Byte) :
    blockSamples (ps.flatMap sampleBytes ++ rest) 0 ps.length = ps := by
  induction ps with
  | nil => rfl
  | cons p ps ih =>
    have h := blockSamples_append (sampleBytes p) (ps.flatMap sampleBytes ++ rest) 0 ps.length
    rw [ih] at h
    rw [List.length_cons, blockSamples_succ, List.flatMap_cons, List.append_assoc]
    exact congrArg (p :: ·) h

/-! ## The loop over groups (R81) -/

section

variable {pre bs rest : List Byte} {total : Nat} {out : List Pixel} {r : DecodeResult}

/-- A group with room for its pixels gives all of them. -/
theorem groupShare_of_le {block : List Byte} {done pos : Nat} (h : done + groupLen (byteAt block pos) ≤ total) :
    groupShare block total done pos = groupLen (byteAt block pos) :=
  Nat.min_eq_left (Nat.le_sub_of_add_le' h)

/-- A RUN under the cursor, with room for its pixels, is one round of the loop (R82). -/
theorem Decodes.of_run {len : Nat} {px : Pixel} (hwf : lengthOk len = true) (hle : out.length + len ≤ total)
    (hbs : bs = encodeGroup (.run len px) ++ rest)
    (h : Decodes (pre ++ bs) total (out ++ List.replicate len px) (pre.length + 4) r) :
    Decodes (pre ++ bs) total out pre.length r := by
  have hpos := ((lengthOk_iff len).1 hwf).1
  have hctrl : byteAt (pre ++ bs) pre.length = 0x80#8 ||| BitVec.ofNat 8 (len - 1) := by
    rw [hbs]
    exact byteAt_append pre _ 0
  have hsample : blockSample (pre ++ bs) (pre.length + 1) = px := by
    rw [hbs]
    exact blockSample_append pre _ 1
  have hlen : groupLen (byteAt (pre ++ bs) pre.length) = len := hctrl ▸ groupLen_runByte hwf
  have hbytes : (pre ++ bs).length = pre.length + (4 + rest.length) := by
    rw [hbs, List.length_append, List.length_append, encodeGroup_run_length]
  refine .run (by omega) (by omega) (hctrl ▸ runFlag_runByte hwf) (by omega) ?_
  rwa [groupShare_of_le (hlen.symm ▸ hle), hlen, hsample]

/-- So is a LIT (R83). -/
theorem Decodes.of_lit {samples : List Pixel} (hwf : lengthOk samples.length = true)
    (hle : out.length + samples.length ≤ total) (hbs : bs = encodeGroup (.lit samples) ++ rest)
    (h : Decodes (pre ++ bs) total (out ++ samples) (pre.length + 1 + 3 * samples.length) r) :
    Decodes (pre ++ bs) total out pre.length r := by
  have hpos := ((lengthOk_iff samples.length).1 hwf).1
  have hctrl : byteAt (pre ++ bs) pre.length = BitVec.ofNat 8 (samples.length - 1) := by
    rw [hbs]
    exact byteAt_append pre _ 0
  have hsamples : blockSamples (pre ++ bs) (pre.length + 1) samples.length = samples := by
    rw [hbs, blockSamples_append]
    exact (blockSamples_append [_] _ 0 _).trans (blockSamples_flatMap samples rest)
  have hlen : groupLen (byteAt (pre ++ bs) pre.length) = samples.length := hctrl ▸ groupLen_litByte hwf
  have hbytes : (pre ++ bs).length = pre.length + (1 + 3 * samples.length + rest.length) := by
    rw [hbs, List.length_append, List.length_append, encodeGroup_lit_length]
  refine .lit (by omega) (by omega) (hctrl ▸ runFlag_litByte hwf) (by omega) ?_
  rwa [groupShare_of_le (hlen.symm ▸ hle), hlen, hsamples]

/-- Any group of the stream is. -/
theorem Decodes.of_group {g : Instr} (hwf : g.wf = true) (hg : g.isGroup = true) (hle : out.length + g.pixels ≤ total)
    (hbs : bs = encodeGroup g ++ rest)
    (h : Decodes (pre ++ bs) total (out ++ spelled g) (pre ++ encodeGroup g).length r) :
    Decodes (pre ++ bs) total out pre.length r := by
  rw [List.length_append] at h
  cases g with
  | run len px => exact .of_run hwf hle hbs h
  | lit samples =>
    rw [encodeGroup_lit_length, ← Nat.add_assoc] at h
    exact .of_lit hwf hle hbs h
  | decStart => cases hg
  | encStart => cases hg

end

/-- Groups that complete the pixel count decode to what they spell, and the loop stops with COUNT after the last (R125). -/
theorem decodes_flatMap_encodeGroup {gs : List Instr} (h : ∀ g ∈ gs, g.wf = true ∧ g.isGroup = true) {total : Nat}
    {out : List Pixel} (pre rest : List Byte) (hn : out.length + (gs.map Instr.pixels).sum = total) :
    Decodes (pre ++ (gs.flatMap encodeGroup ++ rest)) total out pre.length
      ⟨out ++ gs.flatMap spelled, (pre ++ gs.flatMap encodeGroup).length, .count⟩ := by
  induction gs generalizing pre out with
  | nil =>
    simp only [List.flatMap_nil, List.append_nil]
    exact .count hn
  | cons g gs ih =>
    obtain ⟨hwf, hg⟩ := h g (List.mem_cons_self ..)
    rw [List.map_cons, List.sum_cons] at hn
    have hgs := ih (fun g' hg' => h g' (List.mem_cons_of_mem g hg')) (out := out ++ spelled g) (pre ++ encodeGroup g)
      (by rw [List.length_append, length_spelled]; omega)
    simp only [List.append_assoc, List.flatMap_cons] at hgs ⊢
    exact .of_group hwf hg (by omega) rfl hgs

/-- Settles O57, by induction on the groups of the encoding. -/
theorem decodingTheReferenceEncodingGivesThePixelsBack : Obligations.DecodingTheReferenceEncodingGivesThePixelsBack := by
  intro ps more
  have h : Decodes (encodePixels ps ++ more) ps.length [] 0 ⟨ps, (encodePixels ps).length, .count⟩ := by
    have h := decodes_flatMap_encodeGroup (gs := encodeGroups ps) (fun _ hg => wf_of_mem_encodeGroups hg) (out := [])
      [] more ((Nat.zero_add _).trans (sum_pixels_encodeGroups ps))
    rwa [spelled_encodeGroups] at h
  rw [h.decodeBlock_eq, DecodeResult.fill, Nat.sub_self, List.replicate_zero, List.append_nil]
  congr 1
  split
  · subst ps
    rfl
  · rfl

end Sys2Proof.Machine
end

section
/-! Proofs of the statements about unit ENC at work (R121, R122): one GROUP step, and a whole encode, which computes the
reference encoding. -/

namespace Sys2Proof.Safety

open Sys2Proof.Machine

theorem OnlyEncWorks.trans {s t u : State} (h : OnlyEncWorks s t) (h' : OnlyEncWorks t u) : OnlyEncWorks s u where
  dec := h'.dec.trans h.dec
  caps := h'.caps.trans h.caps
  agenda := h'.agenda.trans h.agenda
  reply := h'.reply.trans h.reply
  draws := h'.draws.trans h.draws
  epoch := h'.epoch.trans h.epoch
  n := h'.n.trans h.n
  pix := h'.pix.trans h.pix
  inFlight := h'.inFlight.trans h.inFlight
  nAtStart := h'.nAtStart.trans h.nAtStart
  iSeen := h'.iSeen.trans h.iSeen
  olenSeen := h'.olenSeen.trans h.olenSeen

end Sys2Proof.Safety

namespace Sys2Proof.Machine

open Sys2Proof.Safety

/-! ## One step (R121) -/

section

variable {s : State} {e : Enc} (h : EncMove s e)
include h

/-- A move is the step the unit takes. -/
theorem EncMove.encTurn : encTurn s = .next (s.setEnc e) := by
  rw [encTurn_eq]
  cases h with
  | still hb => rcases (Enc.not_busy_iff _).1 hb with hp | hp <;> simp [State.encNext, hp]
  | finish hp hi => simp [State.encNext, hp, hi]
  | emit hp hi => simp [State.encNext, hp, hi]

/-- Only the cursors, the phase and OUT change. -/
theorem EncMove.onlyEncWorks : OnlyEncWorks s (s.setEnc e) := by
  cases h with
  | still | finish | emit => constructor <;> rfl

end

section

variable (s : State) (g : Instr)

/-- The bytes of a group emitted stand at `OUT[ENC_OLEN..)`. -/
theorem outAt_emitGroup :
    outAt (s.setEnc (s.enc.emitGroup g)) s.enc.olen.toNat (encodeGroup g).length = encodeGroup g :=
  Memory.map_read_writeList _ _ _ _

/-- Every other byte of OUT reads as before. -/
theorem outByte_emitGroup {b : Nat} (hb : b < s.enc.olen.toNat ∨ s.enc.olen.toNat + (encodeGroup g).length ≤ b) :
    (s.setEnc (s.enc.emitGroup g)).outByte b = s.outByte b := by
  rw [outByte_writeList s (s.setEnc (s.enc.emitGroup g)) _ _ rfl rfl, dif_neg (by omega)]

end

/-- A literal formed, its size and its bytes (R115). -/
theorem groupAt_lit_encoding {pix : Nat → Pixel} {n i : Nat} (h : ¬ 2 ≤ runCount pix n i) :
    (groupAt pix n i).pixels = litLength pix n i ∧
    (encodeGroup (groupAt pix n i)).length = 1 + 3 * litLength pix n i ∧
    encodeGroup (groupAt pix n i) = BitVec.ofNat 8 (litLength pix n i - 1) ::
      (List.range' i (litLength pix n i)).flatMap fun k => sampleBytes (pix k) := by
  refine ⟨groupAt_pixels_of_lit h, ?_, ?_⟩
  · rw [groupAt_of_lit h, encodeGroup_lit_length, List.length_map, List.length_range']
  · rw [groupAt_of_lit h, encodeGroup, List.length_map, List.length_range', List.flatMap_map]

/-- Settles O32: the move is the end or one group emitted, a RUN or a LIT by the run count. -/
theorem theGroupStepEmitsOneGroupOrFinishes : Obligations.TheGroupStepEmitsOneGroupOrFinishes := by
  intro s hp
  refine ⟨fun hi => (EncMove.finish hp hi).encTurn, ?_⟩
  rintro hi c l a rfl rfl rfl
  have hm := EncMove.emit hp hi
  have hout := outAt_emitGroup s s.nextGroup
  have hframe := fun b => outByte_emitGroup s s.nextGroup (b := b)
  refine ⟨_, hm.encTurn, hm.onlyEncWorks, hp, fun hc => ?_, fun hc => ?_⟩
  · have hg : s.nextGroup = _ := groupAt_of_run hc
    rw [hg] at hout hframe ⊢
    exact ⟨rfl, rfl, hout, hframe⟩
  · obtain ⟨hpixels, hlen, hbytes⟩ := groupAt_lit_encoding (Nat.not_le.2 hc)
    rw [State.nextGroup, hlen] at hout hframe
    refine ⟨?_, ?_, hout.trans hbytes, hframe⟩
    · rw [State.setEnc_enc, Enc.emitGroup_i, State.nextGroup, hpixels]
    · rw [State.setEnc_enc, Enc.emitGroup_olen, State.nextGroup, hlen]

/-! ## Several steps -/

/-- `k` steps of the block from `s`, all of them ENC's and in GROUP, lead to `t`; OUT is written from `ENC_OLEN` on, and
not at or past where it ends. -/
structure EncRun (k : Nat) (s t : State) : Prop where
  steps : runs k s = .next t
  group : ∀ j u, j < k → runs j s = .next u → u.enc.phase = .group
  frame : OnlyEncWorks s t
  olen_le : s.enc.olen.toNat ≤ t.enc.olen.toNat
  outByte : ∀ a, t.enc.olen.toNat ≤ a → t.outByte a = s.outByte a

theorem EncRun.trans {j k : Nat} {s t u : State} (h : EncRun j s t) (h' : EncRun k t u) : EncRun (j + k) s u where
  steps := (run_add h.steps k).trans h'.steps
  group := fun l v hl hv => by
    rcases Nat.lt_or_ge l j with hlj | hjl
    · exact h.group l v hlj hv
    · obtain ⟨m, rfl⟩ := Nat.exists_eq_add_of_le hjl
      exact h'.group m v (by omega) ((run_add h.steps m).symm.trans hv)
  frame := h.frame.trans h'.frame
  olen_le := h.olen_le.trans h'.olen_le
  outByte := fun a ha => (h'.outByte a ha).trans (h.outByte a (h'.olen_le.trans ha))

/-- With no host access pending and DEC not BUSY, the move of ENC in GROUP is the next step of the block. -/
theorem EncMove.encRun {s : State} {e : Enc} (h : EncMove s e) (ha : s.agenda = []) (hd : s.dec.busy = false)
    (hp : s.enc.phase = .group) (holen : s.enc.olen.toNat ≤ e.olen.toNat)
    (hout : ∀ a, e.olen.toNat ≤ a → (s.setEnc e).outByte a = s.outByte a) : EncRun 1 s (s.setEnc e) where
  steps := by
    have hb : s.enc.busy = true := (Enc.busy_iff _).2 hp
    have hstep : step s = .next (s.setEnc e) := by
      rw [← h.encTurn]
      simp only [step, nextTurn, ha, idleTurn, hd, hb, Bool.false_eq_true, if_false, if_true]
    exact run_succ (M := core) hstep 0
  group := fun j u hj hu => by
    obtain rfl := Nat.lt_one_iff.1 hj
    cases hu
    exact hp
  frame := h.onlyEncWorks
  olen_le := holen
  outByte := hout

/-! ## A whole encode (R122) -/

/-- ENC is at work by itself, with the groups `gs` still to emit. -/
structure Encoding (gs : List Instr) (s : State) : Prop where
  agenda : s.agenda = []
  dec_idle : s.dec.busy = false
  phase : s.enc.phase = .group
  inv : EncInv s
  groups : ∃ done, encodeGroups (s.pixPixels s.enc.n.toNat) = done ++ gs ∧
    (done.map Instr.pixels).sum = s.enc.i.toNat

section

variable {s : State} {gs : List Instr}

theorem Encoding.busy (h : Encoding gs s) : s.enc.busy = true := (Enc.busy_iff _).2 h.phase

/-- The pixels still to consume are those of the groups still to emit. -/
theorem Encoding.i_add (h : Encoding gs s) : s.enc.i.toNat + (gs.map Instr.pixels).sum = s.enc.n.toNat := by
  obtain ⟨done, hgs, hi⟩ := h.groups
  rw [← hi, ← List.sum_append, ← List.map_append, ← hgs, sum_pixels_encodeGroups, State.pixPixels_length]

/-- A step with a group left emits it (R113, R115). -/
theorem Encoding.emit {g : Instr} (h : Encoding (g :: gs) s) :
    EncRun 1 s (s.setEnc (s.enc.emitGroup g)) ∧ Encoding gs (s.setEnc (s.enc.emitGroup g)) := by
  obtain ⟨done, hgs, hi⟩ := h.groups
  have hmem : g ∈ encodeGroups (s.pixPixels s.enc.n.toNat) := hgs ▸ List.mem_append_right _ (List.mem_cons_self ..)
  have hpos : 1 ≤ g.pixels := by
    obtain ⟨j, -, rfl⟩ := exists_groupAt_of_mem_groupsFrom hmem
    exact groupAt_pixels_pos
  have hlt : s.enc.i.toNat < s.enc.n.toNat := by
    have hadd := h.i_add
    rw [List.map_cons, List.sum_cons] at hadd
    omega
  have hne : s.enc.i ≠ s.enc.n := fun he => Nat.ne_of_lt hlt (congrArg BitVec.toNat he)
  obtain rfl : g = s.nextGroup := by
    obtain ⟨rest, hrest⟩ := encodeGroups_pixPixels_next hgs hi hlt
    exact (List.cons.inj hrest).1
  obtain ⟨hi', -, holen, -⟩ := nextGroupFits h.inv h.busy hne
  refine ⟨(EncMove.emit h.phase hne).encRun h.agenda h.dec_idle h.phase ?_ ?_, h.agenda, h.dec_idle, h.phase,
    encInv_emitGroup h.inv h.busy hne, done ++ [s.nextGroup], ?_, ?_⟩
  · rw [Enc.emitGroup_olen, holen]
    exact Nat.le_add_right _ _
  · intro a ha
    rw [Enc.emitGroup_olen, holen] at ha
    exact outByte_emitGroup s s.nextGroup (.inr ha)
  · rw [List.append_assoc]
    exact hgs
  · rw [State.setEnc_enc, Enc.emitGroup_i, hi', List.map_append, List.sum_append, hi]
    rfl

/-- One step for each group left, then the one that ends the encode. -/
theorem Encoding.finish (h : Encoding gs s) :
    ∃ t, EncRun (gs.length + 1) s t ∧ t.enc.phase = .done ∧ t.enc.i = t.enc.n ∧ EncInv t := by
  induction gs generalizing s with
  | nil =>
    have hm : EncMove s { s.enc with phase := .done } := .finish h.phase (BitVec.eq_of_toNat_eq h.i_add)
    exact ⟨_, hm.encRun h.agenda h.dec_idle h.phase (Nat.le_refl _) (fun _ _ => rfl), rfl,
      BitVec.eq_of_toNat_eq h.i_add, hm.encInv h.inv⟩
  | cons g gs ih =>
    obtain ⟨hrun, hrest⟩ := h.emit
    obtain ⟨t, hrun', hend⟩ := ih hrest
    exact ⟨t, Nat.add_comm 1 (gs.length + 1) ▸ hrun.trans hrun', hend⟩

end

/-- Settles O59: a START has all groups to emit, and at the end the invariant says what was written. -/
theorem anEncodeComputesTheReferenceEncoding : Obligations.AnEncodeComputesTheReferenceEncoding := by
  intro s u ha hd he hu
  obtain ⟨hb, -⟩ | ⟨-, hr, hf, rfl⟩ := execEncStart_next hu
  · exact absurd (he.symm.trans hb) nofun
  have hstart : Encoding (encodeGroups (s.pixPixels s.enc.n.toNat)) (s.setEnc s.enc.start) :=
    ⟨ha, hd, rfl, encInv_start hr hf, [], rfl, rfl⟩
  obtain ⟨t, hrun, hdone, hi, hinv⟩ := hstart.finish
  have hn : t.enc.n = s.enc.n := hrun.frame.n
  have hpix : t.pixPixel = s.pixPixel := pixPixel_of_pix s t hrun.frame.pix hrun.frame.epoch
  refine ⟨fun j v hj hv => hrun.group j v hj hv, t, hrun.steps, hdone, (Enc.not_busy_iff _).2 (.inr hdone),
    (Enc.isDone_iff _).2 hdone, hi.trans hn, ?_, hrun.outByte, hrun.frame⟩
  rw [hinv.written hrun.frame.inFlight, hi, hn, State.pixPixels, hpix]
  rfl

end Sys2Proof.Machine
end

section
/-! Proofs of the statements about the host's commands and register accesses (R130 to R132): what START and each register
access leave, that a running operation keeps its inputs, and what a progress register shows while its unit is BUSY. -/

namespace Sys2Proof.Machine

open Sys2Proof.Safety

/-! ## Values noted as a register advances (R132, U8; log 7) -/

/-- A register goes from `old` to `new`: the value left is noted where it changed, and nothing where it did not. -/
def Noted (old new : Word64) (held held' : List Word64) : Prop :=
  (new = old → held' = held) ∧ (new ≠ old → held' = old :: held)

theorem Noted.refl (v : Word64) (held : List Word64) : Noted v v held held := ⟨fun _ => rfl, fun h => absurd rfl h⟩

/-- A register that advances by a number other than 0 changes, though it wrap. -/
theorem Noted.add (v : Word64) {n : Word64} (hn : n ≠ 0) (held : List Word64) : Noted v (v + n) held (v :: held) :=
  ⟨fun h => absurd (add_eq_left.1 h) hn, fun _ => rfl⟩

/-- Both progress registers of DEC note what they leave. -/
def Dec.Notes (d d' : Dec) : Prop :=
  Noted d.pos d'.pos d.posHeld d'.posHeld ∧ Noted d.cnt d'.cnt d.cntHeld d'.cntHeld

/-- Both progress registers of ENC note what they leave. -/
def Enc.Notes (e e' : Enc) : Prop := Noted e.i e'.i e.iHeld e'.iHeld ∧ Noted e.olen e'.olen e.olenHeld e'.olenHeld

theorem Dec.Notes.refl (d : Dec) : d.Notes d := ⟨.refl _ _, .refl _ _⟩

theorem Enc.Notes.refl (e : Enc) : e.Notes e := ⟨.refl _ _, .refl _ _⟩

/-- Every step of DEC notes what its cursors leave, in every state. -/
theorem DecMove.notes {s : State} {d : Dec} (h : DecMove s d) : s.dec.Notes d := by
  cases h with
  | still | count | eob => exact ⟨.refl _ _, .refl _ _⟩
  | shortRun | shortLit | takeLit | takeRun => exact ⟨.add _ (by decide) _, .refl _ _⟩
  | runPixel =>
    obtain ⟨c, p, h⟩ := s.dec.afterGroupPixel_frame (s.dec.emit s.dec.smp)
    rw [runStep, h]
    exact ⟨.refl _ _, .add _ (by decide) _⟩
  | litPixel =>
    obtain ⟨c, p, h⟩ := s.dec.afterGroupPixel_frame ((s.dec.emit (s.sampleAt s.dec.pos.toNat)).advance 3)
    rw [litStep, h]
    exact ⟨.add _ (by decide) _, .add _ (by decide) _⟩
  | padPixel =>
    obtain ⟨p, h⟩ := padStep_frame s.dec
    rw [h]
    exact ⟨.refl _ _, .add _ (by decide) _⟩

/-- A group that is formed advances both cursors of ENC: it has a pixel and a byte at least, and 128 pixels at most. -/
theorem nextGroup_advances (s : State) :
    BitVec.ofNat 64 s.nextGroup.pixels ≠ 0 ∧ BitVec.ofNat 64 (encodeGroup s.nextGroup).length ≠ 0 := by
  obtain ⟨hbytes, hpixels⟩ := wf_group_bounds (g := s.nextGroup) wf_groupAt isGroup_groupAt
  have hpos : 1 ≤ s.nextGroup.pixels := groupAt_pixels_pos
  have hsize : (encodeGroup s.nextGroup).length ≤ 4 * s.nextGroup.pixels := encodeGroup_groupAt_length_le
  constructor <;> bv_omega

/-- Every step of ENC notes what its cursors leave, in every state. -/
theorem EncMove.notes {s : State} {e : Enc} (h : EncMove s e) : s.enc.Notes e := by
  cases h with
  | still | finish => exact ⟨.refl _ _, .refl _ _⟩
  | emit =>
    obtain ⟨hpixels, hbytes⟩ := nextGroup_advances s
    exact ⟨.add _ hpixels _, .add _ hbytes _⟩

/-- An access of the host that leaves a BUSY unit BUSY leaves its cursors. -/
theorem HostDec.notes {s : State} {op : HostOp} {d : Dec} (h : HostDec s op d) (hb : s.dec.busy = true)
    (hd : d.busy = true) : s.dec.Notes d := by
  cases h with
  | start v hv hn => exact absurd (hn.symm.trans hb) nofun
  | reset => cases hd
  | same | configure | observe | showPos | showCnt | writeSrc | writeDst => exact .refl _

theorem HostEnc.notes {s : State} {op : HostOp} {e : Enc} (h : HostEnc s op e) (hb : s.enc.busy = true)
    (he : e.busy = true) : s.enc.Notes e := by
  cases h with
  | start v hv hn => exact absurd (hn.symm.trans hb) nofun
  | reset => cases he
  | same | configure | observe | showI | showOlen | writePix | writeOut => exact .refl _

/-- The one access of the host that makes a unit BUSY is its START. -/
theorem HostDec.eq_start {s : State} {op : HostOp} {d : Dec} (h : HostDec s op d) (hn : s.dec.busy = false)
    (hd : d.busy = true) : d = s.dec.start := by
  cases h with
  | start => rfl
  | reset => cases hd
  | same | configure | observe | showPos | showCnt | writeSrc | writeDst => exact absurd (hn.symm.trans hd) nofun

theorem HostEnc.eq_start {s : State} {op : HostOp} {e : Enc} (h : HostEnc s op e) (hn : s.enc.busy = false)
    (he : e.busy = true) : e = s.enc.start := by
  cases h with
  | start => rfl
  | reset => cases he
  | same | configure | observe | showI | showOlen | writePix | writeOut => exact absurd (hn.symm.trans he) nofun

theorem EncMove.busy {s : State} {e : Enc} (h : EncMove s e) (hb : e.busy = true) : s.enc.busy = true := by
  cases h with
  | still => exact hb
  | finish => cases hb
  | emit hp => exact (Enc.busy_iff _).2 hp

section

variable {s t : State} (hstep : step s = .next t)
include hstep

/-- After a step of the block DEC is BUSY by its START, or was BUSY and has noted what its cursors left. -/
theorem step_dec_busy (hb : t.dec.busy = true) :
    (s.dec.busy = false ∧ t.dec = s.dec.start) ∨ (s.dec.busy = true ∧ s.dec.Notes t.dec) := by
  rcases step_next hstep with ⟨-, d, rfl, hm⟩ | ⟨e, rfl, -⟩ | ⟨op, -, ha⟩
  · exact .inr ⟨hm.busy hb, hm.notes⟩
  · exact .inr ⟨hb, .refl _⟩
  · cases hs : s.dec.busy with
    | false => exact .inl ⟨rfl, ha.hostDec.eq_start hs hb⟩
    | true => exact .inr ⟨rfl, ha.hostDec.notes hs hb⟩

/-- The same for ENC. -/
theorem step_enc_busy (hb : t.enc.busy = true) :
    (s.enc.busy = false ∧ t.enc = s.enc.start) ∨ (s.enc.busy = true ∧ s.enc.Notes t.enc) := by
  rcases step_next hstep with ⟨-, d, rfl, -⟩ | ⟨e, rfl, hm⟩ | ⟨op, -, ha⟩
  · exact .inr ⟨hb, .refl _⟩
  · exact .inr ⟨hm.busy hb, hm.notes⟩
  · cases hs : s.enc.busy with
    | false => exact .inl ⟨rfl, ha.hostEnc.eq_start hs hb⟩
    | true => exact .inr ⟨rfl, ha.hostEnc.notes hs hb⟩

end

/-- Settles O60: a unit BUSY after a step has been started by it, or was BUSY and has noted what its cursors left. -/
theorem theHeldValuesAreThoseHeldSinceStart : Obligations.TheHeldValuesAreThoseHeldSinceStart := by
  intro s t hstep
  refine ⟨fun hb => ?_, fun hb => ?_⟩
  · rcases step_dec_busy hstep hb with ⟨hs, ht⟩ | ⟨hs, ⟨hpos, hpos'⟩, hcnt, hcnt'⟩
    · exact ⟨fun _ => ht ▸ ⟨rfl, rfl, rfl, rfl⟩, fun h => absurd (hs.symm.trans h) nofun⟩
    · exact ⟨fun h => absurd (h.symm.trans hs) nofun, fun _ => ⟨hpos, hpos', hcnt, hcnt'⟩⟩
  · rcases step_enc_busy hstep hb with ⟨hs, ht⟩ | ⟨hs, ⟨hi, hi'⟩, holen, holen'⟩
    · exact ⟨fun _ => ht ▸ ⟨rfl, rfl, rfl, rfl⟩, fun h => absurd (hs.symm.trans h) nofun⟩
    · exact ⟨fun h => absurd (h.symm.trans hs) nofun, fun _ => ⟨hi, hi', holen, holen'⟩⟩

/-! ## The inputs of an operation (R132, R164 item 1) -/

/-- From `d` to `d'` the inputs of a BUSY unit stay, and so does the input in SRC of an operation in flight (log 22). -/
structure Dec.KeepsInputs (d d' : Dec) : Prop where
  busy : d.busy = true → d'.w = d.w ∧ d'.h = d.h ∧ d'.len = d.len ∧ d'.src = d.src
  inFlight : d.inFlight = true → ∀ a, a < d.lenAtStart.toNat → d'.src.read a = d.src.read a

/-- The same for ENC and its input in PIX. -/
structure Enc.KeepsInputs (e e' : Enc) : Prop where
  busy : e.busy = true → e'.n = e.n ∧ e'.pix = e.pix
  inFlight : e.inFlight = true → ∀ k, k < e.nAtStart.toNat → e'.pix.read k = e.pix.read k

theorem Dec.KeepsInputs.of_eq {d d' : Dec} (hw : d'.w = d.w) (hh : d'.h = d.h) (hl : d'.len = d.len)
    (hs : d'.src = d.src) : d.KeepsInputs d' :=
  ⟨fun _ => ⟨hw, hh, hl, hs⟩, fun _ _ _ => by rw [hs]⟩

theorem Enc.KeepsInputs.of_eq {e e' : Enc} (hn : e'.n = e.n) (hp : e'.pix = e.pix) : e.KeepsInputs e' :=
  ⟨fun _ => ⟨hn, hp⟩, fun _ _ _ => by rw [hp]⟩

theorem DecMove.keepsInputs {s : State} {d : Dec} (h : DecMove s d) : s.dec.KeepsInputs d :=
  have hf := h.onlyDecWorks
  .of_eq hf.w hf.h hf.len hf.src

theorem EncMove.keepsInputs {s : State} {e : Enc} (h : EncMove s e) : s.enc.KeepsInputs e :=
  .of_eq h.onlyEncWorks.n h.onlyEncWorks.pix

/-- A configuration write is ignored while BUSY, and a write of SRC is refused where it would touch the input. -/
theorem HostDec.keepsInputs {s : State} {op : HostOp} {d : Dec} (h : HostDec s op d) (hop : op ≠ .reset) :
    s.dec.KeepsInputs d := by
  cases h with
  | same | start | observe | showPos | showCnt | writeDst => exact .of_eq rfl rfl rfl rfl
  | configure r v w hh len hn => exact ⟨fun hb => absurd (hn.symm.trans hb) nofun, fun _ _ _ => rfl⟩
  | writeSrc b v hb hh =>
    refine ⟨fun hb => ?_, fun hf a ha => Memory.read_write_other _ v ?_⟩
    · simp [Dec.inputHeld, hb] at hh
    · rintro rfl
      simp [Dec.inputHeld, hf, ha] at hh
  | reset => exact absurd rfl hop

theorem HostEnc.keepsInputs {s : State} {op : HostOp} {e : Enc} (h : HostEnc s op e) (hop : op ≠ .reset) :
    s.enc.KeepsInputs e := by
  cases h with
  | same | start | observe | showI | showOlen | writeOut => exact .of_eq rfl rfl
  | configure v n hn => exact ⟨fun hb => absurd (hn.symm.trans hb) nofun, fun _ _ _ => rfl⟩
  | writePix j v hj hh =>
    refine ⟨fun hb => ?_, fun hf k hk => Memory.read_write_other _ v ?_⟩
    · simp [Enc.inputHeld, hb] at hh
    · rintro rfl
      simp [Enc.inputHeld, hf, hk] at hh
  | reset => exact absurd rfl hop

section

variable {s t : State} (hstep : step s = .next t)
include hstep

theorem step_caps : t.caps = s.caps := by
  rcases step_next hstep with ⟨-, d, rfl, -⟩ | ⟨e, rfl, -⟩ | ⟨op, -, ha⟩
  · rfl
  · rfl
  · exact ha.frame.1

/-- Every step of the block but reset keeps the unspecified contents and the inputs of both units. -/
theorem step_keepsInputs (hr : s.agenda.head? ≠ some (.host .reset)) :
    t.epoch = s.epoch ∧ s.dec.KeepsInputs t.dec ∧ s.enc.KeepsInputs t.enc := by
  rcases step_next hstep with ⟨-, d, rfl, hm⟩ | ⟨e, rfl, hm⟩ | ⟨op, hhead, ha⟩
  · exact ⟨rfl, hm.keepsInputs, .of_eq rfl rfl⟩
  · exact ⟨rfl, .of_eq rfl rfl rfl rfl, hm.keepsInputs⟩
  · have hop : op ≠ .reset := fun h => hr (h ▸ hhead)
    obtain ⟨-, -, hepoch⟩ := ha.frame
    exact ⟨hepoch hop, ha.hostDec.keepsInputs hop, ha.hostEnc.keepsInputs hop⟩

end

theorem srcByte_of_read {s t : State} {a : Nat} (h : t.dec.src.read a = s.dec.src.read a) (he : t.epoch = s.epoch) :
    t.srcByte a = s.srcByte a := by
  rw [State.srcByte, h, he, State.srcByte]

theorem pixPixel_of_read {s t : State} {k : Nat} (h : t.enc.pix.read k = s.enc.pix.read k) (he : t.epoch = s.epoch) :
    t.pixPixel k = s.pixPixel k := by
  rw [State.pixPixel, h, he, State.pixPixel]

/-- Settles O39: no turn but a reset changes an input, whatever the state. -/
theorem aRunningOperationKeepsItsInputs : Obligations.ARunningOperationKeepsItsInputs := by
  intro s t hstep
  refine ⟨step_caps hstep, fun _ hr => ?_, fun hr => ?_⟩
  · obtain ⟨hepoch, hdec, henc⟩ := step_keepsInputs hstep hr
    refine ⟨fun hb => ?_, fun hb => ?_⟩
    · obtain ⟨hw, hh, hlen, hsrc⟩ := hdec.busy hb
      exact ⟨hw, hh, hlen, hsrc, hepoch⟩
    · obtain ⟨hn, hpix⟩ := henc.busy hb
      exact ⟨hn, hpix, hepoch⟩
  · obtain ⟨hepoch, hdec, henc⟩ := step_keepsInputs hstep hr
    exact ⟨fun hf a ha => srcByte_of_read (hdec.inFlight hf a ha) hepoch,
      fun hf k hk => pixPixel_of_read (henc.inFlight hf k hk) hepoch⟩

/-! ## Progress registers read while BUSY (R132, U8) -/

section

variable {s : State}

theorem hostTurn_readDec_pos_of_busy (hb : s.dec.busy = true) :
    hostTurn (.readDec .pos) s = .next
      { s with
        dec := { s.dec with posSeen := progressValue s.draws s.dec.posHeld s.dec.posSeen s.dec.pos }
        draws := s.draws + 1
        reply := .word (progressValue s.draws s.dec.posHeld s.dec.posSeen s.dec.pos) } :=
  congrArg Host.Outcome.next (if_pos hb)

theorem hostTurn_readDec_cnt_of_busy (hb : s.dec.busy = true) :
    hostTurn (.readDec .cnt) s = .next
      { s with
        dec := { s.dec with cntSeen := progressValue s.draws s.dec.cntHeld s.dec.cntSeen s.dec.cnt }
        draws := s.draws + 1
        reply := .word (progressValue s.draws s.dec.cntHeld s.dec.cntSeen s.dec.cnt) } :=
  congrArg Host.Outcome.next (if_pos hb)

theorem hostTurn_readEnc_i_of_busy (hb : s.enc.busy = true) :
    hostTurn (.readEnc .i) s = .next
      { s with
        enc := { s.enc with iSeen := progressValue s.draws s.enc.iHeld s.enc.iSeen s.enc.i }
        draws := s.draws + 1
        reply := .word (progressValue s.draws s.enc.iHeld s.enc.iSeen s.enc.i) } :=
  congrArg Host.Outcome.next (if_pos hb)

theorem hostTurn_readEnc_olen_of_busy (hb : s.enc.busy = true) :
    hostTurn (.readEnc .olen) s = .next
      { s with
        enc := { s.enc with olenSeen := progressValue s.draws s.enc.olenHeld s.enc.olenSeen s.enc.olen }
        draws := s.draws + 1
        reply := .word (progressValue s.draws s.enc.olenHeld s.enc.olenSeen s.enc.olen) } :=
  congrArg Host.Outcome.next (if_pos hb)

end

/-- The value shown is the present one or one held, and lies between the one last shown and the present one. -/
theorem progressValue_shown (draw : Nat) {held : List Word64} {seen now : Word64} (hs : seen ≤ now)
    (hh : ∀ v ∈ held, v ≤ now) :
    (progressValue draw held seen now = now ∨ progressValue draw held seen now ∈ held) ∧
      seen ≤ progressValue draw held seen now ∧ progressValue draw held seen now ≤ now :=
  ⟨(progressValue_mem draw held seen now).imp_right And.left, progressValue_between draw hs hh⟩

/-- Settles O44: the invariant bounds the values held and shown, and so the value a read shows. -/
theorem progressReadsNeverDecreaseNorOvertake : Obligations.ProgressReadsNeverDecreaseNorOvertake := by
  intro s hi
  refine ⟨fun hb => ?_, fun hb => ?_⟩
  · obtain ⟨hposSeen, hcntSeen⟩ := hi.dec.seen hb
    obtain ⟨hposHeld, hcntHeld⟩ := hi.dec.held hb
    obtain ⟨hpos, hposGe, hposLe⟩ := progressValue_shown s.draws hposSeen hposHeld
    obtain ⟨hcnt, hcntGe, hcntLe⟩ := progressValue_shown s.draws hcntSeen hcntHeld
    exact ⟨⟨_, _, hostTurn_readDec_pos_of_busy hb, rfl, hpos, hposGe, hposLe, rfl, rfl⟩,
      ⟨_, _, hostTurn_readDec_cnt_of_busy hb, rfl, hcnt, hcntGe, hcntLe, rfl, rfl⟩⟩
  · obtain ⟨hiSeen, holenSeen⟩ := hi.enc.seen hb
    obtain ⟨hiHeld, holenHeld⟩ := hi.enc.held hb
    obtain ⟨hcur, hcurGe, hcurLe⟩ := progressValue_shown s.draws hiSeen hiHeld
    obtain ⟨holen, holenGe, holenLe⟩ := progressValue_shown s.draws holenSeen holenHeld
    exact ⟨⟨_, _, hostTurn_readEnc_i_of_busy hb, rfl, hcur, hcurGe, hcurLe, rfl, rfl⟩,
      ⟨_, _, hostTurn_readEnc_olen_of_busy hb, rfl, holen, holenGe, holenLe, rfl, rfl⟩⟩

/-! ## START (R130, R131) -/

section

variable {s : State}

theorem execDecStart_of_busy (hb : s.dec.busy = true) : execDecStart s = .next s := if_pos hb

theorem execEncStart_of_busy (hb : s.enc.busy = true) : execEncStart s = .next s := if_pos hb

/-- The host's duties kept, DEC.START starts the working registers anew. -/
theorem execDecStart_of_fits (hb : s.dec.busy = false) (hr : reaches s.caps.srcShared s.dec.len.toNat = false)
    (hf : s.dec.fits s.caps = true) : execDecStart s = .next (s.setDec s.dec.start) := by
  simp only [execDecStart, hb, hr, hf, Bool.false_eq_true, if_false, if_true]

theorem execEncStart_of_fits (hb : s.enc.busy = false) (hr : reaches s.caps.pixShared s.enc.n.toNat = false)
    (hf : s.enc.fits s.caps = true) : execEncStart s = .next (s.setEnc s.enc.start) := by
  simp only [execEncStart, hb, hr, hf, Bool.false_eq_true, if_false, if_true]

end

theorem Dec.fits_iff (caps : Caps) (d : Dec) :
    d.fits caps = true ↔ d.len.toNat ≤ caps.srcCap ∧ d.w.toNat * d.h.toNat ≤ caps.dstCap := by
  rw [Dec.fits, Bool.and_eq_true, decide_eq_true_eq, decide_eq_true_eq, Dec.total]

theorem Enc.fits_iff (caps : Caps) (e : Enc) :
    e.fits caps = true ↔
      e.n.toNat ≤ caps.pixCap ∧ 4 * e.n.toNat ≤ caps.outCap ∧ 4 * e.n.toNat ≤ 2 ^ 64 - 1 := by
  simp only [Enc.fits, Config.maxCount, Bool.and_eq_true, decide_eq_true_eq, Nat.le_min]

/-- Settles O16: the duties kept are `Dec.fits`, and what is left is `Dec.start`. -/
theorem decStartBeginsADecode : Obligations.DecStartBeginsADecode :=
  fun s => ⟨execDecStart_of_busy,
    fun hb hr hlen htotal => execDecStart_of_fits hb hr ((s.dec.fits_iff _).2 ⟨hlen, htotal⟩)⟩

/-- Settles O17: the duties kept are `Enc.fits`, and what is left is `Enc.start`. -/
theorem encStartBeginsAnEncode : Obligations.EncStartBeginsAnEncode :=
  fun s => ⟨execEncStart_of_busy,
    fun hb hr hn hout hmax => execEncStart_of_fits hb hr ((s.enc.fits_iff _).2 ⟨hn, hout, hmax⟩)⟩

/-! ## A control write (R130, R131) -/

/-- A turn on the agenda is taken next. -/
theorem step_of_head {s : State} {e : Event} (h : s.agenda.head? = some e) : step s = takeTurn e (popped s) := by
  obtain ⟨rest, ha⟩ := List.head?_eq_some_iff.1 h
  rw [step, nextTurn, popped, ha]
  rfl

theorem writeCtrl_of_decode {u : UnitId} {v : Word32} {i : Instr} {rest : List Byte}
    (h : decode (.ctrlWrite u v) = .instr i rest) (s : State) : writeCtrl u v s = exec i s := by
  rw [writeCtrl, h]

/-- Settles O20: the access on the agenda is taken next, and it runs what it decodes to. -/
theorem aStepRunsTheCommandWritten : Obligations.AStepRunsTheCommandWritten :=
  fun s _ _ _ => ⟨fun ha hd => (step_of_head ha).trans (writeCtrl_of_decode hd (popped s)),
    fun ha hd => (step_of_head ha).trans (writeCtrl_of_decode hd (popped s))⟩

/-! ## Register reads (R132) -/

/-- Reading STATUS ends the time in flight in DONE alone (log 6). -/
theorem Dec.statusRead_eq (d : Dec) :
    d.statusRead = { d with inFlight := d.inFlight && decide (d.phase ≠ .done) } := by
  unfold Dec.statusRead
  by_cases hd : d.phase = .done
  · simp [(Dec.isDone_iff d).2 hd, hd]
  · simp [mt (Dec.isDone_iff d).1 hd, hd]

theorem Enc.statusRead_eq (e : Enc) :
    e.statusRead = { e with inFlight := e.inFlight && decide (e.phase ≠ .done) } := by
  unfold Enc.statusRead
  by_cases hd : e.phase = .done
  · simp [(Enc.isDone_iff e).2 hd, hd]
  · simp [mt (Enc.isDone_iff e).1 hd, hd]

section

variable {s : State}

theorem hostTurn_readDec_pos_of_not_busy (hb : s.dec.busy = false) :
    hostTurn (.readDec .pos) s = .next (s.answer (.word s.dec.pos)) :=
  congrArg Host.Outcome.next (if_neg (Bool.eq_false_iff.1 hb))

theorem hostTurn_readDec_cnt_of_not_busy (hb : s.dec.busy = false) :
    hostTurn (.readDec .cnt) s = .next (s.answer (.word s.dec.cnt)) :=
  congrArg Host.Outcome.next (if_neg (Bool.eq_false_iff.1 hb))

theorem hostTurn_readEnc_i_of_not_busy (hb : s.enc.busy = false) :
    hostTurn (.readEnc .i) s = .next (s.answer (.word s.enc.i)) :=
  congrArg Host.Outcome.next (if_neg (Bool.eq_false_iff.1 hb))

theorem hostTurn_readEnc_olen_of_not_busy (hb : s.enc.busy = false) :
    hostTurn (.readEnc .olen) s = .next (s.answer (.word s.enc.olen)) :=
  congrArg Host.Outcome.next (if_neg (Bool.eq_false_iff.1 hb))

end

/-- Settles O42, register by register. -/
theorem aRegisterReadReturnsTheRegister : Obligations.ARegisterReadReturnsTheRegister := by
  intro s
  refine ⟨rfl, ?_, rfl, rfl, rfl, hostTurn_readDec_pos_of_not_busy, hostTurn_readDec_cnt_of_not_busy, rfl, ?_, rfl,
    hostTurn_readEnc_i_of_not_busy, hostTurn_readEnc_olen_of_not_busy⟩
  · rw [← Dec.statusRead_eq]
    rfl
  · rw [← Enc.statusRead_eq]
    rfl

/-! ## Register writes (R132) -/

theorem Dec.configure_of_busy {d : Dec} (hb : d.busy = true) (d' : Dec) : d.configure d' = d := if_pos hb

theorem Dec.configure_of_not_busy {d : Dec} (hb : d.busy = false) (d' : Dec) : d.configure d' = d' :=
  if_neg (Bool.eq_false_iff.1 hb)

theorem Enc.configure_of_busy {e : Enc} (hb : e.busy = true) (e' : Enc) : e.configure e' = e := if_pos hb

theorem Enc.configure_of_not_busy {e : Enc} (hb : e.busy = false) (e' : Enc) : e.configure e' = e' :=
  if_neg (Bool.eq_false_iff.1 hb)

/-- A BUSY unit ignores every register write, START among them. -/
theorem hostTurn_writeDec_of_busy {s : State} (hb : s.dec.busy = true) (r : DecReg) (v : Word64) :
    hostTurn (.writeDec r v) s = .next s := by
  cases r with
  | ctrl => rw [hostTurn_writeDec_ctrl, execDecStart_of_busy hb, ite_self]
  | w | h | len => rw [hostTurn, writeDecReg, Dec.configure_of_busy hb, State.setDec_self]
  | status | pos | cnt => rfl

theorem hostTurn_writeEnc_of_busy {s : State} (hb : s.enc.busy = true) (r : EncReg) (v : Word64) :
    hostTurn (.writeEnc r v) s = .next s := by
  cases r with
  | ctrl => rw [hostTurn_writeEnc_ctrl, execEncStart_of_busy hb, ite_self]
  | n => rw [hostTurn, writeEncReg, Enc.configure_of_busy hb, State.setEnc_self]
  | status | i | olen => rfl

/-- Settles O43: a configuration write goes through `configure`, and the read-only registers have no write at all. -/
theorem configurationWritesAreStoredUnlessBusy : Obligations.ConfigurationWritesAreStoredUnlessBusy := by
  intro s v
  refine ⟨fun hb => ?_, fun hb r => hostTurn_writeDec_of_busy hb r v, fun hb => ?_,
    fun hb r => hostTurn_writeEnc_of_busy hb r v, ?_, ?_⟩
  · have hstore (d : Dec) : s.setDec (s.dec.configure d) = s.setDec d := by rw [Dec.configure_of_not_busy hb]
    exact ⟨congrArg Host.Outcome.next (hstore _), congrArg Host.Outcome.next (hstore _),
      congrArg Host.Outcome.next (hstore _)⟩
  · have hstore (e : Enc) : s.setEnc (s.enc.configure e) = s.setEnc e := by rw [Enc.configure_of_not_busy hb]
    exact congrArg Host.Outcome.next (hstore _)
  · rintro r (rfl | rfl | rfl) <;> rfl
  · rintro r (rfl | rfl | rfl) <;> rfl

end Sys2Proof.Machine
end

section
/-! Proof of the statement that no step of a unit and no register access stops, but for a START that breaks a duty
(R140, R132). -/

namespace Sys2Proof.Machine

/-! ## START completes or breaks a duty (R130, R131, R164 items 3 and 4) -/

theorem execDecStart_next_or_brokenDuty (s : State) :
    (∃ t, execDecStart s = .next t) ∨
      (s.dec.busy = false ∧ (reaches s.caps.srcShared s.dec.len.toNat = true ∨ s.dec.fits s.caps = false)) := by
  cases hb : s.dec.busy with
  | true => exact .inl ⟨_, execDecStart_of_busy hb⟩
  | false =>
    cases hr : reaches s.caps.srcShared s.dec.len.toNat with
    | true => exact .inr ⟨rfl, .inl rfl⟩
    | false =>
      cases hf : s.dec.fits s.caps with
      | true => exact .inl ⟨_, execDecStart_of_fits hb hr hf⟩
      | false => exact .inr ⟨rfl, .inr rfl⟩

theorem execEncStart_next_or_brokenDuty (s : State) :
    (∃ t, execEncStart s = .next t) ∨
      (s.enc.busy = false ∧ (reaches s.caps.pixShared s.enc.n.toNat = true ∨ s.enc.fits s.caps = false)) := by
  cases hb : s.enc.busy with
  | true => exact .inl ⟨_, execEncStart_of_busy hb⟩
  | false =>
    cases hr : reaches s.caps.pixShared s.enc.n.toNat with
    | true => exact .inr ⟨rfl, .inl rfl⟩
    | false =>
      cases hf : s.enc.fits s.caps with
      | true => exact .inl ⟨_, execEncStart_of_fits hb hr hf⟩
      | false => exact .inr ⟨rfl, .inr rfl⟩

/-! ## Register writes (R132) -/

/-- Only a control write with bit 0 set runs START, the one register write that can stop. -/
theorem hostTurn_writeDec_next_or_brokenDuty (r : DecReg) (v : Word64) (s : State) :
    (∃ t, hostTurn (.writeDec r v) s = .next t) ∨
      (r = .ctrl ∧ v.getLsbD 0 = true ∧ s.dec.busy = false ∧
        (reaches s.caps.srcShared s.dec.len.toNat = true ∨ s.dec.fits s.caps = false)) := by
  cases r with
  | ctrl =>
    rw [hostTurn_writeDec_ctrl]
    cases v.getLsbD 0 with
    | false => exact .inl ⟨s, rfl⟩
    | true => exact (execDecStart_next_or_brokenDuty s).imp_right fun hduty => ⟨rfl, rfl, hduty⟩
  | status | w | h | len | pos | cnt => exact .inl ⟨_, rfl⟩

theorem hostTurn_writeEnc_next_or_brokenDuty (r : EncReg) (v : Word64) (s : State) :
    (∃ t, hostTurn (.writeEnc r v) s = .next t) ∨
      (r = .ctrl ∧ v.getLsbD 0 = true ∧ s.enc.busy = false ∧
        (reaches s.caps.pixShared s.enc.n.toNat = true ∨ s.enc.fits s.caps = false)) := by
  cases r with
  | ctrl =>
    rw [hostTurn_writeEnc_ctrl]
    cases v.getLsbD 0 with
    | false => exact .inl ⟨s, rfl⟩
    | true => exact (execEncStart_next_or_brokenDuty s).imp_right fun hduty => ⟨rfl, rfl, hduty⟩
  | status | n | i | olen => exact .inl ⟨_, rfl⟩

/-- Settles O38: the steps and the register reads are total, and of the register writes only START can be refused. -/
theorem nothingStopsButABrokenDuty : Obligations.NothingStopsButABrokenDuty :=
  fun s => ⟨⟨_, decTurn_eq s⟩, ⟨_, encTurn_eq s⟩, fun r => ⟨readDecReg r s, rfl⟩, fun r => ⟨readEncReg r s, rfl⟩,
    fun r v => hostTurn_writeDec_next_or_brokenDuty r v s, fun r v => hostTurn_writeEnc_next_or_brokenDuty r v s⟩

end Sys2Proof.Machine
end

section
/-! Proofs of the statements about how the host's broken duties are refused, and about the block's reset
(R160, R161, R164, R167). -/

namespace Sys2Proof.Machine

/-! ## Storage shared with the input (R52) -/

theorem reaches_eq_true_iff (shared : Option Nat) (len : Nat) :
    reaches shared len = true ↔ ∃ a, shared = some a ∧ a < len := by
  cases shared <;> simp [reaches]

theorem reaches_eq_false_iff (shared : Option Nat) (len : Nat) :
    reaches shared len = false ↔ ∀ a, shared = some a → len ≤ a := by
  cases shared <;> simp [reaches]

/-! ## A START that breaks a duty (R164 items 3 and 4, R27) -/

section

variable {s : State}

theorem execDecStart_of_reaches (hb : s.dec.busy = false) (hr : reaches s.caps.srcShared s.dec.len.toNat = true) :
    execDecStart s = .refused .spacesOverlap := by
  simp only [execDecStart, hb, hr, Bool.false_eq_true, if_false, if_true]

theorem execEncStart_of_reaches (hb : s.enc.busy = false) (hr : reaches s.caps.pixShared s.enc.n.toNat = true) :
    execEncStart s = .refused .spacesOverlap := by
  simp only [execEncStart, hb, hr, Bool.false_eq_true, if_false, if_true]

theorem execDecStart_of_not_fits (hb : s.dec.busy = false) (hr : reaches s.caps.srcShared s.dec.len.toNat = false)
    (hf : s.dec.fits s.caps = false) : execDecStart s = .refused .capacityExceeded := by
  simp only [execDecStart, hb, hr, hf, Bool.false_eq_true, if_false]

theorem execEncStart_of_not_fits (hb : s.enc.busy = false) (hr : reaches s.caps.pixShared s.enc.n.toNat = false)
    (hf : s.enc.fits s.caps = false) : execEncStart s = .refused .capacityExceeded := by
  simp only [execEncStart, hb, hr, hf, Bool.false_eq_true, if_false]

end

/-- Settles O18: an overlap is `reaches`, and a capacity exceeded denies `Dec.fits` or `Enc.fits`. -/
theorem aBrokenDutyAtStartIsRefused : Obligations.ABrokenDutyAtStartIsRefused := by
  intro s
  refine ⟨fun hb hr => execDecStart_of_reaches hb ((reaches_eq_true_iff _ _).2 hr),
    fun hb hr hcap => execDecStart_of_not_fits hb ((reaches_eq_false_iff _ _).2 hr)
      (Bool.eq_false_iff.2 fun hf => ?_),
    fun hb hr => execEncStart_of_reaches hb ((reaches_eq_true_iff _ _).2 hr),
    fun hb hr hcap => execEncStart_of_not_fits hb ((reaches_eq_false_iff _ _).2 hr)
      (Bool.eq_false_iff.2 fun hf => ?_)⟩
  · obtain ⟨hlen, htotal⟩ := (s.dec.fits_iff _).1 hf
    rcases hcap with h | h
    · exact Nat.not_lt.2 hlen h
    · exact Nat.not_lt.2 htotal h
  · obtain ⟨hn, hout, hmax⟩ := (s.enc.fits_iff _).1 hf
    rcases hcap with h | h | h
    · exact Nat.not_lt.2 hn h
    · exact Nat.not_lt.2 hout h
    · exact Nat.not_lt.2 hmax h

/-! ## The host's writes of a space in use (R164 items 1 and 2, R167) -/

theorem Dec.inputHeld_iff (d : Dec) (a : Nat) :
    d.inputHeld a = true ↔ d.busy = true ∨ d.inFlight = true ∧ a < d.lenAtStart.toNat := by
  rw [Dec.inputHeld, Bool.or_eq_true, Bool.and_eq_true, decide_eq_true_eq]

theorem Enc.inputHeld_iff (e : Enc) (k : Nat) :
    e.inputHeld k = true ↔ e.busy = true ∨ e.inFlight = true ∧ k < e.nAtStart.toNat := by
  rw [Enc.inputHeld, Bool.or_eq_true, Bool.and_eq_true, decide_eq_true_eq]

section

variable {s : State} {a k : Nat}

theorem hostTurn_writeSrc_of_inputHeld (ha : a < s.caps.srcCap) (hh : s.dec.inputHeld a = true) (v : Byte) :
    hostTurn (.writeSrc a v) s = .refused .inputNotStable := by
  simp only [hostTurn, hostWriteSrc, Nat.not_le.2 ha, hh, if_false, if_true]

theorem hostTurn_writeDst_of_inFlight (hk : k < s.caps.dstCap) (hf : s.dec.inFlight = true) (v : Pixel) :
    hostTurn (.writeDst k v) s = .refused .outputNotPrivate := by
  simp only [hostTurn, hostWriteDst, Nat.not_le.2 hk, hf, if_false, if_true]

theorem hostTurn_writePix_of_inputHeld (hk : k < s.caps.pixCap) (hh : s.enc.inputHeld k = true) (v : Pixel) :
    hostTurn (.writePix k v) s = .refused .inputNotStable := by
  simp only [hostTurn, hostWritePix, Nat.not_le.2 hk, hh, if_false, if_true]

theorem hostTurn_writeOut_of_inFlight (ha : a < s.caps.outCap) (hf : s.enc.inFlight = true) (v : Byte) :
    hostTurn (.writeOut a v) s = .refused .outputNotPrivate := by
  simp only [hostTurn, hostWriteOut, Nat.not_le.2 ha, hf, if_false, if_true]

end

/-- Settles O45: the window of an input is `Dec.inputHeld` or `Enc.inputHeld`, that of an output the time in flight. -/
theorem spaceWritesInFlightAreRefused : Obligations.SpaceWritesInFlightAreRefused :=
  fun s a v p => ⟨fun hh ha => hostTurn_writeSrc_of_inputHeld ha ((s.dec.inputHeld_iff a).2 hh) v,
    fun hf ha => hostTurn_writeDst_of_inFlight ha hf p,
    fun hh ha => hostTurn_writePix_of_inputHeld ha ((s.enc.inputHeld_iff a).2 hh) p,
    fun hf ha => hostTurn_writeOut_of_inFlight ha hf v⟩

/-! ## Reset (R160, R161) -/

/-- Settles O48: both units are IDLE after `State.applyReset`, and an IDLE unit has no step. -/
theorem resetAbandonsEveryOperation : Obligations.ResetAbandonsEveryOperation := by
  intro s
  obtain ⟨hdec, henc, -⟩ := anIdleOrDoneUnitDoesNothing s.applyReset
  exact ⟨s.applyReset, rfl, rfl, rfl, hdec (.inl rfl), henc (.inl rfl)⟩

end Sys2Proof.Machine
end

section
/-! Proof of the statement that a memory in canonical form is fixed by what it reads as (log 2). -/

namespace Sys2Proof.Machine

section

variable {α : Type} {a k : Nat} {x : α} {m m' : Memory α}

theorem Memory.wf_cons : Memory.wf ((a, x) :: m) = true ↔ m.above a = true ∧ m.wf = true := by
  rw [Memory.wf, Bool.and_eq_true]

theorem Memory.read_cons_same : Memory.read ((a, x) :: m) a = some x := if_pos rfl

theorem Memory.read_cons_of_lt (h : k < a) : Memory.read ((a, x) :: m) k = none := by
  rw [Memory.read, if_neg h.ne, if_pos h]

theorem Memory.read_cons_of_gt (h : a < k) : Memory.read ((a, x) :: m) k = m.read k := by
  rw [Memory.read, if_neg h.ne', if_neg h.asymm]

/-- The first index listed is the least that reads as an element, whatever follows it. -/
theorem Memory.le_of_read_cons {y : α} (h : Memory.read ((a, x) :: m) k = some y) : a ≤ k :=
  Nat.not_lt.1 fun hlt => by simp [Memory.read_cons_of_lt hlt] at h

/-- Behind a common first index, two memories that read alike read alike too: up to that index both read as nothing. -/
theorem Memory.read_eq_of_cons {x' : α} (hm : m.above a = true) (hm' : m'.above a = true)
    (h : ∀ k, Memory.read ((a, x) :: m) k = Memory.read ((a, x') :: m') k) (k : Nat) : m.read k = m'.read k := by
  rcases Nat.lt_or_ge a k with hlt | hle
  · rw [← Memory.read_cons_of_gt (x := x) hlt, h, Memory.read_cons_of_gt hlt]
  · rw [Memory.read_of_above hm hle, Memory.read_of_above hm' hle]

/-- Canonical memories that read alike are equal: their first entries agree, and so do the memories behind them. -/
theorem Memory.eq_of_read_eq (hwf : m.wf = true) (hwf' : m'.wf = true) (h : ∀ k, m.read k = m'.read k) : m = m' := by
  induction m generalizing m' with
  | nil =>
    cases m' with
    | nil => rfl
    | cons e' m' =>
      obtain ⟨a', x'⟩ := e'
      simpa [Memory.read_cons_same] using h a'
  | cons e m ih =>
    obtain ⟨a, x⟩ := e
    cases m' with
    | nil => simpa [Memory.read_cons_same] using h a
    | cons e' m' =>
      obtain ⟨a', x'⟩ := e'
      have hle : a' ≤ a := Memory.le_of_read_cons ((h a).symm.trans Memory.read_cons_same)
      have hge : a ≤ a' := Memory.le_of_read_cons ((h a').trans Memory.read_cons_same)
      obtain rfl : a = a' := Nat.le_antisymm hge hle
      have hx : some x = some x' := Memory.read_cons_same.symm.trans ((h a).trans Memory.read_cons_same)
      obtain ⟨hab, hm⟩ := Memory.wf_cons.1 hwf
      obtain ⟨hab', hm'⟩ := Memory.wf_cons.1 hwf'
      rw [Option.some.inj hx, ih hm hm' (Memory.read_eq_of_cons hab hab' h)]

end

/-- Settles O10, for both element types at once. -/
theorem memoriesThatReadAlikeAreEqual : Obligations.MemoriesThatReadAlikeAreEqual :=
  ⟨fun _ _ => Memory.eq_of_read_eq, fun _ _ => Memory.eq_of_read_eq⟩

end Sys2Proof.Machine
end
